-- ==== Sys2Proof/Word.lean ====
section
/-! DEFINITION. The word types of the block: bytes, codes, code widths. -/

namespace Sys2Proof

/-- A byte: a natural number in 0..255 (R13); also a predictor sample (R120). -/
abbrev Byte := BitVec 8

/-- A code: an unsigned 12-bit value, 0..4095 (R6, R18). -/
abbrev Code := BitVec 12

/-- The width of a code on the wire (R9, R61): 9, 10, 11 or 12 bits. -/
inductive Width where
  | w9
  | w10
  | w11
  | w12
deriving DecidableEq, Repr

/-- The number of bits of a width. -/
def Width.bits : Width → Nat
  | .w9 => 9
  | .w10 => 10
  | .w11 => 11
  | .w12 => 12

end Sys2Proof
end

