-- ==== Sys2Proof/Config.lean ====
section
/-! DEFINITION. The constants of the code format (R6), each named once (I6, log 15), the open parameter MAX_IN_LEN (R8)
and the free values for what the spec leaves unspecified (log 3). -/

namespace Sys2Proof

/-- `CLEAR`, the ClearCode (R6). -/
@[simp] def Config.clear : Nat := 256

/-- `EOI`, the EndOfInformationCode (R6). -/
@[simp] def Config.eoi : Nat := 257

/-- `FIRST_LEARNED`, where NextAssignableCode starts (R6). -/
@[simp] def Config.firstLearned : Nat := 258

/-- `NAC_LIMIT`: at this NextAssignableCode an insert fails (R6). -/
@[simp] def Config.nacLimit : Nat := 4094

/-- `MAX_IN_LEN`, the largest input buffer in bytes (R8, D21): OPEN, an argument of the model, so nothing
fixes it. State holds it (`State.maxInLen`), so that a claim is about every value. -/
opaque Config.maxInLen : Nat

/-- Free value for a 12-bit register the spec leaves unspecified: `E.CUR` at START, `D.PREV` after `D.reset` (R156, I4). -/
opaque Config.freeCode : Nat → Code

/-- Free value for a byte sequence the spec leaves unspecified: `D.PREVSEQ` after `D.reset` (R102), the contents of `OUT`
after a fault (R141, I2). -/
opaque Config.freeBytes : Nat → List Byte

end Sys2Proof
end

