-- ==== Sys2Proof/Syntax.lean ====
section
/-! DEFINITION. The instruction set: one constructor per row of spec/opcode_table.json (45 rows, 27 mnemonics). -/

namespace Sys2Proof

/-- The operations of the block. The codes of the code stream (R61, R64, R65) carry their format in the name and their
field at the format's own width; the commands (R74) and the internal operations (R75) have no binary encoding. -/
inductive Instr where
  -- CODE9 (R61)
  | lit9 (b : Byte)          -- LIT, a literal byte (R111)
  | clr9                     -- CLR, ClearCode (R108)
  | eoi9                     -- EOI, EndOfInformationCode (R109)
  | dict9 (c : BitVec 9)  -- DICT, a learned code in the table (R112)
  | kwk9 (c : BitVec 9)   -- KWK, the code not yet inserted (R113)
  | inv9 (c : BitVec 9)   -- INV, an invalid code (R110)
  -- CODE10 (R61)
  | lit10 (b : Byte)          -- LIT, a literal byte (R111)
  | clr10                     -- CLR, ClearCode (R108)
  | eoi10                     -- EOI, EndOfInformationCode (R109)
  | dict10 (c : BitVec 10)  -- DICT, a learned code in the table (R112)
  | kwk10 (c : BitVec 10)   -- KWK, the code not yet inserted (R113)
  | inv10 (c : BitVec 10)   -- INV, an invalid code (R110)
  -- CODE11 (R61)
  | lit11 (b : Byte)          -- LIT, a literal byte (R111)
  | clr11                     -- CLR, ClearCode (R108)
  | eoi11                     -- EOI, EndOfInformationCode (R109)
  | dict11 (c : BitVec 11)  -- DICT, a learned code in the table (R112)
  | kwk11 (c : BitVec 11)   -- KWK, the code not yet inserted (R113)
  | inv11 (c : BitVec 11)   -- INV, an invalid code (R110)
  -- CODE12 (R61)
  | lit12 (b : Byte)          -- LIT, a literal byte (R111)
  | clr12                     -- CLR, ClearCode (R108)
  | eoi12                     -- EOI, EndOfInformationCode (R109)
  | dict12 (c : BitVec 12)  -- DICT, a learned code in the table (R112)
  | kwk12 (c : BitVec 12)   -- KWK, the code not yet inserted (R113)
  | inv12 (c : BitVec 12)   -- INV, an invalid code (R110)
  -- commands (R74)
  | start                                -- START (R127)
  | encode                               -- ENCODE (R128)
  | decode                               -- DECODE (R130)
  -- internal operations (R75)
  | writeCode (v : Code) (w : Width)     -- writeCode(v, w) (R79)
  | flush                                -- flush() (R81)
  | readCode (w : Width)                 -- readCode(w) (R83)
  | reset                                -- reset() of the encoder (R86)
  | lookup (p : Code) (b : Byte)         -- lookup(p, b) (R87)
  | insert (p : Code) (b : Byte)         -- insert(p, b) (R88)
  | emitCode (c : Code)                  -- emitCode(c) (R89)
  | encFirst                             -- ENC.FIRST (R91)
  | encHit                               -- ENC.HIT (R92)
  | encMiss                              -- ENC.MISS (R93)
  | encMissFull                          -- ENC.MISS_FULL (R94)
  | encFinish                            -- ENC.FINISH (R96)
  | dReset                               -- D.reset() (R102)
  | decFetch                             -- DEC.FETCH (R103)
  | data (c : Code) (seq : List Byte)    -- DATA(c, seq) (R105)
  | hdFwd                                -- HD.FWD (R119)
  | hdInv                                -- HD.INV (R122)
  | predNone                             -- PRED.NONE (R123)
deriving DecidableEq, Repr

/-- `LIT b /w` (R76). -/
def Instr.lit (w : Width) (b : Byte) : Instr :=
  match w with
  | .w9 => .lit9 b
  | .w10 => .lit10 b
  | .w11 => .lit11 b
  | .w12 => .lit12 b

/-- `CLR /w` (R76). -/
def Instr.clr (w : Width) : Instr :=
  match w with
  | .w9 => .clr9
  | .w10 => .clr10
  | .w11 => .clr11
  | .w12 => .clr12

/-- `EOI /w` (R76). -/
def Instr.eoi (w : Width) : Instr :=
  match w with
  | .w9 => .eoi9
  | .w10 => .eoi10
  | .w11 => .eoi11
  | .w12 => .eoi12

/-- `DICT c /w` (R76): the low `w` bits of `c`. -/
def Instr.dict (w : Width) (c : Code) : Instr :=
  match w with
  | .w9 => .dict9 (c.setWidth 9)
  | .w10 => .dict10 (c.setWidth 10)
  | .w11 => .dict11 (c.setWidth 11)
  | .w12 => .dict12 (c.setWidth 12)

/-- `KWK c /w` (R76): the low `w` bits of `c`. -/
def Instr.kwk (w : Width) (c : Code) : Instr :=
  match w with
  | .w9 => .kwk9 (c.setWidth 9)
  | .w10 => .kwk10 (c.setWidth 10)
  | .w11 => .kwk11 (c.setWidth 11)
  | .w12 => .kwk12 (c.setWidth 12)

/-- an invalid code `c` at width `w` (R64): the low `w` bits of `c`. -/
def Instr.inv (w : Width) (c : Code) : Instr :=
  match w with
  | .w9 => .inv9 (c.setWidth 9)
  | .w10 => .inv10 (c.setWidth 10)
  | .w11 => .inv11 (c.setWidth 11)
  | .w12 => .inv12 (c.setWidth 12)

end Sys2Proof
end

