-- ==== Sys2Proof/WellFormed.lean ====
section
/-! DEFINITION. Which instructions are well formed: the operand conditions the rules state for every state of the block. -/

namespace Sys2Proof

/-- A literal or learned code, the code of a sequence: never 256 or 257 (R18, R20). 4094 and 4095 are never assigned (R7). -/
def isDataCode (c : Nat) : Bool :=
  c < Config.clear || (Config.firstLearned ≤ c && c < Config.nacLimit)

/-- The operand of `DICT` at a width: a learned code below a table count `n` with `Wd(n)` that width (R9, R64). -/
def dictFits (maxCount c : Nat) : Bool :=
  Config.firstLearned ≤ c && c < maxCount

/-- The operand of `KWK` at a width: a table count with that width (R9, R64). -/
def kwkFits (minCount maxCount c : Nat) : Bool :=
  minCount ≤ c && c ≤ maxCount

/-- The operand of `INV` at a width: at or above a table count with that width (R9, R64). -/
def invFits (minCount c : Nat) : Bool :=
  minCount ≤ c

/-- Well-formed instructions. -/
def Instr.wf : Instr → Bool
  | .lit9 _ | .lit10 _ | .lit11 _ | .lit12 _ => true
  | .clr9 | .clr10 | .clr11 | .clr12 | .eoi9 | .eoi10 | .eoi11 | .eoi12 => true
  | .dict9 c => dictFits (2 ^ 9 - 2) c.toNat
  | .dict10 c => dictFits (2 ^ 10 - 2) c.toNat
  | .dict11 c => dictFits (2 ^ 11 - 2) c.toNat
  | .dict12 c => dictFits Config.nacLimit c.toNat
  | .kwk9 c => kwkFits Config.firstLearned (2 ^ 9 - 2) c.toNat
  | .kwk10 c => kwkFits (2 ^ 9 - 1) (2 ^ 10 - 2) c.toNat
  | .kwk11 c => kwkFits (2 ^ 10 - 1) (2 ^ 11 - 2) c.toNat
  | .kwk12 c => kwkFits (2 ^ 11 - 1) Config.nacLimit c.toNat
  | .inv9 c => invFits Config.firstLearned c.toNat
  | .inv10 c => invFits (2 ^ 9 - 1) c.toNat
  | .inv11 c => invFits (2 ^ 10 - 1) c.toNat
  | .inv12 c => invFits (2 ^ 11 - 1) c.toNat
  | .start | .encode | .decode => true
  -- R79: `0 <= v < 2^w`
  | .writeCode v w => decide (v.toNat < 2 ^ w.bits)
  | .flush | .readCode _ | .reset => true
  -- R87, R88: `p` is a literal or learned code
  | .lookup p _ | .insert p _ => isDataCode p.toNat
  -- R89: a literal code, a learned code, `CLEAR` or `EOI`
  | .emitCode c => isDataCode c.toNat || c.toNat == Config.clear || c.toNat == Config.eoi
  | .encFirst | .encHit | .encMiss | .encMissFull | .encFinish | .dReset | .decFetch => true
  -- R105, R113: the code of `LIT`, `DICT` or `KWK` (a `KWK` may be 4094, R107) and its non-empty sequence
  | .data c seq => (isDataCode c.toNat || c.toNat == Config.nacLimit) && !seq.isEmpty
  | .hdFwd | .hdInv | .predNone => true

end Sys2Proof
end

