-- ==== Sys2Proof/Decode.lean ====
section
/-! DEFINITION. The width function, the bit order of the stream, the classes of codes, the decoder of codes and, after it,
the encoder. -/

namespace Sys2Proof

/-! ## The width function -/

/-- `Wd(n)` (R9): the smallest width `w` with `n < 2^w - 1`, and 12 when there is none. The argument is the decoder table
count (R10). -/
def Wd (n : Nat) : Width :=
  if n < 2 ^ 9 - 1 then .w9
  else if n < 2 ^ 10 - 1 then .w10
  else if n < 2 ^ 11 - 1 then .w11
  else .w12

/-! ## Bits of the stream -/

/-- The `w` bits of `v`, most significant first (R48). -/
def codeBits (w v : Nat) : List Bool :=
  (List.range w).map fun j => v.testBit (w - 1 - j)

/-- The value of a list of bits, first bit most significant (R63). -/
def bitsVal (bs : List Bool) : Nat :=
  bs.foldl (fun c b => 2 * c + b.toNat) 0

/-- Bit `q` of a stream of bytes: bit `7 - (q mod 8)` of byte `q div 8` (R48). -/
def streamBit (byteAt : Nat → Byte) (q : Nat) : Bool :=
  (byteAt (q / 8)).getLsbD (7 - q % 8)

/-- The `w` bits of the stream from position `pos` (R63). -/
def streamBits (byteAt : Nat → Byte) (pos w : Nat) : List Bool :=
  (List.range w).map fun j => streamBit byteAt (pos + j)

/-- The code of `w` bits at position `pos` (R63): zero-extended, nothing sign-extended, scaled or shifted. -/
def codeAt (byteAt : Nat → Byte) (pos w : Nat) : Nat :=
  bitsVal (streamBits byteAt pos w)

/-- Bits as bytes, most significant bit first, the last byte padded with zero bits (R48, R50). -/
def packBits (bs : List Bool) : List Byte :=
  (List.range ((bs.length + 7) / 8)).map fun i =>
    BitVec.ofNat 8 (bitsVal ((List.range 8).map fun j => bs.getD (8 * i + j) false))

/-! ## Decoding -/

/-- The classes of codes (R64). -/
inductive CodeClass where
  | clr
  | eoi
  | inv
  | lit
  | dict
  | kwk
deriving DecidableEq, Repr

/-- The class of the code `c` for the decoder state `n = D.NAC`, `v = D.PREVV`, checked in R64's order. -/
def classify (n : Nat) (v : Bool) (c : Nat) : CodeClass :=
  if c = Config.clear then .clr
  else if c = Config.eoi then .eoi
  else if n < c ∨ (c = n ∧ v = false) then .inv
  else if c < Config.clear then .lit
  else if c < n then .dict
  else .kwk

/-- The instruction a code of width `w` stands for when it is of the class `k`. -/
def instrOfClass (w : Width) (k : CodeClass) (c : Code) : Instr :=
  match k with
  | .clr => Instr.clr w
  | .eoi => Instr.eoi w
  | .inv => Instr.inv w c
  | .lit => Instr.lit w (c.setWidth 8)
  | .dict => Instr.dict w c
  | .kwk => Instr.kwk w c

/-- The instruction of the code `c` read at width `w` in the decoder state `n`, `v` (R64). Every code is of some class. -/
def decodeCode (w : Width) (n : Nat) (v : Bool) (c : Code) : Instr :=
  instrOfClass w (classify n v c.toNat) c

/-- Why a stream gives no instruction. -/
inductive DecodeError where
  /-- Fewer bits remain than the code's width (R83). -/
  | endOfStream
deriving DecidableEq, Repr

/-- The decoder, total on any bytes: the instruction at bit `pos` in the decoder state `n`, `v`, with the position after it
(R62: the width is the reader's own `Wd(n)`), or the rejection by name. -/
def decodeStream (bytes : List Byte) (pos n : Nat) (v : Bool) : Except DecodeError (Instr × Nat) :=
  if 8 * bytes.length - pos < (Wd n).bits then .error .endOfStream
  else
    .ok (decodeCode (Wd n) n v (BitVec.ofNat 12 (codeAt (bytes.getD · 0) pos (Wd n).bits)), pos + (Wd n).bits)

/-! ## Encoding -/

/-- The format and the value of an instruction's code (R61, R65); the commands and the internal operations have no binary
encoding (R75). -/
def encodeCode : Instr → Option (Width × Code)
  | .lit9 b => some (.w9, b.setWidth 12)
  | .lit10 b => some (.w10, b.setWidth 12)
  | .lit11 b => some (.w11, b.setWidth 12)
  | .lit12 b => some (.w12, b.setWidth 12)
  | .clr9 => some (.w9, BitVec.ofNat 12 Config.clear)
  | .clr10 => some (.w10, BitVec.ofNat 12 Config.clear)
  | .clr11 => some (.w11, BitVec.ofNat 12 Config.clear)
  | .clr12 => some (.w12, BitVec.ofNat 12 Config.clear)
  | .eoi9 => some (.w9, BitVec.ofNat 12 Config.eoi)
  | .eoi10 => some (.w10, BitVec.ofNat 12 Config.eoi)
  | .eoi11 => some (.w11, BitVec.ofNat 12 Config.eoi)
  | .eoi12 => some (.w12, BitVec.ofNat 12 Config.eoi)
  | .dict9 c | .kwk9 c | .inv9 c => some (.w9, c.setWidth 12)
  | .dict10 c | .kwk10 c | .inv10 c => some (.w10, c.setWidth 12)
  | .dict11 c | .kwk11 c | .inv11 c => some (.w11, c.setWidth 12)
  | .dict12 c | .kwk12 c | .inv12 c => some (.w12, c)
  | .start | .encode | .decode | .writeCode _ _ | .flush | .readCode _ | .reset | .lookup _ _ | .insert _ _
  | .emitCode _ | .encFirst | .encHit | .encMiss | .encMissFull | .encFinish | .dReset | .decFetch | .data _ _
  | .hdFwd | .hdInv | .predNone => none

/-- The encoder: the bits of an instruction on the wire, most significant first (R48, R61). -/
def encode (i : Instr) : Option (List Bool) :=
  (encodeCode i).map fun (w, c) => codeBits w.bits c.toNat

/-- A code stream (R69, R76): the bits of its items one after the other (R80), padded to whole bytes. -/
def encodeStream (is : List Instr) : List Byte :=
  packBits (is.flatMap fun i => (encode i).getD [])

/-! ## Which instruction may be read in a decoder state -/

/-- The class conditions of R64 with the width of R62, each as its row of the table states it: the decoder with the table count
`n` and `v = D.PREVV` may read the instruction. The commands and the internal operations are not read from a stream (R75). -/
def Instr.fits (n : Nat) (v : Bool) : Instr → Bool
  | .lit9 _ | .clr9 | .eoi9 => Wd n == .w9
  | .lit10 _ | .clr10 | .eoi10 => Wd n == .w10
  | .lit11 _ | .clr11 | .eoi11 => Wd n == .w11
  | .lit12 _ | .clr12 | .eoi12 => Wd n == .w12
  | .dict9 c => Wd n == .w9 && dictFits n c.toNat
  | .dict10 c => Wd n == .w10 && dictFits n c.toNat
  | .dict11 c => Wd n == .w11 && dictFits n c.toNat
  | .dict12 c => Wd n == .w12 && dictFits n c.toNat
  | .kwk9 c => Wd n == .w9 && (c.toNat == n && v)
  | .kwk10 c => Wd n == .w10 && (c.toNat == n && v)
  | .kwk11 c => Wd n == .w11 && (c.toNat == n && v)
  | .kwk12 c => Wd n == .w12 && (c.toNat == n && v)
  | .inv9 c => Wd n == .w9 && (decide (n < c.toNat) || c.toNat == n && !v)
  | .inv10 c => Wd n == .w10 && (decide (n < c.toNat) || c.toNat == n && !v)
  | .inv11 c => Wd n == .w11 && (decide (n < c.toNat) || c.toNat == n && !v)
  | .inv12 c => Wd n == .w12 && (decide (n < c.toNat) || c.toNat == n && !v)
  | .start | .encode | .decode | .writeCode _ _ | .flush | .readCode _ | .reset | .lookup _ _ | .insert _ _
  | .emitCode _ | .encFirst | .encHit | .encMiss | .encMissFull | .encFinish | .dReset | .decFetch | .data _ _
  | .hdFwd | .hdInv | .predNone => false

/-! ## The opcode table's words -/

/-- The width of a word the opcode table gives: the table's own number of bits where it is a code format, else (the number
rounded up to bytes) the narrowest format that holds the word (log 19). -/
def tableWidth (nbits w : Nat) : Width :=
  match nbits with
  | 9 => .w9
  | 10 => .w10
  | 11 => .w11
  | 12 => .w12
  | _ => if w < 2 ^ 9 then .w9 else if w < 2 ^ 10 then .w10 else if w < 2 ^ 11 then .w11 else .w12

/-- The smallest decoder table count whose codes have the width (R9): a decoder state in which a word of that width is read
(log 19). -/
def Width.minCount : Width → Nat
  | .w9 => Config.firstLearned
  | .w10 => 2 ^ 9 - 1
  | .w11 => 2 ^ 10 - 1
  | .w12 => 2 ^ 11 - 1

/-- Whether the decoder has a previous code at that table count: only a count of 258 goes without one (R40). -/
def Width.hasPrev : Width → Bool
  | .w9 => false
  | .w10 | .w11 | .w12 => true

/-- The bytes of a table word as the stream holds them, most significant bit first (R48). -/
def tableBytes (nbits w : Nat) : List Byte :=
  packBits (codeBits (tableWidth nbits w).bits w)

/-- The instruction the decoder reads from a word of the opcode table, in the decoder state of `Width.minCount`. -/
def decodeTableWord (nbits w : Nat) : Option Instr :=
  match decodeStream (tableBytes nbits w) 0 (tableWidth nbits w).minCount (tableWidth nbits w).hasPrev with
  | .ok (i, _) => some i
  | .error _ => none

end Sys2Proof
end

