-- ==== Sys2Proof/Machine/State.lean ====
section
/-! DEFINITION. The state of the block (R19 to R35, R43), its reset value, and the reasons a step can stop. -/

namespace Sys2Proof.Machine

/-- A byte buffer: (address, byte) pairs, addresses strictly rising, no entry equal to `unlistedByte` (log 6). -/
abbrev Memory := List Host.Cell

/-- What a byte of `IN` or `OUT` that nothing has written reads as. DESIGN CHOICE (log 5), unsafe: the spec gives none. -/
def unlistedByte : Byte := 0

/-- `CFG.MODE` (R33): 0 is ENCODE, 1 is DECODE. -/
inductive Mode where
  | encode
  | decode
deriving DecidableEq, Repr

/-- `CFG.PRED` (R33, R3): 0 is None, 1 is HorizontalDifferencing. -/
inductive Pred where
  | none
  | horizontal
deriving DecidableEq, Repr

/-- `CFG`, the configuration record (R33). -/
structure Cfg where
  mode : Mode
  pred : Pred
  roww : Nat
  explen : Nat
deriving DecidableEq, Repr

/-- `STAT.STATE` (R35): 0 IDLE, 1 BUSY, 2 DONE, 3 ERROR. -/
inductive RunState where
  | idle
  | busy
  | done
  | error
deriving DecidableEq, Repr

/-- The error kinds of `STAT.ERR` (R138); the codes 6 and 7 are never produced (I10). -/
inductive ErrKind where
  | none
  | unexpectedEndOfStream
  | invalidCodeError
  | dictionaryOverflowWithoutClear
  | outputOverrun
  | configError
deriving DecidableEq, Repr

/-- `STAT`, the status record (R35). -/
structure Stat where
  state : RunState
  err : ErrKind
  errpos : Nat
deriving DecidableEq, Repr

/-- An entry of `E.DICT`: the key `(p, b)` and the code assigned to it (R24). -/
structure DictEntry where
  pre : Code
  byte : Byte
  code : Code
deriving DecidableEq, Repr

/-- The encoder's registers `E.*` (R20 to R25). -/
structure Enc where
  curv : Bool
  cur : Code
  nac : Code
  dcnt : Code
  emitted : Bool
  width : Width
  dict : List DictEntry
  ipos : Nat
deriving DecidableEq, Repr

/-- The bit writer's registers `BW.*` (R26). -/
structure Bw where
  acc : BitVec 7
  cnt : BitVec 3
deriving DecidableEq, Repr

/-- A learned entry of `D.TABLE` (R30). -/
structure TableEntry where
  code : Code
  seq : List Byte
deriving DecidableEq, Repr

/-- The decoder's registers `D.*` (R27 to R31), with `start`, the position of the code being processed (R103, log 7). -/
structure Dec where
  nac : Code
  width : Width
  table : List TableEntry
  prevv : Bool
  prev : Code
  prevseq : List Byte
  start : Nat
deriving DecidableEq, Repr

/-- What a BUSY invocation does next (the order of R128, R130, R131; log 7, log 9). -/
inductive Phase where
  /-- `HD.FWD` is at row `r`. -/
  | fwd (r : Nat)
  /-- The LZW pass: the encoder's byte loop or the decoder's code loop. -/
  | lzw
  /-- `HD.INV` is at row `r`. -/
  | inv (r : Nat)
deriving DecidableEq, Repr

/-- The value the last of `readCode`, `lookup`, `insert` returned (R83, R87, R88; log 7). -/
inductive Ret where
  | none
  | code (c : Code)
  | hit (k : Code)
  | miss
  | assigned (k : Code)
  | full
deriving DecidableEq, Repr

/-- What the host does (R126): it writes a configuration field, a byte of `IN` or `IN_LEN`, or issues `START`. -/
inductive HostAct where
  | setMode (m : Mode)
  | setPred (p : Pred)
  | setRoww (n : Nat)
  | setExplen (n : Nat)
  | setInLen (n : Nat)
  | writeIn (i : Nat) (b : Byte)
  | start
deriving DecidableEq, Repr

/-- The state of the block. `maxInLen` is the open parameter of R8; `x`, `phase`, `ret`, `host` and `free` are
the model's own (log 1, log 3, log 7). -/
structure State where
  /-- `MAX_IN_LEN` (R8, R42): the parameter the step takes as an argument; no step changes it (log 4). -/
  maxInLen : Nat
  /-- `CFG` (R33). -/
  cfg : Cfg
  /-- `IN_LEN` (R33). -/
  inLen : Nat
  /-- `IN` (R43). -/
  inBuf : Memory
  /-- `STAT` (R35). -/
  stat : Stat
  /-- `OUT_LEN` (R35). -/
  outLen : Nat
  /-- `OUT` (R43). -/
  outBuf : Memory
  /-- `E.*` (R20 to R25). -/
  enc : Enc
  /-- `BW.*` (R26). -/
  bw : Bw
  /-- `D.*` (R27 to R31). -/
  dec : Dec
  /-- `BR.POS` (R32). -/
  brPos : Nat
  /-- The bytes `x` the predictor delivers to the encoder (R119, R128). -/
  x : List Byte
  /-- What a BUSY invocation does next. -/
  phase : Phase
  /-- The last value returned. -/
  ret : Ret
  /-- The host actions still to come (R126). -/
  host : List HostAct
  /-- The counter the free values are read at (log 3). -/
  free : Nat
deriving DecidableEq, Repr

/-- Reasons the machine stops. None is reached in a state that satisfies the invariants of Safety.lean (log 11). -/
inductive Fault where
  /-- `DICT c` with `c < D.NAC` and no entry `c` in `D.TABLE`, against R40: raised by the DICT arms. Safe: the spec's block
  has the entry. -/
  | tableEntryMissing
  /-- `head` of an empty sequence, against R15 and R29: raised by the KWK arms and by DATA. Safe: the spec's sequences are
  not empty. -/
  | emptySequence
  /-- A byte step with no byte `x[E.IPOS]`, against R128: raised by the encoder's byte steps. Safe: the spec's `x` has
  `IN_LEN` bytes. -/
  | inputByteMissing
deriving DecidableEq, Repr

/-- Reasons an operation is refused. -/
inductive Refusal where
  /-- The instruction has no meaning yet: raised by `exec` alone. Safe. -/
  | notModelled (mnemonic : String)
  /-- The operation's selection condition does not hold, so the spec never runs it here (R64, R91 to R96, R110, R112, R113,
  R128, R130): raised by that operation. Safe: no step selects it (log 10). -/
  | notSelected (mnemonic : String)
  /-- `writeCode(v, w)` with `v >= 2^w` (R79, I8): raised by `writeCode` and the operations that emit a code. Safe: the encoder never
  makes such a call (R90, log 13). -/
  | codeTooWide
  /-- The predictor's operand conditions fail (R119, R121): `W = 0`, or forward with a length that is no multiple of `W`:
  raised by the predictor operations. Safe: START checks them (R127, log 18). -/
  | predictorGeometry
  /-- `START` while BUSY (R126, D16, I7): raised by `START`. Safe (log 12). -/
  | startWhileBusy
  /-- A host write while BUSY (R33, R47, D16, I7): raised by the host actions. Safe (log 12). -/
  | hostWriteWhileBusy
deriving DecidableEq, Repr

/-- The state after power-on: `STAT`, `OUT_LEN`, `CFG` and `IN_LEN` as R154 says; the datapath registers, which R154 leaves
unspecified, at the values their own rules give for the start of an invocation (DESIGN CHOICE, log 2, unsafe). -/
def State.reset : State where
  maxInLen := Config.maxInLen
  cfg := { mode := .encode, pred := .none, roww := 0, explen := 0 }
  inLen := 0
  inBuf := []
  stat := { state := .idle, err := .none, errpos := 0 }
  outLen := 0
  outBuf := []
  enc :=
    { curv := false, cur := 0, nac := BitVec.ofNat 12 Config.firstLearned, dcnt := BitVec.ofNat 12 Config.firstLearned,
      emitted := false, width := .w9, dict := [], ipos := 0 }
  bw := { acc := 0, cnt := 0 }
  dec :=
    { nac := BitVec.ofNat 12 Config.firstLearned, width := .w9, table := [], prevv := false, prev := 0, prevseq := [],
      start := 0 }
  brPos := 0
  x := []
  phase := .lzw
  ret := .none
  host := []
  free := 0

/-! ## One update per field -/

def State.setCfg (s : State) (c : Cfg) : State := { s with cfg := c }
def State.setInLen (s : State) (n : Nat) : State := { s with inLen := n }
def State.setIn (s : State) (m : Memory) : State := { s with inBuf := m }
def State.setStat (s : State) (t : Stat) : State := { s with stat := t }
def State.setOutLen (s : State) (n : Nat) : State := { s with outLen := n }
def State.setOut (s : State) (m : Memory) : State := { s with outBuf := m }
def State.setEnc (s : State) (e : Enc) : State := { s with enc := e }
def State.setBw (s : State) (b : Bw) : State := { s with bw := b }
def State.setDec (s : State) (d : Dec) : State := { s with dec := d }
def State.setBrPos (s : State) (n : Nat) : State := { s with brPos := n }
def State.setX (s : State) (x : List Byte) : State := { s with x := x }
def State.setPhase (s : State) (p : Phase) : State := { s with phase := p }
def State.setRet (s : State) (r : Ret) : State := { s with ret := r }
def State.setHost (s : State) (h : List HostAct) : State := { s with host := h }
def State.setFree (s : State) (n : Nat) : State := { s with free := n }

end Sys2Proof.Machine
end

