-- ==== Sys2Proof/Machine/Ops.lean ====
section
/-! DEFINITION. The named operations over memory and registers, and taking a fault, as one shared operation. -/

namespace Sys2Proof.Machine

/-! ## Memory (R17, R43, log 6) -/

/-- Read the byte at an address. -/
def memRead : Memory → Nat → Byte
  | [], _ => unlistedByte
  | (k, v) :: m, a => if k = a then v else memRead m a

/-- The cell a byte is held in: none for the byte an unlisted address reads as. -/
def memCell (a : Nat) (b : Byte) : Memory :=
  if b = unlistedByte then [] else [(a, b)]

/-- Write a byte at an address, keeping the canonical form. -/
def memWrite : Memory → Nat → Byte → Memory
  | [], a, b => memCell a b
  | (k, v) :: m, a, b =>
    if a < k then memCell a b ++ (k, v) :: m
    else if a = k then memCell a b ++ m
    else (k, v) :: memWrite m a b

/-- Write consecutive bytes from an address, in increasing order. -/
def memWriteList (m : Memory) (a : Nat) : List Byte → Memory
  | [] => m
  | b :: bs => memWriteList (memWrite m a b) (a + 1) bs

/-- The canonical form: addresses strictly rising, no entry equal to what an unlisted address reads as. -/
abbrev Memory.wf (m : Memory) : Prop :=
  m.Pairwise (fun c d => c.1 < d.1) ∧ ∀ c ∈ m, c.2 ≠ unlistedByte

/-- The bytes `IN[0..IN_LEN)`. -/
def inBytes (s : State) : List Byte :=
  (List.range s.inLen).map (memRead s.inBuf)

/-- The bytes `OUT[0..OUT_LEN)`. -/
def outBytes (s : State) : List Byte :=
  (List.range s.outLen).map (memRead s.outBuf)

/-- `OutAppend(b)` (R17): `MemWrite(OUT, OUT_LEN, 1, b); OUT_LEN <- OUT_LEN + 1`. -/
def outAppend (b : Byte) (s : State) : State :=
  (s.setOut (memWrite s.outBuf s.outLen b)).setOutLen (s.outLen + 1)

/-- Append a sequence, byte by byte (R105). -/
def outAppendAll (seq : List Byte) (s : State) : State :=
  seq.foldl (fun t b => outAppend b t) s

/-! ## The status record (R35, R138) -/

/-- The 2 bits of `STAT.STATE` (R35). -/
def RunState.code : RunState → BitVec 2
  | .idle => 0
  | .busy => 1
  | .done => 2
  | .error => 3

/-- The 3 bits of `STAT.ERR` (R138). -/
def ErrKind.code : ErrKind → BitVec 3
  | .none => 0
  | .unexpectedEndOfStream => 1
  | .invalidCodeError => 2
  | .dictionaryOverflowWithoutClear => 3
  | .outputOverrun => 4
  | .configError => 5

/-- The 1 bit of `CFG.MODE` (R33). -/
def Mode.code : Mode → BitVec 1
  | .encode => 0
  | .decode => 1

/-- The 1 bit of `CFG.PRED` (R33). -/
def Pred.code : Pred → BitVec 1
  | .none => 0
  | .horizontal => 1

/-- `STAT.STATE <- r`. -/
def setRunState (r : RunState) (s : State) : State :=
  s.setStat { s.stat with state := r }

/-! ## Taking a fault (R139) -/

/-- The contents of `OUT` become unspecified (R141, I2): a free value (log 3), in canonical form. -/
def forgetOut (s : State) : State :=
  (s.setOut (memWriteList [] 0 (Config.freeBytes s.free))).setFree (s.free + 1)

/-- `raise Fault(kind, pos)` (R139): the only way a fault of the block is taken. There is no handler and no return (R137,
R145): the invocation takes no further step. -/
def raiseFault (kind : ErrKind) (pos : Nat) (s : State) : State :=
  (forgetOut (s.setStat { state := .error, err := kind, errpos := pos })).setOutLen 0

/-! ## The host's read (R126, R132) -/

/-- What the host reads as the result (R52, R132): the output bytes in DONE; nothing before it, and nothing in ERROR. -/
def hostResult (s : State) : Option (List Byte) :=
  if s.stat.state = .done then some (outBytes s) else none

end Sys2Proof.Machine
end

