-- ==== Sys2Proof/Machine/Flags.lean ====
section
/-! DEFINITION. The one-bit status registers and the counters they gate (R36: the block has no condition codes). -/

namespace Sys2Proof.Machine

/-- The decoder-count mirror after a code is written (R89): the first data code of a session sets `E.EMITTED`, every later
one advances `E.DCNT`, a control code does neither; `E.WIDTH` follows in the same step (R23). -/
def advanceMirror (c : Code) (s : State) : State :=
  if c.toNat = Config.clear ∨ c.toNat = Config.eoi then
    s.setEnc { s.enc with width := Wd s.enc.dcnt.toNat }
  else if s.enc.emitted then
    s.setEnc { s.enc with dcnt := s.enc.dcnt + 1, width := Wd (s.enc.dcnt + 1).toNat }
  else
    s.setEnc { s.enc with emitted := true, width := Wd s.enc.dcnt.toNat }

/-- `D.PREV <- c; D.PREVSEQ <- seq; D.PREVV <- 1` (R105). -/
def setPrev (c : Code) (seq : List Byte) (s : State) : State :=
  s.setDec { s.dec with prev := c, prevseq := seq, prevv := true }

end Sys2Proof.Machine
end

