-- ==== Sys2Proof/Machine/Operands.lean ====
section
/-! DEFINITION. Where the operations' operands come from: the dictionary, the table, the input byte, the width. -/

namespace Sys2Proof.Machine

/-- The entry's key is `(p, b)` (R24). -/
def hasKey (p : Code) (b : Byte) (e : DictEntry) : Bool :=
  e.pre == p && e.byte == b

/-- `lookup(p, b)` (R87): the code of the key `(p, b)` in `E.DICT`, none for a miss. -/
def dictFind (d : List DictEntry) (p : Code) (b : Byte) : Option Code :=
  (d.find? (hasKey p b)).map (·.code)

/-- `E.DICT[(p, b) := k]` (R16, R88): the map updated at the key (log 21), the newest entry last. -/
def dictSet (d : List DictEntry) (p : Code) (b : Byte) (k : Code) : List DictEntry :=
  d.filter (fun e => !hasKey p b e) ++ [{ pre := p, byte := b, code := k }]

/-- The learned part of `D.TABLE` at a code (R30). -/
def tableFind (t : List TableEntry) (c : Code) : Option (List Byte) :=
  (t.find? fun e => e.code == c).map (·.seq)

/-- `D.TABLE[c := seq]` (R16, R105): the map updated at the code, the newest entry last. -/
def tableSet (t : List TableEntry) (c : Code) (seq : List Byte) : List TableEntry :=
  t.filter (fun e => !(e.code == c)) ++ [{ code := c, seq := seq }]

/-- `D.TABLE(c)` (R30): `[c]` for a literal, the learned entry otherwise; 256 and 257 have none. -/
def tableSeq (t : List TableEntry) (c : Code) : Option (List Byte) :=
  if c.toNat < Config.clear then some [c.setWidth 8] else tableFind t c

/-- The input byte `x[E.IPOS]` of an encoder byte step (R91 to R94). -/
def inputByte (s : State) : Option Byte :=
  s.x[s.enc.ipos]?

/-- `E.WIDTH`, the width of the next code the encoder writes: `Wd(E.DCNT)` (R10, R23, R89). -/
def encWidth (s : State) : Width :=
  Wd s.enc.dcnt.toNat

/-- `D.WIDTH`, the width of the next code the decoder reads: `Wd(D.NAC)` (R10, R31, R103). -/
def decWidth (s : State) : Width :=
  Wd s.dec.nac.toNat

/-- The byte a literal code stands for, zero-extended to a code (R63). -/
def literalCode (b : Byte) : Code :=
  b.setWidth 12

end Sys2Proof.Machine
end

