-- ==== Sys2Proof/Machine/BitStream.lean ====
section
/-! DEFINITION. The bit-stream packer and unpacker (40_bitstream.md): writeCode, flush, readCode. -/

namespace Sys2Proof.Machine

/-! ## Packer -/

/-- One bit into the writer (the body of R79's loop): a full byte leaves the buffer at once. -/
def writeBit (s : State) (bit : Bool) : State :=
  let acc := s.bw.acc.toNat * 2 + bit.toNat
  if s.bw.cnt.toNat + 1 = 8 then
    (outAppend (BitVec.ofNat 8 acc) s).setBw { acc := 0, cnt := 0 }
  else
    s.setBw { acc := BitVec.ofNat 7 acc, cnt := s.bw.cnt + 1 }

/-- `writeCode(v, w)` (R79): the `w` bits of `v`, most significant first. -/
def writeCodeBits (v : Code) (w : Width) (s : State) : State :=
  (codeBits w.bits v.toNat).foldl writeBit s

/-- `flush()` (R81): the final partial byte padded with zero bits; nothing when there is none (D10). -/
def flushBits (s : State) : State :=
  if 0 < s.bw.cnt.toNat then
    (outAppend (BitVec.ofNat 8 (s.bw.acc.toNat * 2 ^ (8 - s.bw.cnt.toNat))) s).setBw { acc := 0, cnt := 0 }
  else s

/-- `writeCode`'s precondition `v < 2^w` (R79). -/
def codeFits (v : Code) (w : Width) : Bool :=
  decide (v.toNat < 2 ^ w.bits)

/-- `writeCode` (R79). A call with `v >= 2^w` is refused (I8, log 13). -/
def execWriteCode (v : Code) (w : Width) (s : State) : Host.Outcome State Fault Refusal :=
  if codeFits v w then .next (writeCodeBits v w s) else .refused .codeTooWide

/-- `flush` (R81). -/
def execFlush (s : State) : Host.Outcome State Fault Refusal :=
  .next (flushBits s)

/-! ## Unpacker -/

/-- `readCode(w)` (R83): the code and the state after it, or, with fewer than `w` bits left, the state after the fault
`UnexpectedEndOfStream` at the cursor, no bit consumed. The code is also the value returned (log 7). -/
def readBits (w : Width) (s : State) : Except State (Code × State) :=
  if 8 * s.inLen - s.brPos < w.bits then
    .error (raiseFault .unexpectedEndOfStream s.brPos s)
  else
    let c := BitVec.ofNat 12 (codeAt (memRead s.inBuf) s.brPos w.bits)
    .ok (c, (s.setBrPos (s.brPos + w.bits)).setRet (.code c))

/-- `readCode` (R83). -/
def execReadCode (w : Width) (s : State) : Host.Outcome State Fault Refusal :=
  match readBits w s with
  | .ok (_, t) => .next t
  | .error t => .next t

end Sys2Proof.Machine
end

