-- ==== Sys2Proof/Machine/Decoder.lean ====
section
/-! DEFINITION. The LZW dictionary decoder (42_decoder.md). -/

namespace Sys2Proof.Machine

/-- `D.reset()` (R102): the table seeded only, the counters at the start of a session, no previous code; `D.PREV` and
`D.PREVSEQ` become unspecified (free values, log 3). -/
def decReset (s : State) : State :=
  (s.setDec
    { s.dec with
      table := [], nac := BitVec.ofNat 12 Config.firstLearned, width := Wd Config.firstLearned, prevv := false,
      prev := Config.freeCode s.free, prevseq := Config.freeBytes s.free }).setFree (s.free + 1)

/-- `DEC.FETCH` (R103): `start <- BR.POS; c <- readCode(Wd(D.NAC))`. -/
def decFetch (s : State) : Except State (Code × State) :=
  readBits (decWidth s) (s.setDec { s.dec with start := s.brPos })

/-- The insertion of a data code (R105, R114): `D.PREVSEQ ++ [h]` at `D.NAC`, which advances by one, and the width with it. -/
def insertTable (h : Byte) (s : State) : State :=
  s.setDec
    { s.dec with
      table := tableSet s.dec.table s.dec.nac (s.dec.prevseq ++ [h]), nac := s.dec.nac + 1,
      width := Wd (s.dec.nac + 1).toNat }

/-- `DATA(c, seq)` (R105), the common tail of a data code: the overflow check (R107), the capacity check (R106), the append,
the insertion (R114), the previous code. -/
def dataTail (c : Code) (seq : List Byte) (s : State) : Host.Outcome State Fault Refusal :=
  if s.dec.prevv && s.dec.nac.toNat == Config.nacLimit then
    .next (raiseFault .dictionaryOverflowWithoutClear s.dec.start s)
  else if s.cfg.explen < s.outLen + seq.length then
    .next (raiseFault .outputOverrun s.dec.start s)
  else if s.dec.prevv then
    match seq with
    | [] => .fault .emptySequence
    | h :: _ => .next (setPrev c seq (insertTable h (outAppendAll seq s)))
  else .next (setPrev c seq (outAppendAll seq s))

/-! ## Class arms -/

/-- `LIT` (R111). -/
def litArm (b : Byte) (s : State) : Host.Outcome State Fault Refusal :=
  dataTail (literalCode b) [b] s

/-- `CLR` (R108). -/
def clrArm (s : State) : Host.Outcome State Fault Refusal :=
  .next (decReset s)

/-- `EOI` (R109, R131): the LZW pass ends; with the predictor on and output to transform, the inverse pass comes next, and
DONE after it (log 9). -/
def eoiArm (s : State) : Host.Outcome State Fault Refusal :=
  if s.cfg.pred = .horizontal ∧ 0 < s.outLen then .next (s.setPhase (.inv 0))
  else .next (setRunState .done s)

/-- `DICT` (R112): selected when `258 <= c < D.NAC`. -/
def dictArm (c : Code) (s : State) : Host.Outcome State Fault Refusal :=
  if Config.firstLearned ≤ c.toNat ∧ c.toNat < s.dec.nac.toNat then
    match tableSeq s.dec.table c with
    | some seq => dataTail c seq s
    | none => .fault .tableEntryMissing
  else .refused (.notSelected "DICT")

/-- `KWK` (R113): selected when `c = D.NAC` and `D.PREVV = 1`. -/
def kwkArm (c : Code) (s : State) : Host.Outcome State Fault Refusal :=
  if c = s.dec.nac ∧ s.dec.prevv = true then
    match s.dec.prevseq with
    | [] => .fault .emptySequence
    | h :: t => dataTail c ((h :: t) ++ [h]) s
  else .refused (.notSelected "KWK")

/-- `INV` (R110): selected when `c` is neither 256 nor 257 and `c > D.NAC`, or `c = D.NAC` and `D.PREVV = 0`. -/
def invArm (c : Code) (s : State) : Host.Outcome State Fault Refusal :=
  if classify s.dec.nac.toNat s.dec.prevv c.toNat = .inv then
    .next (raiseFault .invalidCodeError s.dec.start s)
  else .refused (.notSelected "INV")

/-- The arm of a class (R104). -/
def runClass (k : CodeClass) (c : Code) (s : State) : Host.Outcome State Fault Refusal :=
  match k with
  | .clr => clrArm s
  | .eoi => eoiArm s
  | .inv => invArm c s
  | .lit => litArm (c.setWidth 8) s
  | .dict => dictArm c s
  | .kwk => kwkArm c s

/-- One decoder step (R103, R104): the fetch, then exactly one class arm. -/
def decStep (s : State) : Host.Outcome State Fault Refusal :=
  match decFetch s with
  | .ok (c, t) => runClass (classify s.dec.nac.toNat s.dec.prevv c.toNat) c t
  | .error t => .next t

/-- The LZW pass is running: no `EOI` and no fault has ended it. -/
def decRunning (s : State) : Bool :=
  s.stat.state == .busy && s.phase == .lzw

/-- The code loop (R115): until an `EOI` arm or a fault ends it, at most `k` fetches. -/
def decLoop : Nat → State → Host.Outcome State Fault Refusal
  | 0, s => .next s
  | k + 1, s =>
    match decStep s with
    | .next t => if decRunning t then decLoop k t else .next t
    | .fault f => .fault f
    | .refused r => .refused r

/-! ## The meanings -/

/-- `LIT` in `CODE9` (R111). -/
def execLit9 (b : Byte) (s : State) : Host.Outcome State Fault Refusal := litArm b s
/-- `LIT` in `CODE10` (R111). -/
def execLit10 (b : Byte) (s : State) : Host.Outcome State Fault Refusal := litArm b s
/-- `LIT` in `CODE11` (R111). -/
def execLit11 (b : Byte) (s : State) : Host.Outcome State Fault Refusal := litArm b s
/-- `LIT` in `CODE12` (R111). -/
def execLit12 (b : Byte) (s : State) : Host.Outcome State Fault Refusal := litArm b s
/-- `CLR` in `CODE9` (R108). -/
def execClr9 (s : State) : Host.Outcome State Fault Refusal := clrArm s
/-- `CLR` in `CODE10` (R108). -/
def execClr10 (s : State) : Host.Outcome State Fault Refusal := clrArm s
/-- `CLR` in `CODE11` (R108). -/
def execClr11 (s : State) : Host.Outcome State Fault Refusal := clrArm s
/-- `CLR` in `CODE12` (R108). -/
def execClr12 (s : State) : Host.Outcome State Fault Refusal := clrArm s
/-- `EOI` in `CODE9` (R109). -/
def execEoi9 (s : State) : Host.Outcome State Fault Refusal := eoiArm s
/-- `EOI` in `CODE10` (R109). -/
def execEoi10 (s : State) : Host.Outcome State Fault Refusal := eoiArm s
/-- `EOI` in `CODE11` (R109). -/
def execEoi11 (s : State) : Host.Outcome State Fault Refusal := eoiArm s
/-- `EOI` in `CODE12` (R109). -/
def execEoi12 (s : State) : Host.Outcome State Fault Refusal := eoiArm s
/-- `DICT` in `CODE9` (R112), the code zero-extended (R63). -/
def execDict9 (c : BitVec 9) (s : State) : Host.Outcome State Fault Refusal := dictArm (c.setWidth 12) s
/-- `DICT` in `CODE10` (R112). -/
def execDict10 (c : BitVec 10) (s : State) : Host.Outcome State Fault Refusal := dictArm (c.setWidth 12) s
/-- `DICT` in `CODE11` (R112). -/
def execDict11 (c : BitVec 11) (s : State) : Host.Outcome State Fault Refusal := dictArm (c.setWidth 12) s
/-- `DICT` in `CODE12` (R112). -/
def execDict12 (c : BitVec 12) (s : State) : Host.Outcome State Fault Refusal := dictArm c s
/-- `KWK` in `CODE9` (R113), the code zero-extended (R63). -/
def execKwk9 (c : BitVec 9) (s : State) : Host.Outcome State Fault Refusal := kwkArm (c.setWidth 12) s
/-- `KWK` in `CODE10` (R113). -/
def execKwk10 (c : BitVec 10) (s : State) : Host.Outcome State Fault Refusal := kwkArm (c.setWidth 12) s
/-- `KWK` in `CODE11` (R113). -/
def execKwk11 (c : BitVec 11) (s : State) : Host.Outcome State Fault Refusal := kwkArm (c.setWidth 12) s
/-- `KWK` in `CODE12` (R113). -/
def execKwk12 (c : BitVec 12) (s : State) : Host.Outcome State Fault Refusal := kwkArm c s
/-- `INV` in `CODE9` (R110), the code zero-extended (R63). -/
def execInv9 (c : BitVec 9) (s : State) : Host.Outcome State Fault Refusal := invArm (c.setWidth 12) s
/-- `INV` in `CODE10` (R110). -/
def execInv10 (c : BitVec 10) (s : State) : Host.Outcome State Fault Refusal := invArm (c.setWidth 12) s
/-- `INV` in `CODE11` (R110). -/
def execInv11 (c : BitVec 11) (s : State) : Host.Outcome State Fault Refusal := invArm (c.setWidth 12) s
/-- `INV` in `CODE12` (R110). -/
def execInv12 (c : BitVec 12) (s : State) : Host.Outcome State Fault Refusal := invArm c s

/-- `D.reset` (R102). -/
def execDReset (s : State) : Host.Outcome State Fault Refusal :=
  .next (decReset s)

/-- `DEC.FETCH` (R103): the code is the value returned (log 7). -/
def execDecFetch (s : State) : Host.Outcome State Fault Refusal :=
  match decFetch s with
  | .ok (_, t) => .next t
  | .error t => .next t

/-- `DATA` (R105). -/
def execData (c : Code) (seq : List Byte) (s : State) : Host.Outcome State Fault Refusal :=
  dataTail c seq s

end Sys2Proof.Machine
end

