-- ==== Sys2Proof/Machine/Encoder.lean ====
section
/-! DEFINITION. The LZW dictionary encoder (41_encoder.md). -/

namespace Sys2Proof.Machine

/-! ## EncodeDictionary operations -/

/-- `reset()` (R86): the dictionary empty, the counters and the width at the start of a session. -/
def encReset (s : State) : State :=
  s.setEnc
    { s.enc with
      dict := [], nac := BitVec.ofNat 12 Config.firstLearned, dcnt := BitVec.ofNat 12 Config.firstLearned,
      emitted := false, width := Wd Config.firstLearned }

/-- `E.NAC = 4094`: the table is full (R22, R88). -/
def dictFull (s : State) : Bool :=
  s.enc.nac.toNat == Config.nacLimit

/-- `insert(p, b)` (R88): the next code assigned, or nothing when the table is full. -/
def insertEntry (p : Code) (b : Byte) (s : State) : State :=
  if dictFull s then s
  else s.setEnc { s.enc with dict := dictSet s.enc.dict p b s.enc.nac, nac := s.enc.nac + 1 }

/-- What `lookup` returns (R87). -/
def lookupRet (d : List DictEntry) (p : Code) (b : Byte) : Ret :=
  match dictFind d p b with
  | some k => .hit k
  | none => .miss

/-- What `insert` returns (R88). -/
def insertRet (s : State) : Ret :=
  if dictFull s then .full else .assigned s.enc.nac

/-- `reset` (R86). -/
def execReset (s : State) : Host.Outcome State Fault Refusal :=
  .next (encReset s)

/-- `lookup` (R87): no register of the block is written; the answer is the value returned (log 7). -/
def execLookup (p : Code) (b : Byte) (s : State) : Host.Outcome State Fault Refusal :=
  .next (s.setRet (lookupRet s.enc.dict p b))

/-- `insert` (R88). -/
def execInsert (p : Code) (b : Byte) (s : State) : Host.Outcome State Fault Refusal :=
  .next ((insertEntry p b s).setRet (insertRet s))

/-! ## Code emission -/

/-- `emitCode(c)` (R89): the code at the width in force before it, then the decoder-count mirror. -/
def emit (c : Code) (s : State) : State :=
  advanceMirror c (writeCodeBits c (encWidth s) s)

/-- `emitCode` (R89). A code that does not fit the width breaks `writeCode`'s precondition (R79, I8, log 13). -/
def execEmitCode (c : Code) (s : State) : Host.Outcome State Fault Refusal :=
  if codeFits c (encWidth s) then .next (emit c s) else .refused .codeTooWide

/-! ## Byte steps -/

/-- The common part of R91 to R94: a byte step needs `E.IPOS < IN_LEN` and its byte `x[E.IPOS]`. -/
def byteStep (name : String) (s : State) (f : Byte → Host.Outcome State Fault Refusal) :
    Host.Outcome State Fault Refusal :=
  if s.enc.ipos < s.inLen then
    match inputByte s with
    | some b => f b
    | none => .fault .inputByteMissing
  else .refused (.notSelected name)

/-- `E.CUR <- k; E.IPOS <- E.IPOS + 1`. -/
def advanceMatch (k : Code) (s : State) : State :=
  s.setEnc { s.enc with cur := k, ipos := s.enc.ipos + 1 }

/-- `ENC.FIRST` (R91): selected when `E.CURV = 0`. -/
def execEncFirst (s : State) : Host.Outcome State Fault Refusal :=
  byteStep "ENC.FIRST" s fun b =>
    if s.enc.curv then .refused (.notSelected "ENC.FIRST")
    else .next (advanceMatch (literalCode b) (s.setEnc { s.enc with curv := true }))

/-- `ENC.HIT` (R92): selected when `E.CURV = 1` and the candidate is known. -/
def execEncHit (s : State) : Host.Outcome State Fault Refusal :=
  byteStep "ENC.HIT" s fun b =>
    match s.enc.curv, dictFind s.enc.dict s.enc.cur b with
    | true, some k => .next (advanceMatch k s)
    | _, _ => .refused (.notSelected "ENC.HIT")

/-- `ENC.MISS` (R93): selected when `E.CURV = 1`, the candidate is unknown and `E.NAC < 4094`. The code is emitted before
the insert. -/
def execEncMiss (s : State) : Host.Outcome State Fault Refusal :=
  byteStep "ENC.MISS" s fun b =>
    match s.enc.curv, dictFind s.enc.dict s.enc.cur b with
    | true, none =>
      if s.enc.nac.toNat < Config.nacLimit then
        if codeFits s.enc.cur (encWidth s) then
          .next (advanceMatch (literalCode b) (insertEntry s.enc.cur b (emit s.enc.cur s)))
        else .refused .codeTooWide
      else .refused (.notSelected "ENC.MISS")
    | _, _ => .refused (.notSelected "ENC.MISS")

/-- `ENC.MISS_FULL` (R94): selected when `E.CURV = 1`, the candidate is unknown and `E.NAC = 4094`. The insert is a no-op. -/
def execEncMissFull (s : State) : Host.Outcome State Fault Refusal :=
  byteStep "ENC.MISS_FULL" s fun b =>
    match s.enc.curv, dictFind s.enc.dict s.enc.cur b with
    | true, none =>
      if dictFull s then
        if codeFits s.enc.cur (encWidth s) then
          .next
            (advanceMatch (literalCode b)
              (encReset (emit (BitVec.ofNat 12 Config.clear) (insertEntry s.enc.cur b (emit s.enc.cur s)))))
        else .refused .codeTooWide
      else .refused (.notSelected "ENC.MISS_FULL")
    | _, _ => .refused (.notSelected "ENC.MISS_FULL")

/-- The last codes of R96: whatever the matched sequence is, then `EOI`, then the flush. -/
def finishStream (s : State) : State :=
  flushBits (emit (BitVec.ofNat 12 Config.eoi) (if s.enc.curv then emit s.enc.cur s else s))

/-- `ENC.FINISH` (R96, R129): selected when `E.IPOS = IN_LEN`. -/
def execEncFinish (s : State) : Host.Outcome State Fault Refusal :=
  if s.enc.ipos = s.inLen then
    if s.enc.curv && !codeFits s.enc.cur (encWidth s) then .refused .codeTooWide
    else .next (setRunState .done (finishStream s))
  else .refused (.notSelected "ENC.FINISH")

/-! ## Which operation runs (R95) -/

/-- The encoder's steps. -/
inductive EncOp where
  | first
  | hit
  | miss
  | missFull
  | finish
deriving DecidableEq, Repr

/-- The step the encoder's state selects (R91 to R96). -/
def encSelect (s : State) : EncOp :=
  if s.enc.ipos < s.inLen then
    if s.enc.curv then
      match dictFind s.enc.dict s.enc.cur ((inputByte s).getD unlistedByte) with
      | some _ => .hit
      | none => if dictFull s then .missFull else .miss
    else .first
  else .finish

/-- The instruction of an encoder step. -/
def encInstr : EncOp → Instr
  | .first => .encFirst
  | .hit => .encHit
  | .miss => .encMiss
  | .missFull => .encMissFull
  | .finish => .encFinish

/-- Run an encoder step. -/
def runEnc (o : EncOp) (s : State) : Host.Outcome State Fault Refusal :=
  match o with
  | .first => execEncFirst s
  | .hit => execEncHit s
  | .miss => execEncMiss s
  | .missFull => execEncMissFull s
  | .finish => execEncFinish s

/-- The byte loop (R95): `k` byte steps, then `ENC.FINISH` once. -/
def encLoop : Nat → State → Host.Outcome State Fault Refusal
  | 0, s => execEncFinish s
  | k + 1, s =>
    match runEnc (encSelect s) s with
    | .next t => encLoop k t
    | .fault f => .fault f
    | .refused r => .refused r

end Sys2Proof.Machine
end

