-- ==== Sys2Proof/Machine/Predictor.lean ====
section
/-! DEFINITION. The horizontal-differencing predictor (43_predictor.md): samples are bytes, the stride is one (R120). -/

namespace Sys2Proof.Machine

/-! ## One row -/

/-- The differences of a row after the sample `p` (R119): each uses the original samples, modulo 256. -/
def diffFrom (p : Byte) : List Byte → List Byte
  | [] => []
  | b :: bs => (b - p) :: diffFrom b bs

/-- Forward differencing of a row (R119): sample 0 is unchanged. -/
def diffRow : List Byte → List Byte
  | [] => []
  | b :: bs => b :: diffFrom b bs

/-- The sums of a row after the reconstructed sample `p` (R122), modulo 256. -/
def sumFrom (p : Byte) : List Byte → List Byte
  | [] => []
  | d :: ds => (p + d) :: sumFrom (p + d) ds

/-- Inverse differencing of a row (R122): sample 0 is unchanged. -/
def sumRow : List Byte → List Byte
  | [] => []
  | d :: ds => d :: sumFrom d ds

/-- `n` bytes of a buffer from an address. -/
def rowBytes (m : Memory) (a n : Nat) : List Byte :=
  (List.range n).map fun i => memRead m (a + i)

/-- Row `r` of the forward pass (R119, R121): bytes `r*W .. r*W + W - 1` of `IN` into `x`. -/
def fwdRow (r : Nat) (s : State) : State :=
  s.setX (s.x.take (r * s.cfg.roww) ++ diffRow (rowBytes s.inBuf (r * s.cfg.roww) s.cfg.roww))

/-- Row `r` of the inverse pass (R122): in place in `OUT`, an incomplete last row as far as it goes (R121, D14). -/
def invRow (r : Nat) (s : State) : State :=
  s.setOut
    (memWriteList s.outBuf (r * s.cfg.roww)
      (sumRow (rowBytes s.outBuf (r * s.cfg.roww) (min s.cfg.roww (s.outLen - r * s.cfg.roww)))))

/-! ## Whole buffers -/

/-- The number of rows of the output: `ceil(N / W)` (R122). -/
def invRows (s : State) : Nat :=
  (s.outLen + s.cfg.roww - 1) / s.cfg.roww

/-- `HD.FWD` on `IN` (R119): every row, then the LZW pass (R128). -/
def fwdAll (s : State) : State :=
  ((List.range (s.inLen / s.cfg.roww)).foldl (fun t r => fwdRow r t) (s.setX [])).setPhase .lzw

/-- `HD.INV` on `OUT` (R122): every row. -/
def invAll (s : State) : State :=
  (List.range (invRows s)).foldl (fun t r => invRow r t) s

/-- `PRED.NONE` (R123): the encoder consumes `x = IN`; the decoder's output is delivered as it is. -/
def predIdentity (s : State) : State :=
  match s.cfg.mode with
  | .encode => s.setX (inBytes s)
  | .decode => s

/-- `HD.FWD`'s operand conditions (R119): `W >= 1` and whole rows. -/
def fwdGeometry (s : State) : Bool :=
  0 < s.cfg.roww && s.inLen % s.cfg.roww == 0

/-- `HD.FWD` (R119). -/
def execHdFwd (s : State) : Host.Outcome State Fault Refusal :=
  if fwdGeometry s then .next (fwdAll s) else .refused .predictorGeometry

/-- `HD.INV` (R122). -/
def execHdInv (s : State) : Host.Outcome State Fault Refusal :=
  if 0 < s.cfg.roww then .next (invAll s) else .refused .predictorGeometry

/-- `PRED.NONE` (R123). -/
def execPredNone (s : State) : Host.Outcome State Fault Refusal :=
  .next (predIdentity s)

/-! ## One predictor step transforms one row (R11) -/

/-- The step of `HD.FWD` at row `r`: the row, then the next one, or the LZW pass after the last. -/
def fwdStep (r : Nat) (s : State) : Host.Outcome State Fault Refusal :=
  if fwdGeometry s then
    .next ((fwdRow r s).setPhase (if (r + 1) * s.cfg.roww < s.inLen then .fwd (r + 1) else .lzw))
  else .refused .predictorGeometry

/-- The step of `HD.INV` at row `r`: the row, then the next one, or DONE after the last (R131). -/
def invStep (r : Nat) (s : State) : Host.Outcome State Fault Refusal :=
  if 0 < s.cfg.roww then
    if (r + 1) * s.cfg.roww < s.outLen then .next ((invRow r s).setPhase (.inv (r + 1)))
    else .next (setRunState .done ((invRow r s).setPhase .lzw))
  else .refused .predictorGeometry

end Sys2Proof.Machine
end

