-- ==== Sys2Proof/Machine/Invocation.lean ====
section
/-! DEFINITION. Invocation and host interface (44_invocation.md): START, ENCODE, DECODE and the host's actions. -/

namespace Sys2Proof.Machine

/-! ## START -/

/-- `START` before the invocation reset (R127): BUSY, no error, no output. -/
def clearStatus (s : State) : State :=
  (s.setStat { state := .busy, err := .none, errpos := 0 }).setOutLen 0

/-- The invocation reset of the encoder's datapath (R155): `reset()`, `E.CURV`, `E.IPOS`, the packer; `E.CUR` is unspecified
(R156, a free value, log 3). -/
def encBegin (s : State) : State :=
  let t := (encReset s).setBw { acc := 0, cnt := 0 }
  (t.setEnc { t.enc with curv := false, ipos := 0, cur := Config.freeCode s.free }).setFree (s.free + 1)

/-- The invocation reset of the decoder's datapath (R155, R130): `D.reset()` and `BR.POS`. -/
def decBegin (s : State) : State :=
  (decReset s).setBrPos 0

/-- The invocation reset of the selected mode's datapath (R155). -/
def invocationReset (s : State) : State :=
  match s.cfg.mode with
  | .encode => encBegin s
  | .decode => decBegin s

/-- The illegal configurations (R127). -/
def configBad (s : State) : Bool :=
  decide (s.maxInLen < s.inLen)
    || (s.cfg.mode == .decode && decide (s.maxInLen < s.cfg.explen))
    || (s.cfg.pred == .horizontal && s.cfg.roww == 0)
    || (s.cfg.pred == .horizontal && s.cfg.mode == .encode && !(s.inLen % s.cfg.roww == 0))
    || (s.cfg.pred == .horizontal && s.cfg.mode == .decode && !(s.cfg.explen % s.cfg.roww == 0))

/-- Where the selected operation begins (R128, R130, R157): with the predictor off or nothing to transform, at the LZW pass;
else, in encode mode, at the first row of `HD.FWD`. -/
def enterPass (s : State) : State :=
  match s.cfg.mode, s.cfg.pred with
  | .encode, .none => (predIdentity s).setPhase .lzw
  | .encode, .horizontal => (s.setX []).setPhase (if s.inLen = 0 then .lzw else .fwd 0)
  | .decode, _ => s.setPhase .lzw

/-- `START` accepted (R127): the status, the invocation reset, the checks in that order; then the operation runs, one step at
a time (R11, log 8). -/
def startInvocation (s : State) : State :=
  let t := invocationReset (clearStatus s)
  if configBad t then raiseFault .configError 0 t else enterPass t

/-- `START` (R127). While BUSY it is a host action that breaks a duty (R126, D16): refused (I7, log 12). -/
def execStart (s : State) : Host.Outcome State Fault Refusal :=
  if s.stat.state = .busy then .refused .startWhileBusy else .next (startInvocation s)

/-! ## ENCODE and DECODE as whole commands -/

/-- The predictor's part of R128: `x` from `IN`. -/
def forwardPass (s : State) : Host.Outcome State Fault Refusal :=
  match s.cfg.pred with
  | .none => .next ((predIdentity s).setPhase .lzw)
  | .horizontal => execHdFwd s

/-- `ENCODE` (R128), a started invocation run to its end: the predictor, the byte loop, `ENC.FINISH` (log 8). -/
def execEncode (s : State) : Host.Outcome State Fault Refusal :=
  if s.cfg.mode = .encode ∧ s.stat.state = .busy then
    match forwardPass s with
    | .next t => encLoop (t.inLen - t.enc.ipos) t
    | .fault f => .fault f
    | .refused r => .refused r
  else .refused (.notSelected "ENCODE")

/-- The end of a decode (R131): after an `EOI` with the inverse pass to come, `HD.INV` and DONE. -/
def decodeFinish (s : State) : Host.Outcome State Fault Refusal :=
  match s.phase with
  | .inv _ =>
    if 0 < s.cfg.roww then .next (setRunState .done ((invAll s).setPhase .lzw)) else .refused .predictorGeometry
  | .lzw => .next s
  | .fwd _ => .next s

/-- The most fetches a decode makes (R115): `floor(8 * IN_LEN / 9) + 1`. -/
def maxFetches (s : State) : Nat :=
  8 * s.inLen / 9 + 1

/-- `DECODE` (R130), a started invocation run to its end: `D.reset()`, `BR.POS <- 0`, the code loop, the completion of R131
(log 8). -/
def execDecode (s : State) : Host.Outcome State Fault Refusal :=
  if s.cfg.mode = .decode ∧ s.stat.state = .busy then
    match decLoop (maxFetches s) ((decBegin s).setPhase .lzw) with
    | .next t => decodeFinish t
    | .fault f => .fault f
    | .refused r => .refused r
  else .refused (.notSelected "DECODE")

/-! ## The host (R126) -/

/-- A host write of a configuration field, of `IN` or of `IN_LEN` (R33, R126). -/
def hostWrite (a : HostAct) (s : State) : State :=
  match a with
  | .setMode m => s.setCfg { s.cfg with mode := m }
  | .setPred p => s.setCfg { s.cfg with pred := p }
  | .setRoww n => s.setCfg { s.cfg with roww := n }
  | .setExplen n => s.setCfg { s.cfg with explen := n }
  | .setInLen n => s.setInLen n
  | .writeIn i b => s.setIn (memWrite s.inBuf i b)
  | .start => s

/-- A host action (R126). While BUSY the host may do none (R47, R126, R158, I7): refused. -/
def hostAct (a : HostAct) (s : State) : Host.Outcome State Fault Refusal :=
  match a with
  | .start => execStart s
  | _ => if s.stat.state = .busy then .refused .hostWriteWhileBusy else .next (hostWrite a s)

/-- A step while not BUSY: the host's next action; with none left the block keeps its state (R153). -/
def hostStep (s : State) : Host.Outcome State Fault Refusal :=
  match s.host with
  | [] => .next s
  | a :: rest => hostAct a (s.setHost rest)

end Sys2Proof.Machine
end

