-- ==== Sys2Proof/Machine/Dispatch.lean ====
section
/-! DEFINITION. The dispatch: one arm per constructor of Instr, each a direct call of its meaning. -/

namespace Sys2Proof.Machine

def exec (i : Instr) (s : State) : Host.Outcome State Fault Refusal :=
  match i with
  | .lit9 b => Sys2Proof.Machine.execLit9 b s
  | .clr9 => Sys2Proof.Machine.execClr9 s
  | .eoi9 => Sys2Proof.Machine.execEoi9 s
  | .dict9 c => Sys2Proof.Machine.execDict9 c s
  | .kwk9 c => Sys2Proof.Machine.execKwk9 c s
  | .inv9 c => Sys2Proof.Machine.execInv9 c s
  | .lit10 b => Sys2Proof.Machine.execLit10 b s
  | .clr10 => Sys2Proof.Machine.execClr10 s
  | .eoi10 => Sys2Proof.Machine.execEoi10 s
  | .dict10 c => Sys2Proof.Machine.execDict10 c s
  | .kwk10 c => Sys2Proof.Machine.execKwk10 c s
  | .inv10 c => Sys2Proof.Machine.execInv10 c s
  | .lit11 b => Sys2Proof.Machine.execLit11 b s
  | .clr11 => Sys2Proof.Machine.execClr11 s
  | .eoi11 => Sys2Proof.Machine.execEoi11 s
  | .dict11 c => Sys2Proof.Machine.execDict11 c s
  | .kwk11 c => Sys2Proof.Machine.execKwk11 c s
  | .inv11 c => Sys2Proof.Machine.execInv11 c s
  | .lit12 b => Sys2Proof.Machine.execLit12 b s
  | .clr12 => Sys2Proof.Machine.execClr12 s
  | .eoi12 => Sys2Proof.Machine.execEoi12 s
  | .dict12 c => Sys2Proof.Machine.execDict12 c s
  | .kwk12 c => Sys2Proof.Machine.execKwk12 c s
  | .inv12 c => Sys2Proof.Machine.execInv12 c s
  | .start => Sys2Proof.Machine.execStart s
  | .encode => Sys2Proof.Machine.execEncode s
  | .decode => Sys2Proof.Machine.execDecode s
  | .writeCode v w => Sys2Proof.Machine.execWriteCode v w s
  | .flush => Sys2Proof.Machine.execFlush s
  | .readCode w => Sys2Proof.Machine.execReadCode w s
  | .reset => Sys2Proof.Machine.execReset s
  | .lookup p b => Sys2Proof.Machine.execLookup p b s
  | .insert p b => Sys2Proof.Machine.execInsert p b s
  | .emitCode c => Sys2Proof.Machine.execEmitCode c s
  | .encFirst => Sys2Proof.Machine.execEncFirst s
  | .encHit => Sys2Proof.Machine.execEncHit s
  | .encMiss => Sys2Proof.Machine.execEncMiss s
  | .encMissFull => Sys2Proof.Machine.execEncMissFull s
  | .encFinish => Sys2Proof.Machine.execEncFinish s
  | .dReset => Sys2Proof.Machine.execDReset s
  | .decFetch => Sys2Proof.Machine.execDecFetch s
  | .data c seq => Sys2Proof.Machine.execData c seq s
  | .hdFwd => Sys2Proof.Machine.execHdFwd s
  | .hdInv => Sys2Proof.Machine.execHdInv s
  | .predNone => Sys2Proof.Machine.execPredNone s

end Sys2Proof.Machine
end

