-- ==== Sys2Proof/Machine/Step.lean ====
section
/-! DEFINITION. One step of the machine, and the placing of a code where the next step fetches. -/

namespace Sys2Proof.Machine

/-- A step of a BUSY invocation (R11, R95, R104, R128, R130, R131): one row of the predictor, one byte or the finish of the
encoder, or one code of the decoder. -/
def busyStep (s : State) : Host.Outcome State Fault Refusal :=
  match s.phase, s.cfg.mode with
  | .fwd r, _ => fwdStep r s
  | .inv r, _ => invStep r s
  | .lzw, .encode => exec (encInstr (encSelect s)) s
  | .lzw, .decode =>
    match decFetch s with
    | .ok (c, t) => exec (decodeCode (decWidth s) s.dec.nac.toNat s.dec.prevv c) t
    | .error t => .next t

/-- One step (R11): a step of the running invocation, or the host's next action (R126), or nothing (R153). -/
def step (s : State) : Host.Outcome State Fault Refusal :=
  match s.stat.state with
  | .busy => busyStep s
  | .idle => hostStep s
  | .done => hostStep s
  | .error => hostStep s

/-- The decoder's registers in the state `Width.minCount` describes: the smallest table count with the width, and, above 258,
a previous code and learned entries as R30 and R40 ask for them (log 19). -/
def tableDec (w : Width) (d : Dec) : Dec :=
  { d with
    nac := BitVec.ofNat 12 w.minCount
    width := w
    prevv := w.hasPrev
    prev := 0
    prevseq := [0]
    table :=
      (List.range (w.minCount - Config.firstLearned)).map fun k =>
        { code := BitVec.ofNat 12 (Config.firstLearned + k), seq := [0, 0] } }

/-- `s` with the table's word as the next code: a decode invocation under way whose stream begins with it (log 19). -/
def State.withFetchWord (s : State) (nbits w : Nat) : State :=
  let bytes := tableBytes nbits w
  let t := (s.setStat { state := .busy, err := .none, errpos := 0 }).setPhase .lzw
  let t := t.setCfg { t.cfg with mode := .decode, explen := s.outLen + Config.nacLimit }
  let t := ((t.setIn (memWriteList [] 0 bytes)).setInLen bytes.length).setBrPos 0
  t.setDec (tableDec (tableWidth nbits w) t.dec)

end Sys2Proof.Machine
end

