-- ==== Sys2Proof/Safety.lean ====
section
/-! DEFINITION. The terms claims use: the invariants of the block (R39, R40), what an operation leaves unchanged, and the bits
of the output stream. -/

namespace Sys2Proof.Machine

/-! ## The output stream -/

/-- The bits written so far (R78): the whole bytes of `OUT`, then the `BW.CNT` pending bits of `BW.ACC` (R26). -/
def outBits (s : State) : List Bool :=
  streamBits (memRead s.outBuf) 0 (8 * s.outLen) ++ codeBits s.bw.cnt.toNat s.bw.acc.toNat

/-! ## Frames -/

/-- The host's registers and buffer are unchanged: `CFG`, `IN_LEN`, `IN`, and what the host will do; and the parameter
`MAX_IN_LEN`. -/
def SameHost (s t : State) : Prop :=
  t.maxInLen = s.maxInLen ∧ t.cfg = s.cfg ∧ t.inLen = s.inLen ∧ t.inBuf = s.inBuf ∧ t.host = s.host

/-- `OUT_LEN` and every byte of `OUT` are unchanged. -/
def SameOut (s t : State) : Prop :=
  t.outLen = s.outLen ∧ ∀ a, memRead t.outBuf a = memRead s.outBuf a

/-- `OUT` is unchanged outside the bytes appended at `OUT_LEN`. -/
def SameOutOutside (s t : State) : Prop :=
  ∀ a, a < s.outLen ∨ t.outLen ≤ a → memRead t.outBuf a = memRead s.outBuf a

/-- The encoder's datapath is unchanged: `E.*`, `BW.*`, the predictor's `x`. -/
def SameEncoder (s t : State) : Prop :=
  t.enc = s.enc ∧ t.bw = s.bw ∧ t.x = s.x

/-- The decoder's datapath is unchanged: `D.*`, `BR.POS`. -/
def SameDecoder (s t : State) : Prop :=
  t.dec = s.dec ∧ t.brPos = s.brPos

/-- The status record and the part of the invocation that runs are unchanged. -/
def SameStatus (s t : State) : Prop :=
  t.stat = s.stat ∧ t.phase = s.phase

/-- The model's own return latch and free-value counter are unchanged. -/
def SameLatches (s t : State) : Prop :=
  t.ret = s.ret ∧ t.free = s.free

/-! ## Faults and results -/

/-- What `raise Fault(kind, pos)` leaves (R139): nothing is said of the contents of `OUT` (R141). -/
def Faulted (kind : ErrKind) (pos : Nat) (s t : State) : Prop :=
  t.stat = { state := .error, err := kind, errpos := pos } ∧ t.outLen = 0 ∧ t.phase = s.phase ∧ SameHost s t ∧
    SameEncoder s t ∧ SameDecoder s t ∧ t.ret = s.ret

/-- What a data code `c` of the sequence `seq` does when it neither overflows the table nor the output (R105, R114). -/
def DataDone (c : Code) (seq : List Byte) (s t : State) : Prop :=
  outBytes t = outBytes s ++ seq ∧ t.outLen = s.outLen + seq.length ∧ SameOutOutside s t ∧
    t.dec.prev = c ∧ t.dec.prevseq = seq ∧ t.dec.prevv = true ∧ t.dec.start = s.dec.start ∧ t.brPos = s.brPos ∧
    (s.dec.prevv = false → t.dec.table = s.dec.table ∧ t.dec.nac = s.dec.nac ∧ t.dec.width = s.dec.width) ∧
    (s.dec.prevv = true →
      tableFind t.dec.table s.dec.nac = some (s.dec.prevseq ++ seq.take 1) ∧
        (∀ k, k ≠ s.dec.nac → tableFind t.dec.table k = tableFind s.dec.table k) ∧
        t.dec.nac.toNat = s.dec.nac.toNat + 1 ∧ t.dec.width = Wd (s.dec.nac.toNat + 1)) ∧
    SameHost s t ∧ SameEncoder s t ∧ SameStatus s t ∧ SameLatches s t

/-- A data code has room: it does not assign code 4094 (R107) and its sequence fits `CFG.EXPLEN` (R106). -/
def DataRoom (seq : List Byte) (s : State) : Prop :=
  258 ≤ s.dec.nac.toNat ∧ s.dec.nac.toNat ≤ 4094 ∧ ¬ (s.dec.prevv = true ∧ s.dec.nac.toNat = 4094) ∧
    s.outLen + seq.length ≤ s.cfg.explen

/-- The decoder-count mirror after a data code is written (R89): the session's first data code sets `E.EMITTED`, every later
one advances `E.DCNT`; `E.WIDTH` follows (R23). -/
def MirrorAdvanced (s t : State) : Prop :=
  t.enc.emitted = true ∧ t.enc.dcnt.toNat = s.enc.dcnt.toNat + (if s.enc.emitted then 1 else 0) ∧
    t.enc.width = Wd t.enc.dcnt.toNat

/-- The legal configurations (R127): none of the conditions that raise `ConfigError` holds. -/
def LegalConfig (s : State) : Prop :=
  s.inLen ≤ s.maxInLen ∧
    (s.cfg.mode = .decode → s.cfg.explen ≤ s.maxInLen) ∧
    (s.cfg.pred = .horizontal →
      s.cfg.roww ≠ 0 ∧ (s.cfg.mode = .encode → s.inLen % s.cfg.roww = 0) ∧
        (s.cfg.mode = .decode → s.cfg.explen % s.cfg.roww = 0))

/-! ## The invariants -/

/-- A code that stands for a sequence below a table count: a literal or a learned code (R20). -/
def SeqCode (n : Nat) (c : Code) : Prop :=
  c.toNat < 256 ∨ (258 ≤ c.toNat ∧ c.toNat < n)

/-- The encoder's registers in every state (R21 to R24, R26, R39). -/
structure EncRegs (s : State) : Prop where
  nac_low : 258 ≤ s.enc.nac.toNat
  nac_high : s.enc.nac.toNat ≤ 4094
  dcnt_low : 258 ≤ s.enc.dcnt.toNat
  dcnt_high : s.enc.dcnt.toNat ≤ 4094
  width_eq : s.enc.width = Wd s.enc.dcnt.toNat
  dict_codes : s.enc.dict.map (·.code.toNat) = List.range' 258 (s.enc.nac.toNat - 258)
  dict_keys : (s.enc.dict.map fun e => (e.pre, e.byte)).Nodup
  dict_prefix : ∀ e ∈ s.enc.dict, SeqCode e.code.toNat e.pre
  acc_low : s.bw.acc.toNat < 2 ^ s.bw.cnt.toNat

/-- The encoder while a byte step or the finish is to come (R20, R25, R39). -/
structure EncRunning (s : State) : Prop where
  cur_code : s.enc.curv = true → SeqCode s.enc.nac.toNat s.enc.cur
  fresh : s.enc.curv = false → s.enc.ipos = 0 ∧ s.enc.emitted = false
  not_emitted : s.enc.emitted = false → s.enc.dcnt.toNat = 258 ∧ s.enc.nac.toNat = 258
  emitted : s.enc.emitted = true → s.enc.dcnt.toNat + 1 = s.enc.nac.toNat
  ipos_le : s.enc.ipos ≤ s.inLen

/-- The decoder's registers in every state (R27 to R31, R40). -/
structure DecRegs (s : State) : Prop where
  nac_low : 258 ≤ s.dec.nac.toNat
  nac_high : s.dec.nac.toNat ≤ 4094
  width_eq : s.dec.width = Wd s.dec.nac.toNat
  table_codes : s.dec.table.map (·.code.toNat) = List.range' 258 (s.dec.nac.toNat - 258)
  table_entries : ∀ e ∈ s.dec.table, ∃ p q b,
    p.toNat < e.code.toNat ∧ tableSeq s.dec.table p = some q ∧ e.seq = q ++ [b]
  no_prev : s.dec.prevv = false → s.dec.nac.toNat = 258
  prev_seq : s.dec.prevv = true → tableSeq s.dec.table s.dec.prev = some s.dec.prevseq

/-- The status record (R35, R139): an error kind exactly in ERROR, where no output is delivered. -/
def StatOk (s : State) : Prop :=
  (s.stat.state = .error → s.stat.err ≠ .none ∧ s.outLen = 0) ∧
    (s.stat.state ≠ .error → s.stat.err = .none ∧ s.stat.errpos = 0)

/-- What a BUSY encode invocation has (R128): its configuration is legal, and `x` is delivered as far as the pass has come. -/
def EncodeOk (s : State) : Prop :=
  EncRunning s ∧
    match s.phase with
    | .fwd r => s.cfg.pred = .horizontal ∧ r * s.cfg.roww < s.inLen ∧ s.x.length = r * s.cfg.roww ∧ s.enc.curv = false
    | .lzw => s.x.length = s.inLen
    | .inv _ => False

/-- What a BUSY decode invocation has (R130, R131): the cursor inside `IN`, the output inside `CFG.EXPLEN`. -/
def DecodeOk (s : State) : Prop :=
  s.brPos ≤ 8 * s.inLen ∧ s.outLen ≤ s.cfg.explen ∧
    match s.phase with
    | .fwd _ => False
    | .lzw => True
    | .inv r => s.cfg.pred = .horizontal ∧ r * s.cfg.roww < s.outLen

/-- The invariant of the block, kept by every step and true at reset. -/
structure Inv (s : State) : Prop where
  in_wf : Memory.wf s.inBuf
  out_wf : Memory.wf s.outBuf
  stat : StatOk s
  enc : EncRegs s
  dec : DecRegs s
  config : s.stat.state = .busy → LegalConfig s
  encode : s.stat.state = .busy → s.cfg.mode = .encode → EncodeOk s
  decode : s.stat.state = .busy → s.cfg.mode = .decode → DecodeOk s

end Sys2Proof.Machine
end

