-- ==== Sys2Proof/Certificates/Slice0/Obligations.lean ====
section
/-! DEFINITION. The statements for the provers. `stated` ones formalise a numbered rule of spec/; the others say in their
docstring what they rest on. -/

open Sys2Proof Sys2Proof.Machine

/-! ## Codes on the wire -/

/-- A few words written out from R65 and from the worked vectors V6, V18 and V3 decode to what they stand for. -/
def Obligations.WrittenWordsDecode : Prop :=
  decodeStream [0x20, 0xC0, 0x40] 0 258 false = .ok (.lit9 0x41, 9) ∧
    decodeStream [0x20, 0xC0, 0x40] 9 258 true = .ok (.eoi9, 18) ∧
    decodeStream [0x80, 0x10, 0x60, 0x20] 0 258 false = .ok (.clr9, 9) ∧
    decodeStream [0x4B, 0x00] 0 511 true = .ok (.dict10 300, 10) ∧
    decodeStream [0x7F, 0xE0] 0 1023 true = .ok (.kwk11 1023, 11) ∧
    decodeStream [0xFF, 0xF0] 0 2047 true = .ok (.inv12 4095, 12) ∧
    decodeStream [0x20] 0 258 false = .error .endOfStream

/-- Decode and encode agree: a code that fits the decoder state, encoded and packed at any bit position among any other bits,
decodes back to itself, and the position after it is the end of its bits (R62, R63, R64, R65). -/
def Obligations.EncodedCodesDecodeBack : Prop :=
  ∀ (i : Instr) (n : Nat) (v : Bool) (before bits after : List Bool), 258 ≤ n → n ≤ 4094 → i.fits n v = true →
    encode i = some bits →
      decodeStream (packBits (before ++ bits ++ after)) before.length n v = .ok (i, before.length + bits.length)

/-- Every code read is an instruction that fits the state, is well formed, and encodes back to the code and width read: no bit
is dropped (R61, R64, R65). -/
def Obligations.DecodedCodesEncodeBack : Prop :=
  ∀ (n : Nat) (v : Bool) (c : Code), 258 ≤ n → n ≤ 4094 → c.toNat < 2 ^ (Wd n).bits →
    (decodeCode (Wd n) n v c).fits n v = true ∧ (decodeCode (Wd n) n v c).wf = true ∧
      encodeCode (decodeCode (Wd n) n v c) = some (Wd n, c)

/-- R64: the class of every code, by its value and the decoder state. -/
def Obligations.ClassesFollowTheTable : Prop :=
  ∀ (n : Nat) (v : Bool) (c : Nat), 258 ≤ n →
    (classify n v c = .clr ↔ c = 256) ∧ (classify n v c = .eoi ↔ c = 257) ∧
      (classify n v c = .inv ↔ n < c ∨ (c = n ∧ v = false)) ∧ (classify n v c = .lit ↔ c ≤ 255) ∧
      (classify n v c = .dict ↔ 258 ≤ c ∧ c < n) ∧ (classify n v c = .kwk ↔ c = n ∧ v = true)

/-- R9: the width by cases, and equivalently the smallest width `w` with `n < 2^w - 1`, 12 when there is none. -/
def Obligations.WidthIsTheSmallestThatFits : Prop :=
  ∀ n : Nat,
    (n ≤ 510 → (Wd n).bits = 9) ∧ (511 ≤ n → n ≤ 1022 → (Wd n).bits = 10) ∧
      (1023 ≤ n → n ≤ 2046 → (Wd n).bits = 11) ∧ (2047 ≤ n → (Wd n).bits = 12) ∧
      (n < 2 ^ (Wd n).bits - 1 ∨ ((Wd n).bits = 12 ∧ ∀ w, 9 ≤ w → w ≤ 12 → ¬ n < 2 ^ w - 1)) ∧
      ∀ w, 9 ≤ w → w < (Wd n).bits → ¬ n < 2 ^ w - 1

/-! ## The step -/

/-- A step runs the decoded instruction: when the bytes of `IN` at `BR.POS` decode to `i`, the step is `exec i` after the fetch,
which latches `start`, moves `BR.POS` past the code and returns it (R103, R104; the latches are the model's, log 7). -/
def Obligations.StepRunsTheFetchedCode : Prop :=
  ∀ (s : State) (i : Instr) (p : Nat), s.stat.state = .busy → s.phase = .lzw → s.cfg.mode = .decode →
    decodeStream (inBytes s) s.brPos s.dec.nac.toNat s.dec.prevv = .ok (i, p) →
      ∃ c, encodeCode i = some (Wd s.dec.nac.toNat, c) ∧
        step s = exec i { s with dec := { s.dec with start := s.brPos }, brPos := p, ret := .code c }

/-- In the byte loop the step runs the operation the state selects; the selection conditions of R91 to R96 are exclusive and
exhaustive: of the five operations exactly the selected one answers a next state, and it is `ENC.FINISH` exactly at the end of
the input. -/
def Obligations.ExactlyOneEncoderStepIsSelected : Prop :=
  ∀ s : State, s.stat.state = .busy → s.phase = .lzw → s.cfg.mode = .encode →
    step s = exec (encInstr (encSelect s)) s ∧
      (Inv s →
        (∀ o : EncOp, (∃ t, exec (encInstr o) s = .next t) ↔ o = encSelect s) ∧
          (encSelect s = .finish ↔ s.enc.ipos = s.inLen))

/-- R153: the block is idle in IDLE, DONE and ERROR; with no host action to come a step changes nothing. -/
def Obligations.IdleBlockKeepsItsState : Prop :=
  ∀ s : State, s.stat.state ≠ .busy → s.host = [] → step s = .next s

/-- The host's actions (R126), one a step while the block is not BUSY (log 1): a write lands in its own field and changes
nothing else, `START` is the instruction `START`. -/
def Obligations.HostActionsAreTakenOneAStep : Prop :=
  ∀ (s : State) (rest : List HostAct), s.stat.state ≠ .busy →
    (∀ m, s.host = .setMode m :: rest → step s = .next { s with host := rest, cfg := { s.cfg with mode := m } }) ∧
      (∀ p, s.host = .setPred p :: rest → step s = .next { s with host := rest, cfg := { s.cfg with pred := p } }) ∧
      (∀ n, s.host = .setRoww n :: rest → step s = .next { s with host := rest, cfg := { s.cfg with roww := n } }) ∧
      (∀ n, s.host = .setExplen n :: rest → step s = .next { s with host := rest, cfg := { s.cfg with explen := n } }) ∧
      (∀ n, s.host = .setInLen n :: rest → step s = .next { s with host := rest, inLen := n }) ∧
      (∀ i b, s.host = .writeIn i b :: rest → Memory.wf s.inBuf →
        ∃ m, step s = .next { s with host := rest, inBuf := m } ∧
          ∀ a, memRead m a = if a = i then b else memRead s.inBuf a) ∧
      (s.host = .start :: rest → step s = exec .start { s with host := rest })

/-- While BUSY a `START` and a host write are refused by name (I7, D16; log 12): the model has no move that breaks these
duties. -/
def Obligations.BusyBlockRefusesTheHost : Prop :=
  ∀ s : State, s.stat.state = .busy →
    exec .start s = .refused .startWhileBusy ∧
      ∀ a : HostAct, a ≠ .start → hostAct a s = .refused .hostWriteWhileBusy

/-! ## Packer and unpacker -/

/-- R79: `writeCode(v, w)` appends the `w` bits of `v` to the stream, most significant first; full bytes leave the buffer at
once; nothing else changes. -/
def Obligations.WriteCodeAppendsItsBits : Prop :=
  ∀ (v : Code) (w : Width) (s : State), v.toNat < 2 ^ w.bits → Memory.wf s.outBuf →
    ∃ t, exec (.writeCode v w) s = .next t ∧ outBits t = outBits s ++ codeBits w.bits v.toNat ∧
      t.outLen = s.outLen + (s.bw.cnt.toNat + w.bits) / 8 ∧ t.bw.cnt.toNat = (s.bw.cnt.toNat + w.bits) % 8 ∧
      (s.outLen + 1 = t.outLen ∨ s.outLen + 2 = t.outLen) ∧ SameOutOutside s t ∧
      t = { s with bw := t.bw, outBuf := t.outBuf, outLen := t.outLen }

/-- `writeCode` with `v >= 2^w` is refused (I8; log 13). -/
def Obligations.WriteCodeRefusesWideCodes : Prop :=
  ∀ (v : Code) (w : Width) (s : State), 2 ^ w.bits ≤ v.toNat → exec (.writeCode v w) s = .refused .codeTooWide

/-- R81: `flush()` pads the final partial byte with zero bits and emits it; with no pending bit nothing changes. -/
def Obligations.FlushPadsWithZeros : Prop :=
  ∀ s : State,
    (s.bw.cnt.toNat = 0 → exec .flush s = .next s) ∧
      (0 < s.bw.cnt.toNat → Memory.wf s.outBuf →
        ∃ t, exec .flush s = .next t ∧ outBits t = outBits s ++ List.replicate (8 - s.bw.cnt.toNat) false ∧
          t.outLen = s.outLen + 1 ∧ t.bw = { acc := 0, cnt := 0 } ∧ SameOutOutside s t ∧
          t = { s with bw := t.bw, outBuf := t.outBuf, outLen := t.outLen })

/-- R83 with R63: `readCode(w)` consumes `w` bits, the first the most significant, and returns them as a code, writing `BR.POS`
alone (and the model's return latch, log 7); with fewer than `w` bits left it faults at the cursor, no bit consumed. -/
def Obligations.ReadCodeReadsOrFaults : Prop :=
  ∀ (w : Width) (s : State),
    (w.bits ≤ 8 * s.inLen - s.brPos →
      ∃ c : Code,
        c.toNat =
            ((List.range w.bits).map fun j =>
              (streamBit (memRead s.inBuf) (s.brPos + j)).toNat * 2 ^ (w.bits - 1 - j)).sum ∧
          exec (.readCode w) s = .next { s with brPos := s.brPos + w.bits, ret := .code c }) ∧
      (8 * s.inLen - s.brPos < w.bits →
        ∃ t, exec (.readCode w) s = .next t ∧ Faulted .unexpectedEndOfStream s.brPos s t)

/-- R84: codes written and flushed from an empty writer, read back at the same widths in the same order from the output taken
as the input, are the codes written. -/
def Obligations.WrittenCodesReadBack : Prop :=
  ∀ (s t : State) (cs : List (Code × Width)), s.outLen = 0 → s.bw.cnt = 0 → Memory.wf s.outBuf →
    (∀ p ∈ cs, p.1.toNat < 2 ^ p.2.bits) →
    t = flushBits (cs.foldl (fun u p => writeCodeBits p.1 p.2 u) s) →
      t.outLen = ((cs.map (·.2.bits)).sum + 7) / 8 ∧
        ∀ (u : State) (k : Nat) (hk : k < cs.length), u.inLen = t.outLen →
          (∀ i, i < t.outLen → memRead u.inBuf i = memRead t.outBuf i) →
          u.brPos = ((cs.take k).map (·.2.bits)).sum →
            exec (.readCode cs[k].2) u =
              .next { u with brPos := ((cs.take (k + 1)).map (·.2.bits)).sum, ret := .code cs[k].1 }

/-! ## Encoder -/

/-- R86: `reset()` writes the five registers named and no other. -/
def Obligations.EncoderResetEmptiesTheDictionary : Prop :=
  ∀ s : State,
    exec .reset s =
      .next { s with enc := { s.enc with dict := [], nac := 258, dcnt := 258, emitted := false, width := .w9 } }

/-- R87: `lookup(p, b)` hits on the code assigned to the key, a learned code below `E.NAC`, and misses when there is none; no
register is written (the answer is in the model's return latch, log 7). -/
def Obligations.LookupFindsTheAssignedCode : Prop :=
  ∀ (p : Code) (b : Byte) (s : State), EncRegs s →
    (∀ k, { pre := p, byte := b, code := k : DictEntry } ∈ s.enc.dict →
        exec (.lookup p b) s = .next { s with ret := .hit k } ∧ 258 ≤ k.toNat ∧ k.toNat < s.enc.nac.toNat) ∧
      ((∀ k, { pre := p, byte := b, code := k : DictEntry } ∉ s.enc.dict) →
        exec (.lookup p b) s = .next { s with ret := .miss })

/-- R88: `insert(p, b)` assigns `E.NAC` to the key and advances `E.NAC`, or, at 4094, is a no-op that answers full. -/
def Obligations.InsertAssignsTheNextCode : Prop :=
  ∀ (p : Code) (b : Byte) (s : State), 258 ≤ s.enc.nac.toNat → s.enc.nac.toNat ≤ 4094 →
    (s.enc.nac.toNat = 4094 → exec (.insert p b) s = .next { s with ret := .full }) ∧
      (s.enc.nac.toNat < 4094 →
        ∃ d n, exec (.insert p b) s =
            .next { s with enc := { s.enc with dict := d, nac := n }, ret := .assigned s.enc.nac } ∧
          n.toNat = s.enc.nac.toNat + 1 ∧ dictFind d p b = some s.enc.nac ∧
          ∀ q c, ¬ (q = p ∧ c = b) → dictFind d q c = dictFind s.enc.dict q c)

/-- R89: `emitCode(c)` writes the code at the width in force before it; a control code leaves the mirror, the session's first
data code sets `E.EMITTED`, every later one advances `E.DCNT`. -/
def Obligations.EmitCodeWritesAtTheCurrentWidth : Prop :=
  ∀ (c : Code) (s : State), 258 ≤ s.enc.dcnt.toNat → s.enc.dcnt.toNat ≤ 4094 →
    c.toNat < 2 ^ (Wd s.enc.dcnt.toNat).bits → Memory.wf s.outBuf →
    ∃ t, exec (.emitCode c) s = .next t ∧
      outBits t = outBits s ++ codeBits (Wd s.enc.dcnt.toNat).bits c.toNat ∧
      (c.toNat = 256 ∨ c.toNat = 257 → t.enc = { s.enc with width := Wd s.enc.dcnt.toNat }) ∧
      (c.toNat ≠ 256 → c.toNat ≠ 257 → MirrorAdvanced s t) ∧
      t.enc = { s.enc with dcnt := t.enc.dcnt, emitted := t.enc.emitted, width := t.enc.width } ∧
      SameOutOutside s t ∧
      t = { s with enc := t.enc, bw := t.bw, outBuf := t.outBuf, outLen := t.outLen }

/-- R91: `ENC.FIRST` takes the first byte as the matched sequence; nothing is written to the stream. -/
def Obligations.EncFirstTakesTheFirstByte : Prop :=
  ∀ (s : State) (b : Byte), s.enc.curv = false → s.enc.ipos < s.inLen → inputByte s = some b →
    exec .encFirst s =
      .next { s with enc := { s.enc with cur := b.setWidth 12, curv := true, ipos := s.enc.ipos + 1 } }

/-- R92: `ENC.HIT` extends the match to the code found; nothing is written to the stream. -/
def Obligations.EncHitExtendsTheMatch : Prop :=
  ∀ (s : State) (b : Byte) (k : Code), s.enc.curv = true → s.enc.ipos < s.inLen → inputByte s = some b →
    dictFind s.enc.dict s.enc.cur b = some k →
      exec .encHit s = .next { s with enc := { s.enc with cur := k, ipos := s.enc.ipos + 1 } }

/-- R93: `ENC.MISS` writes the longest match at the width in force, then inserts the candidate, and starts a new match. -/
def Obligations.EncMissEmitsThenInserts : Prop :=
  ∀ (s : State) (b : Byte), EncRegs s → EncRunning s → Memory.wf s.outBuf → s.enc.curv = true →
    s.enc.ipos < s.inLen → inputByte s = some b → dictFind s.enc.dict s.enc.cur b = none → s.enc.nac.toNat < 4094 →
      ∃ t, exec .encMiss s = .next t ∧
        outBits t = outBits s ++ codeBits (Wd s.enc.dcnt.toNat).bits s.enc.cur.toNat ∧
        dictFind t.enc.dict s.enc.cur b = some s.enc.nac ∧
        (∀ q c, ¬ (q = s.enc.cur ∧ c = b) → dictFind t.enc.dict q c = dictFind s.enc.dict q c) ∧
        t.enc.nac.toNat = s.enc.nac.toNat + 1 ∧ MirrorAdvanced s t ∧
        t.enc.cur = b.setWidth 12 ∧ t.enc.curv = true ∧ t.enc.ipos = s.enc.ipos + 1 ∧ SameOutOutside s t ∧
        t = { s with enc := t.enc, bw := t.bw, outBuf := t.outBuf, outLen := t.outLen }

/-- R94: `ENC.MISS_FULL` writes the longest match, then a `CLR` of 12 bits, resets the dictionary and starts a new match; the
candidate is not learned. -/
def Obligations.EncMissFullEmitsAClear : Prop :=
  ∀ (s : State) (b : Byte), EncRegs s → EncRunning s → Memory.wf s.outBuf → s.enc.curv = true →
    s.enc.ipos < s.inLen → inputByte s = some b → dictFind s.enc.dict s.enc.cur b = none → s.enc.nac.toNat = 4094 →
      ∃ t, exec .encMissFull s = .next t ∧
        outBits t = outBits s ++ codeBits (Wd s.enc.dcnt.toNat).bits s.enc.cur.toNat ++ codeBits 12 256 ∧
        t.enc =
          { dict := [], nac := 258, dcnt := 258, emitted := false, width := .w9, curv := true, cur := b.setWidth 12,
            ipos := s.enc.ipos + 1 } ∧
        SameOutOutside s t ∧ t = { s with enc := t.enc, bw := t.bw, outBuf := t.outBuf, outLen := t.outLen }

/-- R96 with R90: `ENC.FINISH` writes whatever match remains, then `EOI` at `Wd(E.NAC)`, pads to a whole byte with at most 7
zero bits, and sets DONE; no insert follows the final code. -/
def Obligations.EncFinishWritesTheEnd : Prop :=
  ∀ s : State, EncRegs s → EncRunning s → Memory.wf s.outBuf → s.enc.ipos = s.inLen →
    ∃ t n, exec .encFinish s = .next t ∧ n ≤ 7 ∧
      outBits t =
        outBits s ++ (if s.enc.curv then codeBits (Wd s.enc.dcnt.toNat).bits s.enc.cur.toNat else []) ++
          codeBits (Wd s.enc.nac.toNat).bits 257 ++ List.replicate n false ∧
      t.bw = { acc := 0, cnt := 0 } ∧ t.stat = { s.stat with state := .done } ∧
      t.enc = { s.enc with dcnt := t.enc.dcnt, emitted := t.enc.emitted, width := t.enc.width } ∧
      (s.enc.curv = true → MirrorAdvanced s t) ∧ (s.enc.curv = false → t.enc = s.enc) ∧ SameOutOutside s t ∧
      t = { s with enc := t.enc, bw := t.bw, outBuf := t.outBuf, outLen := t.outLen, stat := t.stat }

/-- R97: the encoder has no fallible path: every step of a running encode answers a next state with no error. In the byte loop
`E.IPOS` advances by exactly 1 per byte step (R37) and the invocation runs on. -/
def Obligations.EncoderNeverFaults : Prop :=
  ∀ s : State, Inv s → s.stat.state = .busy → s.cfg.mode = .encode →
    ∃ t, step s = .next t ∧ t.stat.err = .none ∧ (t.stat.state = .busy ∨ t.stat.state = .done) ∧
      (s.phase = .lzw → s.enc.ipos < s.inLen → t.enc.ipos = s.enc.ipos + 1 ∧ t.stat.state = .busy)

/-- `ENCODE` completes (R128, R129): a started encode invocation run as one command ends in DONE with the whole input consumed;
the host's registers, the decoder's datapath and everything in `OUT` before `OUT_LEN` are kept. -/
def Obligations.EncodeCommandEndsDone : Prop :=
  ∀ s : State, Inv s → s.stat.state = .busy → s.cfg.mode = .encode →
    ∃ t, exec .encode s = .next t ∧ t.stat = { state := .done, err := .none, errpos := 0 } ∧
      t.enc.ipos = t.inLen ∧ s.outLen < t.outLen ∧ SameOutOutside s t ∧ SameHost s t ∧ SameDecoder s t ∧ SameLatches s t

/-- `ENCODE` as one command is the run of steps that `START` begins (R11, R95, R128; the two levels are log 8): at most one
predictor step per row, one byte step per byte, one finish. -/
def Obligations.EncodeCommandIsTheRunOfSteps : Prop :=
  ∀ s : State, s.stat.state ≠ .busy → s.cfg.mode = .encode → LegalConfig s →
    ∃ a b n, exec .start s = .next a ∧ exec .encode a = .next b ∧ n ≤ 2 * s.inLen + 1 ∧
      Sys2Proof.core.run n a = .next b ∧ b.stat.state = .done

/-! ## Decoder -/

/-- R102: `D.reset()` writes the table, `D.NAC`, `D.WIDTH`, `D.PREVV`; `D.PREV` and `D.PREVSEQ` become unspecified, so nothing
is said of them (nor of the free-value counter, log 3). -/
def Obligations.DecoderResetSeedsTheTable : Prop :=
  ∀ s : State, ∃ pv ps n,
    exec .dReset s =
      .next { s with
        dec := { s.dec with table := [], nac := 258, width := .w9, prevv := false, prev := pv, prevseq := ps },
        free := n }

/-- R103: `DEC.FETCH` latches `start` and reads a code at `Wd(D.NAC)`, or faults at the cursor when too few bits remain. -/
def Obligations.FetchReadsAtTheTableWidth : Prop :=
  ∀ s : State,
    ((Wd s.dec.nac.toNat).bits ≤ 8 * s.inLen - s.brPos →
      ∃ c : Code, c.toNat = codeAt (memRead s.inBuf) s.brPos (Wd s.dec.nac.toNat).bits ∧
        exec .decFetch s =
          .next { s with
            dec := { s.dec with start := s.brPos }, brPos := s.brPos + (Wd s.dec.nac.toNat).bits, ret := .code c }) ∧
      (8 * s.inLen - s.brPos < (Wd s.dec.nac.toNat).bits →
        ∃ t, exec .decFetch s = .next t ∧
          Faulted .unexpectedEndOfStream s.brPos { s with dec := { s.dec with start := s.brPos } } t)

/-- R105 and R114: a data code with room appends its sequence, inserts `D.PREVSEQ ++ [head(seq)]` at `D.NAC` exactly when there
is a previous code, and becomes the previous code. -/
def Obligations.DataAppendsThenInserts : Prop :=
  ∀ (c : Code) (seq : List Byte) (s : State), DataRoom seq s → seq ≠ [] → Memory.wf s.outBuf →
    ∃ t, exec (.data c seq) s = .next t ∧ DataDone c seq s t

/-- R106 and R107, in the order of R142: the overflow without Clear is found first, then the output capacity; both at `start`. -/
def Obligations.DataFaultsInOrder : Prop :=
  ∀ (c : Code) (seq : List Byte) (s : State),
    (s.dec.prevv = true → s.dec.nac.toNat = 4094 →
      ∃ t, exec (.data c seq) s = .next t ∧ Faulted .dictionaryOverflowWithoutClear s.dec.start s t) ∧
      (¬ (s.dec.prevv = true ∧ s.dec.nac.toNat = 4094) → s.cfg.explen < s.outLen + seq.length →
        ∃ t, exec (.data c seq) s = .next t ∧ Faulted .outputOverrun s.dec.start s t)

/-- R111: a literal, at each of the four widths, is `DATA` of its byte; with room it appends the byte. -/
def Obligations.LiteralCodesAppendTheirByte : Prop :=
  ∀ (w : Width) (b : Byte) (s : State),
    exec (Instr.lit w b) s = exec (.data (b.setWidth 12) [b]) s ∧
      (DataRoom [b] s → Memory.wf s.outBuf →
        ∃ t, exec (Instr.lit w b) s = .next t ∧ DataDone (b.setWidth 12) [b] s t)

/-- R112: a learned code below `D.NAC`, at each of the four widths, has a sequence of two bytes or more and is `DATA` of it;
with room it appends the sequence. -/
def Obligations.DictCodesAppendTheirSequence : Prop :=
  ∀ (w : Width) (c : Code) (s : State), DecRegs s → c.toNat < 2 ^ w.bits → 258 ≤ c.toNat →
    c.toNat < s.dec.nac.toNat →
      ∃ seq : List Byte, tableFind s.dec.table c = some seq ∧ 2 ≤ seq.length ∧
        exec (Instr.dict w c) s = exec (.data c seq) s ∧
        (DataRoom seq s → Memory.wf s.outBuf → ∃ t, exec (Instr.dict w c) s = .next t ∧ DataDone c seq s t)

/-- R113: the code not yet inserted, at each of the four widths, is `DATA` of `previousSequence + firstByteOf(previousSequence)`,
which is also the entry it inserts; with `D.NAC = 4094` the overflow check fires. -/
def Obligations.KwkCodesRepeatTheFirstByte : Prop :=
  ∀ (w : Width) (c : Code) (b : Byte) (bs : List Byte) (s : State), c.toNat < 2 ^ w.bits → c = s.dec.nac →
    s.dec.prevv = true → s.dec.prevseq = b :: bs →
    exec (Instr.kwk w c) s = exec (.data c (b :: bs ++ [b])) s ∧
      (DataRoom (b :: bs ++ [b]) s → Memory.wf s.outBuf →
        ∃ t, exec (Instr.kwk w c) s = .next t ∧ DataDone c (b :: bs ++ [b]) s t ∧
          tableFind t.dec.table c = some (b :: bs ++ [b])) ∧
      (c.toNat = 4094 →
        ∃ t, exec (Instr.kwk w c) s = .next t ∧ Faulted .dictionaryOverflowWithoutClear s.dec.start s t)

/-- R108: a `CLR`, at each of the four widths, is `D.reset()`: nothing is written to `OUT` and `BR.POS` stays. -/
def Obligations.ClearCodesResetTheDecoder : Prop :=
  ∀ (w : Width) (s : State), ∃ pv ps n,
    exec (Instr.clr w) s =
      .next { s with
        dec := { s.dec with table := [], nac := 258, width := .w9, prevv := false, prev := pv, prevseq := ps },
        free := n }

/-- `EOI`, at each of the four widths, ends the LZW pass (R109, R131): with the predictor off or no output, DONE; else `HD.INV`
comes next, from row 0, and DONE after it (the steps are the model's reading, log 9). -/
def Obligations.EndCodesEndThePass : Prop :=
  ∀ (w : Width) (s : State),
    (s.cfg.pred = .none ∨ s.outLen = 0 →
      exec (Instr.eoi w) s = .next { s with stat := { s.stat with state := .done } }) ∧
      (s.cfg.pred = .horizontal → s.outLen ≠ 0 → exec (Instr.eoi w) s = .next { s with phase := .inv 0 })

/-- R110: an invalid code, at each of the four widths, raises `InvalidCodeError` at `start`. -/
def Obligations.InvalidCodesFault : Prop :=
  ∀ (w : Width) (c : Code) (s : State), c.toNat < 2 ^ w.bits → c.toNat ≠ 256 → c.toNat ≠ 257 →
    (s.dec.nac.toNat < c.toNat ∨ (c = s.dec.nac ∧ s.dec.prevv = false)) →
      ∃ t, exec (Instr.inv w c) s = .next t ∧ Faulted .invalidCodeError s.dec.start s t

/-- An operation whose selection condition (R91 to R96, R110, R112, R113, R128, R130) does not hold is refused by name: no step
selects it (log 10). `DICT`, `KWK`, `INV` outside their class; each byte step past the input and, inside it, in every case that
selects another byte step; `ENC.FINISH` before the end; `ENCODE` and `DECODE` in the other mode and while not BUSY. -/
def Obligations.UnselectedOperationsAreRefused : Prop :=
  ∀ s : State,
    (∀ w c, c.toNat < 2 ^ w.bits → ¬ (258 ≤ c.toNat ∧ c.toNat < s.dec.nac.toNat) →
        exec (Instr.dict w c) s = .refused (.notSelected "DICT")) ∧
      (∀ w c, c.toNat < 2 ^ w.bits → ¬ (c = s.dec.nac ∧ s.dec.prevv = true) →
        exec (Instr.kwk w c) s = .refused (.notSelected "KWK")) ∧
      (∀ w c, c.toNat < 2 ^ w.bits →
        c.toNat = 256 ∨ c.toNat = 257 ∨
            ¬ (s.dec.nac.toNat < c.toNat ∨ (c = s.dec.nac ∧ s.dec.prevv = false)) →
        exec (Instr.inv w c) s = .refused (.notSelected "INV")) ∧
      (s.inLen ≤ s.enc.ipos →
        exec .encFirst s = .refused (.notSelected "ENC.FIRST") ∧ exec .encHit s = .refused (.notSelected "ENC.HIT") ∧
          exec .encMiss s = .refused (.notSelected "ENC.MISS") ∧
          exec .encMissFull s = .refused (.notSelected "ENC.MISS_FULL")) ∧
      (∀ b, s.enc.ipos < s.inLen → inputByte s = some b →
        (s.enc.curv = true → exec .encFirst s = .refused (.notSelected "ENC.FIRST")) ∧
          (s.enc.curv = false ∨ dictFind s.enc.dict s.enc.cur b = none →
            exec .encHit s = .refused (.notSelected "ENC.HIT")) ∧
          (s.enc.curv = false ∨ (∃ k, dictFind s.enc.dict s.enc.cur b = some k) ∨ 4094 ≤ s.enc.nac.toNat →
            exec .encMiss s = .refused (.notSelected "ENC.MISS")) ∧
          (s.enc.curv = false ∨ (∃ k, dictFind s.enc.dict s.enc.cur b = some k) ∨ s.enc.nac.toNat ≠ 4094 →
            exec .encMissFull s = .refused (.notSelected "ENC.MISS_FULL"))) ∧
      (s.enc.ipos ≠ s.inLen → exec .encFinish s = .refused (.notSelected "ENC.FINISH")) ∧
      (s.cfg.mode = .decode ∨ s.stat.state ≠ .busy → exec .encode s = .refused (.notSelected "ENCODE")) ∧
      (s.cfg.mode = .encode ∨ s.stat.state ≠ .busy → exec .decode s = .refused (.notSelected "DECODE"))

/-- `DECODE` completes (R130, R131, R135): a started decode invocation run as one command ends in DONE or ERROR; the host's
registers and the encoder's datapath are kept; in DONE the output fits `CFG.EXPLEN`. -/
def Obligations.DecodeCommandEnds : Prop :=
  ∀ s : State, Inv s → s.stat.state = .busy → s.cfg.mode = .decode →
    ∃ t, exec .decode s = .next t ∧
      (t.stat = { state := .done, err := .none, errpos := 0 } ∨ (t.stat.state = .error ∧ t.outLen = 0)) ∧
      t.outLen ≤ t.cfg.explen ∧ t.brPos ≤ 8 * t.inLen ∧ SameHost s t ∧ SameEncoder s t

/-- `DECODE` as one command is the run of steps from the decoder's reset (R103, R104, R115, R130, R131; the two levels are
log 8). -/
def Obligations.DecodeCommandIsTheRunOfSteps : Prop :=
  ∀ s : State, Inv s → s.stat.state = .busy → s.cfg.mode = .decode → s.phase = .lzw →
    ∃ n t, exec .decode s = .next t ∧ Sys2Proof.core.run n (decBegin s) = .next t ∧
      (t.stat.state = .done ∨ t.stat.state = .error) ∧ n ≤ 8 * s.inLen / 9 + 1 + s.cfg.explen

/-- R144 with R140 and R142: a fault of a decoder step records the first bit of the code being processed and delivers no output;
it is the end of the stream exactly when the code cannot be read. -/
def Obligations.DecoderFaultsArePrecise : Prop :=
  ∀ s t : State, s.stat.state = .busy → s.phase = .lzw → s.cfg.mode = .decode → step s = .next t →
    t.stat.state = .error →
      t.stat.errpos = s.brPos ∧ t.outLen = 0 ∧
        (t.stat.err = .unexpectedEndOfStream ∨ t.stat.err = .invalidCodeError ∨
          t.stat.err = .dictionaryOverflowWithoutClear ∨ t.stat.err = .outputOverrun) ∧
        (t.stat.err = .unexpectedEndOfStream ↔ 8 * s.inLen - s.brPos < (Wd s.dec.nac.toNat).bits)

/-- The decoder reads each code only when it needs it and nothing past it (R72, R117): two inputs that agree on the bits of the
code at `BR.POS` give the same step. -/
def Obligations.DecoderReadsOnlyItsBits : Prop :=
  ∀ (s t : State) (m : Memory) (len : Nat), s.stat.state = .busy → s.phase = .lzw → s.cfg.mode = .decode →
    (Wd s.dec.nac.toNat).bits ≤ 8 * s.inLen - s.brPos → (Wd s.dec.nac.toNat).bits ≤ 8 * len - s.brPos →
    (∀ q, s.brPos ≤ q → q < s.brPos + (Wd s.dec.nac.toNat).bits →
      streamBit (memRead m) q = streamBit (memRead s.inBuf) q) →
    step s = .next t → step { s with inBuf := m, inLen := len } = .next { t with inBuf := m, inLen := len }

/-! ## Predictor -/

/-- R119: `HD.FWD` delivers, for every byte of every row, the byte itself at the start of a row and else its difference from the
original byte before it, modulo 256; nothing else changes (but the model's phase, log 7). -/
def Obligations.ForwardDifferencesEachRow : Prop :=
  ∀ s : State, 0 < s.cfg.roww → s.inLen % s.cfg.roww = 0 →
    ∃ x : List Byte, exec .hdFwd s = .next { s with x := x, phase := .lzw } ∧ x.length = s.inLen ∧
      ∀ i, i < s.inLen →
        x[i]? =
          some (if i % s.cfg.roww = 0 then memRead s.inBuf i else memRead s.inBuf i - memRead s.inBuf (i - 1))

/-- R122: `HD.INV` leaves, for every output byte, the byte itself at the start of a row and else its sum with the reconstructed
byte before it, modulo 256, an incomplete last row included; nothing past `OUT_LEN` and nothing else changes. -/
def Obligations.InverseSumsEachRow : Prop :=
  ∀ s : State, 0 < s.cfg.roww → Memory.wf s.outBuf →
    ∃ m : Memory, exec .hdInv s = .next { s with outBuf := m } ∧
      (∀ i, i < s.outLen →
        memRead m i =
          if i % s.cfg.roww = 0 then memRead s.outBuf i else memRead m (i - 1) + memRead s.outBuf i) ∧
      ∀ a, s.outLen ≤ a → memRead m a = memRead s.outBuf a

/-- R124: for every row width and every whole number of rows, differencing then its inverse reproduces the bytes. -/
def Obligations.InverseUndoesForward : Prop :=
  ∀ s t u v : State, 0 < s.cfg.roww → s.inLen % s.cfg.roww = 0 → exec .hdFwd s = .next t →
    u.cfg.roww = s.cfg.roww → u.outLen = s.inLen → Memory.wf u.outBuf → outBytes u = t.x → exec .hdInv u = .next v →
      outBytes v = inBytes s

/-- R123: `PRED.NONE` is the identity: the encoder consumes `x = IN`, the decoder's output stays as it is. -/
def Obligations.PredictorOffIsIdentity : Prop :=
  ∀ s : State,
    (s.cfg.mode = .encode → exec .predNone s = .next { s with x := inBytes s }) ∧
      (s.cfg.mode = .decode → exec .predNone s = .next s)

/-- One predictor step transforms one row (R11): the row steps of a started invocation together are `HD.FWD` and `HD.INV`, and
DONE follows the last row of `HD.INV` (R131; log 9). -/
def Obligations.RowStepsMakeTheWholeTransform : Prop :=
  ∀ s : State, s.stat.state = .busy → 0 < s.cfg.roww →
    (s.phase = .fwd 0 → 0 < s.inLen → s.inLen % s.cfg.roww = 0 →
        Sys2Proof.core.run (s.inLen / s.cfg.roww) s = exec .hdFwd s) ∧
      (s.phase = .inv 0 → 0 < s.outLen →
        ∃ m : Memory, exec .hdInv s = .next { s with outBuf := m } ∧
          Sys2Proof.core.run ((s.outLen + s.cfg.roww - 1) / s.cfg.roww) s =
            .next { s with outBuf := m, phase := .lzw, stat := { s.stat with state := .done } })

/-! ## Invocation -/

/-- R127 with R155: `START` with a legal configuration sets BUSY, clears the error and the output length, and puts the datapath of
the selected mode in its session-start state; `E.CUR`, `D.PREV`, `D.PREVSEQ` are unspecified, so nothing is said of them; the
other datapath is not touched (log 20). -/
def Obligations.StartClearsAndResets : Prop :=
  ∀ s : State, s.stat.state ≠ .busy → LegalConfig s →
    ∃ t, exec .start s = .next t ∧ t.stat = { state := .busy, err := .none, errpos := 0 } ∧ t.outLen = 0 ∧
      SameHost s t ∧ (∀ a, memRead t.outBuf a = memRead s.outBuf a) ∧ t.ret = s.ret ∧
      (s.cfg.mode = .encode →
        t.enc =
            { curv := false, cur := t.enc.cur, nac := 258, dcnt := 258, emitted := false, width := .w9, dict := [],
              ipos := 0 } ∧
          t.bw = { acc := 0, cnt := 0 } ∧ SameDecoder s t ∧
          (s.cfg.pred = .none → t.x = inBytes s ∧ t.phase = .lzw) ∧
          (s.cfg.pred = .horizontal → t.x = [] ∧ t.phase = if s.inLen = 0 then .lzw else .fwd 0)) ∧
      (s.cfg.mode = .decode →
        t.dec =
            { nac := 258, width := .w9, table := [], prevv := false, prev := t.dec.prev, prevseq := t.dec.prevseq,
              start := s.dec.start } ∧
          t.brPos = 0 ∧ SameEncoder s t ∧ t.phase = .lzw)

/-- R127: `START` with an illegal configuration raises `ConfigError` at position 0. -/
def Obligations.StartRejectsIllegalConfigurations : Prop :=
  ∀ s : State, s.stat.state ≠ .busy → ¬ LegalConfig s →
    ∃ t, exec .start s = .next t ∧ t.stat = { state := .error, err := .configError, errpos := 0 } ∧ t.outLen = 0 ∧
      SameHost s t

/-- R132 and R52: the host reads `OUT[0..OUT_LEN)` in DONE and no output in any other state. -/
def Obligations.ResultOnlyWhenDone : Prop :=
  ∀ s : State,
    (s.stat.state ≠ .done → hostResult s = none) ∧
      (s.stat.state = .done →
        ∃ l, hostResult s = some l ∧ l.length = s.outLen ∧ ∀ i, i < s.outLen → l[i]? = some (memRead s.outBuf i))

/-- R134: an invocation starts from the reset state whatever came before: two blocks with the same configuration and input, their
histories and their free values different, show the host the same status and the same result after every number of steps. -/
def Obligations.ResultsDoNotDependOnHistory : Prop :=
  ∀ (s s' a a' b : State) (n : Nat), s.stat.state ≠ .busy → s'.stat.state ≠ .busy → s.host = [] → s'.host = [] →
    Memory.wf s.outBuf → Memory.wf s'.outBuf → s'.maxInLen = s.maxInLen → s'.cfg = s.cfg → s'.inLen = s.inLen →
    (∀ i, i < s.inLen → memRead s'.inBuf i = memRead s.inBuf i) →
    exec .start s = .next a → exec .start s' = .next a' → Sys2Proof.core.run n a = .next b →
      ∃ b' : State, Sys2Proof.core.run n a' = .next b' ∧ b'.stat = b.stat ∧ hostResult b' = hostResult b

/-! ## The whole machine -/

/-- R154: what power-on leaves; nothing is said of the datapath registers, which R154 leaves unspecified. -/
def Obligations.ResetIsThePowerOnState : Prop :=
  State.reset.stat = { state := .idle, err := .none, errpos := 0 } ∧ State.reset.outLen = 0 ∧
    State.reset.cfg = { mode := .encode, pred := .none, roww := 0, explen := 0 } ∧ State.reset.inLen = 0

/-- The state after power-on satisfies the invariant. For the datapath registers this rests on the values log 2 chooses. -/
def Obligations.ResetSatisfiesTheInvariant : Prop :=
  Inv State.reset

/-- Every step keeps the invariant (R39, R40, R23, R31, R35; the canonical form of the buffers is the model's, log 6). -/
def Obligations.StepKeepsTheInvariant : Prop :=
  ∀ s t : State, Inv s → step s = .next t → Inv t

/-- R47: `IN` is immutable for the whole invocation, and so are `IN_LEN` and `CFG` (R42). -/
def Obligations.RunningBlockKeepsItsInput : Prop :=
  ∀ s t : State, s.stat.state = .busy → step s = .next t → SameHost s t

/-- R45: during the LZW pass `OUT` is append-only: a step that raises no fault never shortens it and never rewrites a byte. -/
def Obligations.OutputIsAppendOnly : Prop :=
  ∀ s t : State, s.stat.state = .busy → s.phase = .lzw → step s = .next t → t.stat.state ≠ .error →
    s.outLen ≤ t.outLen ∧ SameOutOutside s t

/-- R136, R116: an `ENCODE` followed by a `DECODE` of its output with the same predictor settings and `CFG.EXPLEN` the input's
length ends in DONE with the input. The premise on `MAX_IN_LEN` is what R127 asks of the second `START`. -/
def Obligations.DecodeUndoesEncode : Prop :=
  ∀ s a b c : State, s.stat.state ≠ .busy → s.cfg.mode = .encode → LegalConfig s → Memory.wf s.outBuf →
    exec .start s = .next a → exec .encode a = .next b →
    c.stat.state ≠ .busy → c.cfg.mode = .decode → c.cfg.pred = s.cfg.pred → c.cfg.roww = s.cfg.roww →
    c.cfg.explen = s.inLen → c.maxInLen = s.maxInLen → Memory.wf c.outBuf → c.inLen = b.outLen →
    b.outLen ≤ s.maxInLen → (∀ i, i < b.outLen → memRead c.inBuf i = memRead b.outBuf i) →
      ∃ d e, exec .start c = .next d ∧ exec .decode d = .next e ∧ e.stat.state = .done ∧
        hostResult e = some (inBytes s)
end

