-- ==== Sys2Proof/Laws/Memory.lean ====
section
/-! SUPPORT. What reading and writing a buffer do, and that every memory operation keeps the canonical form. -/

namespace Sys2Proof.Machine

theorem memRead_memCell_append_ne {a x : Nat} (b : Byte) (m : Memory) (h : x ≠ a) :
    memRead (memCell a b ++ m) x = memRead m x := by
  unfold memCell
  split
  · rfl
  · simp [memRead, Ne.symm h]

/-- A write leaves every other address alone. -/
theorem memRead_memWrite_ne {a x : Nat} (m : Memory) (b : Byte) (h : x ≠ a) :
    memRead (memWrite m a b) x = memRead m x := by
  induction m with
  | nil => simpa [memWrite] using memRead_memCell_append_ne b [] h
  | cons c m ih =>
    obtain ⟨k, v⟩ := c
    simp only [memWrite]
    split
    · exact memRead_memCell_append_ne b _ h
    · split
      · next h1 h2 => rw [memRead_memCell_append_ne b m h]; simp [memRead, ← h2, Ne.symm h]
      · simp [memRead, ih]

/-- An address below every listed one is unlisted. -/
theorem memRead_of_lt {m : Memory} {a : Nat} (h : ∀ c ∈ m, a < c.1) : memRead m a = unlistedByte := by
  induction m with
  | nil => rfl
  | cons c m ih =>
    have hc := h c (by simp)
    simp only [memRead]
    rw [if_neg (by omega)]
    exact ih fun d hd => h d (by simp [hd])

theorem memRead_memCell_append_self {a : Nat} (b : Byte) {m : Memory} (h : ∀ c ∈ m, a < c.1) :
    memRead (memCell a b ++ m) a = b := by
  unfold memCell
  split
  · next hb => simp [hb, memRead_of_lt h]
  · simp [memRead]

/-- A read after a write gives the value written. -/
theorem memRead_memWrite_self {m : Memory} (a : Nat) (b : Byte) (h : Memory.wf m) :
    memRead (memWrite m a b) a = b := by
  obtain ⟨hs, -⟩ := h
  induction m with
  | nil => simpa [memWrite] using memRead_memCell_append_self b (m := []) (a := a) (by simp)
  | cons c m ih =>
    rw [List.pairwise_cons] at hs
    simp only [memWrite]
    split
    · next hlt =>
      refine memRead_memCell_append_self b fun d hd => ?_
      rcases List.mem_cons.1 hd with rfl | hd
      · exact hlt
      · exact Nat.lt_trans hlt (hs.1 d hd)
    · split
      · next heq => exact memRead_memCell_append_self b fun d hd => heq ▸ hs.1 d hd
      · next hne => simp [memRead, Ne.symm hne, ih hs.2]

theorem memRead_memWrite {m : Memory} (a x : Nat) (b : Byte) (h : Memory.wf m) :
    memRead (memWrite m a b) x = if x = a then b else memRead m x := by
  split
  · next hx => rw [hx, memRead_memWrite_self a b h]
  · next hx => exact memRead_memWrite_ne m b hx

theorem mem_memCell {a : Nat} {b : Byte} {c : Host.Cell} (h : c ∈ memCell a b) : c.1 = a ∧ c.2 ≠ unlistedByte := by
  unfold memCell at h
  split at h
  · simp at h
  · next hb => simp only [List.mem_singleton] at h; subst h; exact ⟨rfl, hb⟩

theorem memCell_append_wf {a : Nat} (b : Byte) {m : Memory} (h : Memory.wf m) (hlt : ∀ c ∈ m, a < c.1) :
    Memory.wf (memCell a b ++ m) := by
  refine ⟨List.pairwise_append.2 ⟨?_, h.1, fun c hc d hd => (mem_memCell hc).1 ▸ hlt d hd⟩, fun c hc => ?_⟩
  · unfold memCell; split <;> simp
  · rcases List.mem_append.1 hc with hc | hc
    · exact (mem_memCell hc).2
    · exact h.2 c hc

/-- A cell of a written buffer is the written one or an old one. -/
theorem mem_memWrite {m : Memory} {a : Nat} {b : Byte} {c : Host.Cell} (h : c ∈ memWrite m a b) :
    c.1 = a ∨ c ∈ m := by
  induction m with
  | nil => exact .inl (mem_memCell (by simpa [memWrite] using h)).1
  | cons d m ih =>
    simp only [memWrite] at h
    split at h
    · rcases List.mem_append.1 h with h | h
      · exact .inl (mem_memCell h).1
      · exact .inr h
    · split at h
      · rcases List.mem_append.1 h with h | h
        · exact .inl (mem_memCell h).1
        · exact .inr (List.mem_cons_of_mem _ h)
      · rcases List.mem_cons.1 h with rfl | h
        · exact .inr (by simp)
        · exact (ih h).imp_right (List.mem_cons_of_mem _)

/-- A write keeps the canonical form. -/
theorem memWrite_wf {m : Memory} (a : Nat) (b : Byte) (h : Memory.wf m) : Memory.wf (memWrite m a b) := by
  induction m with
  | nil => simpa [memWrite] using memCell_append_wf b (m := []) (a := a) h (by simp)
  | cons c m ih =>
    have hs := List.pairwise_cons.1 h.1
    have hm : Memory.wf m := ⟨hs.2, fun d hd => h.2 d (by simp [hd])⟩
    simp only [memWrite]
    split
    · next hlt =>
      refine memCell_append_wf b h fun d hd => ?_
      rcases List.mem_cons.1 hd with rfl | hd
      · exact hlt
      · exact Nat.lt_trans hlt (hs.1 d hd)
    · next hge =>
      split
      · next heq => exact memCell_append_wf b hm fun d hd => heq ▸ hs.1 d hd
      · next hne =>
        refine ⟨List.pairwise_cons.2 ⟨fun d hd => ?_, (ih hm).1⟩, fun d hd => ?_⟩
        · rcases mem_memWrite hd with hd | hd
          · simp only; omega
          · exact hs.1 d hd
        · rcases List.mem_cons.1 hd with rfl | hd
          · exact h.2 _ (by simp)
          · exact (ih hm).2 d hd

/-- Writing a list keeps the canonical form. -/
theorem memWriteList_wf {m : Memory} (a : Nat) (bs : List Byte) (h : Memory.wf m) :
    Memory.wf (memWriteList m a bs) := by
  induction bs generalizing m a with
  | nil => exact h
  | cons b bs ih => exact ih (a + 1) (memWrite_wf a b h)

/-- Writing a list leaves every address outside it alone. -/
theorem memRead_memWriteList_outside (m : Memory) (a : Nat) (bs : List Byte) {x : Nat}
    (h : x < a ∨ a + bs.length ≤ x) : memRead (memWriteList m a bs) x = memRead m x := by
  induction bs generalizing m a with
  | nil => rfl
  | cons b bs ih =>
    simp only [List.length_cons] at h
    rw [memWriteList, ih _ (a + 1) (by omega), memRead_memWrite_ne m b (by omega)]

/-- Reading inside a written list gives its byte. -/
theorem memRead_memWriteList_inside {m : Memory} (a : Nat) (bs : List Byte) (h : Memory.wf m) {i : Nat}
    (hi : i < bs.length) : memRead (memWriteList m a bs) (a + i) = bs[i] := by
  induction bs generalizing m a i with
  | nil => simp at hi
  | cons b bs ih =>
    cases i with
    | zero =>
      rw [memWriteList, memRead_memWriteList_outside _ _ _ (by omega), Nat.add_zero, memRead_memWrite_self a b h]
      rfl
    | succ i =>
      have := ih (a + 1) (memWrite_wf a b h) (i := i) (by simpa using hi)
      rw [memWriteList, show a + (i + 1) = a + 1 + i by omega, this]
      rfl

/-- The empty buffer, that of reset, is in canonical form. -/
theorem nil_wf : Memory.wf ([] : Memory) := by simp [Memory.wf]

end Sys2Proof.Machine
end

