-- ==== Sys2Proof/Laws/State.lean ====
section
/-! SUPPORT. One lemma per field per update of State: the field updated holds the value, every other is unchanged. -/

namespace Sys2Proof.Machine

@[simp] theorem State.setCfg_maxInLen (s : State) (v : Cfg) : (s.setCfg v).maxInLen = s.maxInLen := rfl
@[simp] theorem State.setCfg_cfg (s : State) (v : Cfg) : (s.setCfg v).cfg = v := rfl
@[simp] theorem State.setCfg_inLen (s : State) (v : Cfg) : (s.setCfg v).inLen = s.inLen := rfl
@[simp] theorem State.setCfg_inBuf (s : State) (v : Cfg) : (s.setCfg v).inBuf = s.inBuf := rfl
@[simp] theorem State.setCfg_stat (s : State) (v : Cfg) : (s.setCfg v).stat = s.stat := rfl
@[simp] theorem State.setCfg_outLen (s : State) (v : Cfg) : (s.setCfg v).outLen = s.outLen := rfl
@[simp] theorem State.setCfg_outBuf (s : State) (v : Cfg) : (s.setCfg v).outBuf = s.outBuf := rfl
@[simp] theorem State.setCfg_enc (s : State) (v : Cfg) : (s.setCfg v).enc = s.enc := rfl
@[simp] theorem State.setCfg_bw (s : State) (v : Cfg) : (s.setCfg v).bw = s.bw := rfl
@[simp] theorem State.setCfg_dec (s : State) (v : Cfg) : (s.setCfg v).dec = s.dec := rfl
@[simp] theorem State.setCfg_brPos (s : State) (v : Cfg) : (s.setCfg v).brPos = s.brPos := rfl
@[simp] theorem State.setCfg_x (s : State) (v : Cfg) : (s.setCfg v).x = s.x := rfl
@[simp] theorem State.setCfg_phase (s : State) (v : Cfg) : (s.setCfg v).phase = s.phase := rfl
@[simp] theorem State.setCfg_ret (s : State) (v : Cfg) : (s.setCfg v).ret = s.ret := rfl
@[simp] theorem State.setCfg_host (s : State) (v : Cfg) : (s.setCfg v).host = s.host := rfl
@[simp] theorem State.setCfg_free (s : State) (v : Cfg) : (s.setCfg v).free = s.free := rfl

@[simp] theorem State.setInLen_maxInLen (s : State) (v : Nat) : (s.setInLen v).maxInLen = s.maxInLen := rfl
@[simp] theorem State.setInLen_cfg (s : State) (v : Nat) : (s.setInLen v).cfg = s.cfg := rfl
@[simp] theorem State.setInLen_inLen (s : State) (v : Nat) : (s.setInLen v).inLen = v := rfl
@[simp] theorem State.setInLen_inBuf (s : State) (v : Nat) : (s.setInLen v).inBuf = s.inBuf := rfl
@[simp] theorem State.setInLen_stat (s : State) (v : Nat) : (s.setInLen v).stat = s.stat := rfl
@[simp] theorem State.setInLen_outLen (s : State) (v : Nat) : (s.setInLen v).outLen = s.outLen := rfl
@[simp] theorem State.setInLen_outBuf (s : State) (v : Nat) : (s.setInLen v).outBuf = s.outBuf := rfl
@[simp] theorem State.setInLen_enc (s : State) (v : Nat) : (s.setInLen v).enc = s.enc := rfl
@[simp] theorem State.setInLen_bw (s : State) (v : Nat) : (s.setInLen v).bw = s.bw := rfl
@[simp] theorem State.setInLen_dec (s : State) (v : Nat) : (s.setInLen v).dec = s.dec := rfl
@[simp] theorem State.setInLen_brPos (s : State) (v : Nat) : (s.setInLen v).brPos = s.brPos := rfl
@[simp] theorem State.setInLen_x (s : State) (v : Nat) : (s.setInLen v).x = s.x := rfl
@[simp] theorem State.setInLen_phase (s : State) (v : Nat) : (s.setInLen v).phase = s.phase := rfl
@[simp] theorem State.setInLen_ret (s : State) (v : Nat) : (s.setInLen v).ret = s.ret := rfl
@[simp] theorem State.setInLen_host (s : State) (v : Nat) : (s.setInLen v).host = s.host := rfl
@[simp] theorem State.setInLen_free (s : State) (v : Nat) : (s.setInLen v).free = s.free := rfl

@[simp] theorem State.setIn_maxInLen (s : State) (v : Memory) : (s.setIn v).maxInLen = s.maxInLen := rfl
@[simp] theorem State.setIn_cfg (s : State) (v : Memory) : (s.setIn v).cfg = s.cfg := rfl
@[simp] theorem State.setIn_inLen (s : State) (v : Memory) : (s.setIn v).inLen = s.inLen := rfl
@[simp] theorem State.setIn_inBuf (s : State) (v : Memory) : (s.setIn v).inBuf = v := rfl
@[simp] theorem State.setIn_stat (s : State) (v : Memory) : (s.setIn v).stat = s.stat := rfl
@[simp] theorem State.setIn_outLen (s : State) (v : Memory) : (s.setIn v).outLen = s.outLen := rfl
@[simp] theorem State.setIn_outBuf (s : State) (v : Memory) : (s.setIn v).outBuf = s.outBuf := rfl
@[simp] theorem State.setIn_enc (s : State) (v : Memory) : (s.setIn v).enc = s.enc := rfl
@[simp] theorem State.setIn_bw (s : State) (v : Memory) : (s.setIn v).bw = s.bw := rfl
@[simp] theorem State.setIn_dec (s : State) (v : Memory) : (s.setIn v).dec = s.dec := rfl
@[simp] theorem State.setIn_brPos (s : State) (v : Memory) : (s.setIn v).brPos = s.brPos := rfl
@[simp] theorem State.setIn_x (s : State) (v : Memory) : (s.setIn v).x = s.x := rfl
@[simp] theorem State.setIn_phase (s : State) (v : Memory) : (s.setIn v).phase = s.phase := rfl
@[simp] theorem State.setIn_ret (s : State) (v : Memory) : (s.setIn v).ret = s.ret := rfl
@[simp] theorem State.setIn_host (s : State) (v : Memory) : (s.setIn v).host = s.host := rfl
@[simp] theorem State.setIn_free (s : State) (v : Memory) : (s.setIn v).free = s.free := rfl

@[simp] theorem State.setStat_maxInLen (s : State) (v : Stat) : (s.setStat v).maxInLen = s.maxInLen := rfl
@[simp] theorem State.setStat_cfg (s : State) (v : Stat) : (s.setStat v).cfg = s.cfg := rfl
@[simp] theorem State.setStat_inLen (s : State) (v : Stat) : (s.setStat v).inLen = s.inLen := rfl
@[simp] theorem State.setStat_inBuf (s : State) (v : Stat) : (s.setStat v).inBuf = s.inBuf := rfl
@[simp] theorem State.setStat_stat (s : State) (v : Stat) : (s.setStat v).stat = v := rfl
@[simp] theorem State.setStat_outLen (s : State) (v : Stat) : (s.setStat v).outLen = s.outLen := rfl
@[simp] theorem State.setStat_outBuf (s : State) (v : Stat) : (s.setStat v).outBuf = s.outBuf := rfl
@[simp] theorem State.setStat_enc (s : State) (v : Stat) : (s.setStat v).enc = s.enc := rfl
@[simp] theorem State.setStat_bw (s : State) (v : Stat) : (s.setStat v).bw = s.bw := rfl
@[simp] theorem State.setStat_dec (s : State) (v : Stat) : (s.setStat v).dec = s.dec := rfl
@[simp] theorem State.setStat_brPos (s : State) (v : Stat) : (s.setStat v).brPos = s.brPos := rfl
@[simp] theorem State.setStat_x (s : State) (v : Stat) : (s.setStat v).x = s.x := rfl
@[simp] theorem State.setStat_phase (s : State) (v : Stat) : (s.setStat v).phase = s.phase := rfl
@[simp] theorem State.setStat_ret (s : State) (v : Stat) : (s.setStat v).ret = s.ret := rfl
@[simp] theorem State.setStat_host (s : State) (v : Stat) : (s.setStat v).host = s.host := rfl
@[simp] theorem State.setStat_free (s : State) (v : Stat) : (s.setStat v).free = s.free := rfl

@[simp] theorem State.setOutLen_maxInLen (s : State) (v : Nat) : (s.setOutLen v).maxInLen = s.maxInLen := rfl
@[simp] theorem State.setOutLen_cfg (s : State) (v : Nat) : (s.setOutLen v).cfg = s.cfg := rfl
@[simp] theorem State.setOutLen_inLen (s : State) (v : Nat) : (s.setOutLen v).inLen = s.inLen := rfl
@[simp] theorem State.setOutLen_inBuf (s : State) (v : Nat) : (s.setOutLen v).inBuf = s.inBuf := rfl
@[simp] theorem State.setOutLen_stat (s : State) (v : Nat) : (s.setOutLen v).stat = s.stat := rfl
@[simp] theorem State.setOutLen_outLen (s : State) (v : Nat) : (s.setOutLen v).outLen = v := rfl
@[simp] theorem State.setOutLen_outBuf (s : State) (v : Nat) : (s.setOutLen v).outBuf = s.outBuf := rfl
@[simp] theorem State.setOutLen_enc (s : State) (v : Nat) : (s.setOutLen v).enc = s.enc := rfl
@[simp] theorem State.setOutLen_bw (s : State) (v : Nat) : (s.setOutLen v).bw = s.bw := rfl
@[simp] theorem State.setOutLen_dec (s : State) (v : Nat) : (s.setOutLen v).dec = s.dec := rfl
@[simp] theorem State.setOutLen_brPos (s : State) (v : Nat) : (s.setOutLen v).brPos = s.brPos := rfl
@[simp] theorem State.setOutLen_x (s : State) (v : Nat) : (s.setOutLen v).x = s.x := rfl
@[simp] theorem State.setOutLen_phase (s : State) (v : Nat) : (s.setOutLen v).phase = s.phase := rfl
@[simp] theorem State.setOutLen_ret (s : State) (v : Nat) : (s.setOutLen v).ret = s.ret := rfl
@[simp] theorem State.setOutLen_host (s : State) (v : Nat) : (s.setOutLen v).host = s.host := rfl
@[simp] theorem State.setOutLen_free (s : State) (v : Nat) : (s.setOutLen v).free = s.free := rfl

@[simp] theorem State.setOut_maxInLen (s : State) (v : Memory) : (s.setOut v).maxInLen = s.maxInLen := rfl
@[simp] theorem State.setOut_cfg (s : State) (v : Memory) : (s.setOut v).cfg = s.cfg := rfl
@[simp] theorem State.setOut_inLen (s : State) (v : Memory) : (s.setOut v).inLen = s.inLen := rfl
@[simp] theorem State.setOut_inBuf (s : State) (v : Memory) : (s.setOut v).inBuf = s.inBuf := rfl
@[simp] theorem State.setOut_stat (s : State) (v : Memory) : (s.setOut v).stat = s.stat := rfl
@[simp] theorem State.setOut_outLen (s : State) (v : Memory) : (s.setOut v).outLen = s.outLen := rfl
@[simp] theorem State.setOut_outBuf (s : State) (v : Memory) : (s.setOut v).outBuf = v := rfl
@[simp] theorem State.setOut_enc (s : State) (v : Memory) : (s.setOut v).enc = s.enc := rfl
@[simp] theorem State.setOut_bw (s : State) (v : Memory) : (s.setOut v).bw = s.bw := rfl
@[simp] theorem State.setOut_dec (s : State) (v : Memory) : (s.setOut v).dec = s.dec := rfl
@[simp] theorem State.setOut_brPos (s : State) (v : Memory) : (s.setOut v).brPos = s.brPos := rfl
@[simp] theorem State.setOut_x (s : State) (v : Memory) : (s.setOut v).x = s.x := rfl
@[simp] theorem State.setOut_phase (s : State) (v : Memory) : (s.setOut v).phase = s.phase := rfl
@[simp] theorem State.setOut_ret (s : State) (v : Memory) : (s.setOut v).ret = s.ret := rfl
@[simp] theorem State.setOut_host (s : State) (v : Memory) : (s.setOut v).host = s.host := rfl
@[simp] theorem State.setOut_free (s : State) (v : Memory) : (s.setOut v).free = s.free := rfl

@[simp] theorem State.setEnc_maxInLen (s : State) (v : Enc) : (s.setEnc v).maxInLen = s.maxInLen := rfl
@[simp] theorem State.setEnc_cfg (s : State) (v : Enc) : (s.setEnc v).cfg = s.cfg := rfl
@[simp] theorem State.setEnc_inLen (s : State) (v : Enc) : (s.setEnc v).inLen = s.inLen := rfl
@[simp] theorem State.setEnc_inBuf (s : State) (v : Enc) : (s.setEnc v).inBuf = s.inBuf := rfl
@[simp] theorem State.setEnc_stat (s : State) (v : Enc) : (s.setEnc v).stat = s.stat := rfl
@[simp] theorem State.setEnc_outLen (s : State) (v : Enc) : (s.setEnc v).outLen = s.outLen := rfl
@[simp] theorem State.setEnc_outBuf (s : State) (v : Enc) : (s.setEnc v).outBuf = s.outBuf := rfl
@[simp] theorem State.setEnc_enc (s : State) (v : Enc) : (s.setEnc v).enc = v := rfl
@[simp] theorem State.setEnc_bw (s : State) (v : Enc) : (s.setEnc v).bw = s.bw := rfl
@[simp] theorem State.setEnc_dec (s : State) (v : Enc) : (s.setEnc v).dec = s.dec := rfl
@[simp] theorem State.setEnc_brPos (s : State) (v : Enc) : (s.setEnc v).brPos = s.brPos := rfl
@[simp] theorem State.setEnc_x (s : State) (v : Enc) : (s.setEnc v).x = s.x := rfl
@[simp] theorem State.setEnc_phase (s : State) (v : Enc) : (s.setEnc v).phase = s.phase := rfl
@[simp] theorem State.setEnc_ret (s : State) (v : Enc) : (s.setEnc v).ret = s.ret := rfl
@[simp] theorem State.setEnc_host (s : State) (v : Enc) : (s.setEnc v).host = s.host := rfl
@[simp] theorem State.setEnc_free (s : State) (v : Enc) : (s.setEnc v).free = s.free := rfl

@[simp] theorem State.setBw_maxInLen (s : State) (v : Bw) : (s.setBw v).maxInLen = s.maxInLen := rfl
@[simp] theorem State.setBw_cfg (s : State) (v : Bw) : (s.setBw v).cfg = s.cfg := rfl
@[simp] theorem State.setBw_inLen (s : State) (v : Bw) : (s.setBw v).inLen = s.inLen := rfl
@[simp] theorem State.setBw_inBuf (s : State) (v : Bw) : (s.setBw v).inBuf = s.inBuf := rfl
@[simp] theorem State.setBw_stat (s : State) (v : Bw) : (s.setBw v).stat = s.stat := rfl
@[simp] theorem State.setBw_outLen (s : State) (v : Bw) : (s.setBw v).outLen = s.outLen := rfl
@[simp] theorem State.setBw_outBuf (s : State) (v : Bw) : (s.setBw v).outBuf = s.outBuf := rfl
@[simp] theorem State.setBw_enc (s : State) (v : Bw) : (s.setBw v).enc = s.enc := rfl
@[simp] theorem State.setBw_bw (s : State) (v : Bw) : (s.setBw v).bw = v := rfl
@[simp] theorem State.setBw_dec (s : State) (v : Bw) : (s.setBw v).dec = s.dec := rfl
@[simp] theorem State.setBw_brPos (s : State) (v : Bw) : (s.setBw v).brPos = s.brPos := rfl
@[simp] theorem State.setBw_x (s : State) (v : Bw) : (s.setBw v).x = s.x := rfl
@[simp] theorem State.setBw_phase (s : State) (v : Bw) : (s.setBw v).phase = s.phase := rfl
@[simp] theorem State.setBw_ret (s : State) (v : Bw) : (s.setBw v).ret = s.ret := rfl
@[simp] theorem State.setBw_host (s : State) (v : Bw) : (s.setBw v).host = s.host := rfl
@[simp] theorem State.setBw_free (s : State) (v : Bw) : (s.setBw v).free = s.free := rfl

@[simp] theorem State.setDec_maxInLen (s : State) (v : Dec) : (s.setDec v).maxInLen = s.maxInLen := rfl
@[simp] theorem State.setDec_cfg (s : State) (v : Dec) : (s.setDec v).cfg = s.cfg := rfl
@[simp] theorem State.setDec_inLen (s : State) (v : Dec) : (s.setDec v).inLen = s.inLen := rfl
@[simp] theorem State.setDec_inBuf (s : State) (v : Dec) : (s.setDec v).inBuf = s.inBuf := rfl
@[simp] theorem State.setDec_stat (s : State) (v : Dec) : (s.setDec v).stat = s.stat := rfl
@[simp] theorem State.setDec_outLen (s : State) (v : Dec) : (s.setDec v).outLen = s.outLen := rfl
@[simp] theorem State.setDec_outBuf (s : State) (v : Dec) : (s.setDec v).outBuf = s.outBuf := rfl
@[simp] theorem State.setDec_enc (s : State) (v : Dec) : (s.setDec v).enc = s.enc := rfl
@[simp] theorem State.setDec_bw (s : State) (v : Dec) : (s.setDec v).bw = s.bw := rfl
@[simp] theorem State.setDec_dec (s : State) (v : Dec) : (s.setDec v).dec = v := rfl
@[simp] theorem State.setDec_brPos (s : State) (v : Dec) : (s.setDec v).brPos = s.brPos := rfl
@[simp] theorem State.setDec_x (s : State) (v : Dec) : (s.setDec v).x = s.x := rfl
@[simp] theorem State.setDec_phase (s : State) (v : Dec) : (s.setDec v).phase = s.phase := rfl
@[simp] theorem State.setDec_ret (s : State) (v : Dec) : (s.setDec v).ret = s.ret := rfl
@[simp] theorem State.setDec_host (s : State) (v : Dec) : (s.setDec v).host = s.host := rfl
@[simp] theorem State.setDec_free (s : State) (v : Dec) : (s.setDec v).free = s.free := rfl

@[simp] theorem State.setBrPos_maxInLen (s : State) (v : Nat) : (s.setBrPos v).maxInLen = s.maxInLen := rfl
@[simp] theorem State.setBrPos_cfg (s : State) (v : Nat) : (s.setBrPos v).cfg = s.cfg := rfl
@[simp] theorem State.setBrPos_inLen (s : State) (v : Nat) : (s.setBrPos v).inLen = s.inLen := rfl
@[simp] theorem State.setBrPos_inBuf (s : State) (v : Nat) : (s.setBrPos v).inBuf = s.inBuf := rfl
@[simp] theorem State.setBrPos_stat (s : State) (v : Nat) : (s.setBrPos v).stat = s.stat := rfl
@[simp] theorem State.setBrPos_outLen (s : State) (v : Nat) : (s.setBrPos v).outLen = s.outLen := rfl
@[simp] theorem State.setBrPos_outBuf (s : State) (v : Nat) : (s.setBrPos v).outBuf = s.outBuf := rfl
@[simp] theorem State.setBrPos_enc (s : State) (v : Nat) : (s.setBrPos v).enc = s.enc := rfl
@[simp] theorem State.setBrPos_bw (s : State) (v : Nat) : (s.setBrPos v).bw = s.bw := rfl
@[simp] theorem State.setBrPos_dec (s : State) (v : Nat) : (s.setBrPos v).dec = s.dec := rfl
@[simp] theorem State.setBrPos_brPos (s : State) (v : Nat) : (s.setBrPos v).brPos = v := rfl
@[simp] theorem State.setBrPos_x (s : State) (v : Nat) : (s.setBrPos v).x = s.x := rfl
@[simp] theorem State.setBrPos_phase (s : State) (v : Nat) : (s.setBrPos v).phase = s.phase := rfl
@[simp] theorem State.setBrPos_ret (s : State) (v : Nat) : (s.setBrPos v).ret = s.ret := rfl
@[simp] theorem State.setBrPos_host (s : State) (v : Nat) : (s.setBrPos v).host = s.host := rfl
@[simp] theorem State.setBrPos_free (s : State) (v : Nat) : (s.setBrPos v).free = s.free := rfl

@[simp] theorem State.setX_maxInLen (s : State) (v : List Byte) : (s.setX v).maxInLen = s.maxInLen := rfl
@[simp] theorem State.setX_cfg (s : State) (v : List Byte) : (s.setX v).cfg = s.cfg := rfl
@[simp] theorem State.setX_inLen (s : State) (v : List Byte) : (s.setX v).inLen = s.inLen := rfl
@[simp] theorem State.setX_inBuf (s : State) (v : List Byte) : (s.setX v).inBuf = s.inBuf := rfl
@[simp] theorem State.setX_stat (s : State) (v : List Byte) : (s.setX v).stat = s.stat := rfl
@[simp] theorem State.setX_outLen (s : State) (v : List Byte) : (s.setX v).outLen = s.outLen := rfl
@[simp] theorem State.setX_outBuf (s : State) (v : List Byte) : (s.setX v).outBuf = s.outBuf := rfl
@[simp] theorem State.setX_enc (s : State) (v : List Byte) : (s.setX v).enc = s.enc := rfl
@[simp] theorem State.setX_bw (s : State) (v : List Byte) : (s.setX v).bw = s.bw := rfl
@[simp] theorem State.setX_dec (s : State) (v : List Byte) : (s.setX v).dec = s.dec := rfl
@[simp] theorem State.setX_brPos (s : State) (v : List Byte) : (s.setX v).brPos = s.brPos := rfl
@[simp] theorem State.setX_x (s : State) (v : List Byte) : (s.setX v).x = v := rfl
@[simp] theorem State.setX_phase (s : State) (v : List Byte) : (s.setX v).phase = s.phase := rfl
@[simp] theorem State.setX_ret (s : State) (v : List Byte) : (s.setX v).ret = s.ret := rfl
@[simp] theorem State.setX_host (s : State) (v : List Byte) : (s.setX v).host = s.host := rfl
@[simp] theorem State.setX_free (s : State) (v : List Byte) : (s.setX v).free = s.free := rfl

@[simp] theorem State.setPhase_maxInLen (s : State) (v : Phase) : (s.setPhase v).maxInLen = s.maxInLen := rfl
@[simp] theorem State.setPhase_cfg (s : State) (v : Phase) : (s.setPhase v).cfg = s.cfg := rfl
@[simp] theorem State.setPhase_inLen (s : State) (v : Phase) : (s.setPhase v).inLen = s.inLen := rfl
@[simp] theorem State.setPhase_inBuf (s : State) (v : Phase) : (s.setPhase v).inBuf = s.inBuf := rfl
@[simp] theorem State.setPhase_stat (s : State) (v : Phase) : (s.setPhase v).stat = s.stat := rfl
@[simp] theorem State.setPhase_outLen (s : State) (v : Phase) : (s.setPhase v).outLen = s.outLen := rfl
@[simp] theorem State.setPhase_outBuf (s : State) (v : Phase) : (s.setPhase v).outBuf = s.outBuf := rfl
@[simp] theorem State.setPhase_enc (s : State) (v : Phase) : (s.setPhase v).enc = s.enc := rfl
@[simp] theorem State.setPhase_bw (s : State) (v : Phase) : (s.setPhase v).bw = s.bw := rfl
@[simp] theorem State.setPhase_dec (s : State) (v : Phase) : (s.setPhase v).dec = s.dec := rfl
@[simp] theorem State.setPhase_brPos (s : State) (v : Phase) : (s.setPhase v).brPos = s.brPos := rfl
@[simp] theorem State.setPhase_x (s : State) (v : Phase) : (s.setPhase v).x = s.x := rfl
@[simp] theorem State.setPhase_phase (s : State) (v : Phase) : (s.setPhase v).phase = v := rfl
@[simp] theorem State.setPhase_ret (s : State) (v : Phase) : (s.setPhase v).ret = s.ret := rfl
@[simp] theorem State.setPhase_host (s : State) (v : Phase) : (s.setPhase v).host = s.host := rfl
@[simp] theorem State.setPhase_free (s : State) (v : Phase) : (s.setPhase v).free = s.free := rfl

@[simp] theorem State.setRet_maxInLen (s : State) (v : Ret) : (s.setRet v).maxInLen = s.maxInLen := rfl
@[simp] theorem State.setRet_cfg (s : State) (v : Ret) : (s.setRet v).cfg = s.cfg := rfl
@[simp] theorem State.setRet_inLen (s : State) (v : Ret) : (s.setRet v).inLen = s.inLen := rfl
@[simp] theorem State.setRet_inBuf (s : State) (v : Ret) : (s.setRet v).inBuf = s.inBuf := rfl
@[simp] theorem State.setRet_stat (s : State) (v : Ret) : (s.setRet v).stat = s.stat := rfl
@[simp] theorem State.setRet_outLen (s : State) (v : Ret) : (s.setRet v).outLen = s.outLen := rfl
@[simp] theorem State.setRet_outBuf (s : State) (v : Ret) : (s.setRet v).outBuf = s.outBuf := rfl
@[simp] theorem State.setRet_enc (s : State) (v : Ret) : (s.setRet v).enc = s.enc := rfl
@[simp] theorem State.setRet_bw (s : State) (v : Ret) : (s.setRet v).bw = s.bw := rfl
@[simp] theorem State.setRet_dec (s : State) (v : Ret) : (s.setRet v).dec = s.dec := rfl
@[simp] theorem State.setRet_brPos (s : State) (v : Ret) : (s.setRet v).brPos = s.brPos := rfl
@[simp] theorem State.setRet_x (s : State) (v : Ret) : (s.setRet v).x = s.x := rfl
@[simp] theorem State.setRet_phase (s : State) (v : Ret) : (s.setRet v).phase = s.phase := rfl
@[simp] theorem State.setRet_ret (s : State) (v : Ret) : (s.setRet v).ret = v := rfl
@[simp] theorem State.setRet_host (s : State) (v : Ret) : (s.setRet v).host = s.host := rfl
@[simp] theorem State.setRet_free (s : State) (v : Ret) : (s.setRet v).free = s.free := rfl

@[simp] theorem State.setHost_maxInLen (s : State) (v : List HostAct) : (s.setHost v).maxInLen = s.maxInLen := rfl
@[simp] theorem State.setHost_cfg (s : State) (v : List HostAct) : (s.setHost v).cfg = s.cfg := rfl
@[simp] theorem State.setHost_inLen (s : State) (v : List HostAct) : (s.setHost v).inLen = s.inLen := rfl
@[simp] theorem State.setHost_inBuf (s : State) (v : List HostAct) : (s.setHost v).inBuf = s.inBuf := rfl
@[simp] theorem State.setHost_stat (s : State) (v : List HostAct) : (s.setHost v).stat = s.stat := rfl
@[simp] theorem State.setHost_outLen (s : State) (v : List HostAct) : (s.setHost v).outLen = s.outLen := rfl
@[simp] theorem State.setHost_outBuf (s : State) (v : List HostAct) : (s.setHost v).outBuf = s.outBuf := rfl
@[simp] theorem State.setHost_enc (s : State) (v : List HostAct) : (s.setHost v).enc = s.enc := rfl
@[simp] theorem State.setHost_bw (s : State) (v : List HostAct) : (s.setHost v).bw = s.bw := rfl
@[simp] theorem State.setHost_dec (s : State) (v : List HostAct) : (s.setHost v).dec = s.dec := rfl
@[simp] theorem State.setHost_brPos (s : State) (v : List HostAct) : (s.setHost v).brPos = s.brPos := rfl
@[simp] theorem State.setHost_x (s : State) (v : List HostAct) : (s.setHost v).x = s.x := rfl
@[simp] theorem State.setHost_phase (s : State) (v : List HostAct) : (s.setHost v).phase = s.phase := rfl
@[simp] theorem State.setHost_ret (s : State) (v : List HostAct) : (s.setHost v).ret = s.ret := rfl
@[simp] theorem State.setHost_host (s : State) (v : List HostAct) : (s.setHost v).host = v := rfl
@[simp] theorem State.setHost_free (s : State) (v : List HostAct) : (s.setHost v).free = s.free := rfl

@[simp] theorem State.setFree_maxInLen (s : State) (v : Nat) : (s.setFree v).maxInLen = s.maxInLen := rfl
@[simp] theorem State.setFree_cfg (s : State) (v : Nat) : (s.setFree v).cfg = s.cfg := rfl
@[simp] theorem State.setFree_inLen (s : State) (v : Nat) : (s.setFree v).inLen = s.inLen := rfl
@[simp] theorem State.setFree_inBuf (s : State) (v : Nat) : (s.setFree v).inBuf = s.inBuf := rfl
@[simp] theorem State.setFree_stat (s : State) (v : Nat) : (s.setFree v).stat = s.stat := rfl
@[simp] theorem State.setFree_outLen (s : State) (v : Nat) : (s.setFree v).outLen = s.outLen := rfl
@[simp] theorem State.setFree_outBuf (s : State) (v : Nat) : (s.setFree v).outBuf = s.outBuf := rfl
@[simp] theorem State.setFree_enc (s : State) (v : Nat) : (s.setFree v).enc = s.enc := rfl
@[simp] theorem State.setFree_bw (s : State) (v : Nat) : (s.setFree v).bw = s.bw := rfl
@[simp] theorem State.setFree_dec (s : State) (v : Nat) : (s.setFree v).dec = s.dec := rfl
@[simp] theorem State.setFree_brPos (s : State) (v : Nat) : (s.setFree v).brPos = s.brPos := rfl
@[simp] theorem State.setFree_x (s : State) (v : Nat) : (s.setFree v).x = s.x := rfl
@[simp] theorem State.setFree_phase (s : State) (v : Nat) : (s.setFree v).phase = s.phase := rfl
@[simp] theorem State.setFree_ret (s : State) (v : Nat) : (s.setFree v).ret = s.ret := rfl
@[simp] theorem State.setFree_host (s : State) (v : Nat) : (s.setFree v).host = s.host := rfl
@[simp] theorem State.setFree_free (s : State) (v : Nat) : (s.setFree v).free = v := rfl

end Sys2Proof.Machine
end

