-- ==== Sys2Proof/Laws/Ops.lean ====
section
/-! SUPPORT. What appending to the output and taking a fault do, field by field. -/

namespace Sys2Proof.Machine

/-! ## outAppend, outAppendAll -/

/-- Appending writes `OUT` and `OUT_LEN` alone: the rest of the state is kept. -/
theorem outAppend_eq (b : Byte) (s : State) :
    outAppend b s = { s with outBuf := memWrite s.outBuf s.outLen b, outLen := s.outLen + 1 } := rfl

/-- Appending a sequence writes `OUT` at `OUT_LEN` and advances `OUT_LEN`; the rest of the state is kept. -/
theorem outAppendAll_eq (seq : List Byte) (s : State) :
    outAppendAll seq s =
      { s with outBuf := memWriteList s.outBuf s.outLen seq, outLen := s.outLen + seq.length } := by
  induction seq generalizing s with
  | nil => rfl
  | cons b bs ih =>
    show outAppendAll bs (outAppend b s) = _
    rw [ih, outAppend_eq]
    simp [memWriteList, Nat.add_assoc, Nat.add_comm 1]

/-- The output bytes after a sequence is appended. -/
theorem outBytes_outAppendAll (seq : List Byte) (s : State) (h : Memory.wf s.outBuf) :
    outBytes (outAppendAll seq s) = outBytes s ++ seq := by
  rw [outAppendAll_eq]
  apply List.ext_getElem
  · simp [outBytes]
  · intro i h1 h2
    simp only [outBytes, List.getElem_map, List.getElem_range]
    by_cases hi : i < s.outLen
    · rw [memRead_memWriteList_outside _ _ _ (.inl hi), List.getElem_append_left (by simpa using hi)]
      simp
    · have hlen : i - s.outLen < seq.length := by simp [outBytes] at h1; omega
      have := memRead_memWriteList_inside s.outLen seq h hlen
      rw [show s.outLen + (i - s.outLen) = i by omega] at this
      rw [this, List.getElem_append_right (by simpa using hi)]
      simp

/-- Appending keeps the canonical form of `OUT`. -/
theorem outAppendAll_wf (seq : List Byte) (s : State) (h : Memory.wf s.outBuf) :
    Memory.wf (outAppendAll seq s).outBuf := by
  rw [outAppendAll_eq]
  exact memWriteList_wf _ _ h

/-! ## raiseFault -/

/-- Everything a fault writes: the status record, `OUT_LEN`, the unspecified `OUT`, the free-value counter. -/
theorem raiseFault_eq (k : ErrKind) (p : Nat) (s : State) :
    raiseFault k p s =
      { s with
        stat := { state := .error, err := k, errpos := p }, outLen := 0,
        outBuf := memWriteList [] 0 (Config.freeBytes s.free), free := s.free + 1 } := rfl

/-- The contents of `OUT` after a fault, unspecified as they are, are in canonical form. -/
theorem raiseFault_wf (k : ErrKind) (p : Nat) (s : State) : Memory.wf (raiseFault k p s).outBuf :=
  memWriteList_wf 0 _ nil_wf

/-- Setting the run state writes `STAT.STATE` alone. -/
theorem setRunState_eq (r : RunState) (s : State) :
    setRunState r s = { s with stat := { s.stat with state := r } } := rfl

end Sys2Proof.Machine
end

