-- ==== Sys2Proof/Laws/BitStream.lean ====
section
/-! SUPPORT. What the packer and the unpacker can do: the packer's frame once, the unpacker's two outcomes once. -/

namespace Sys2Proof.Machine

/-- What any use of the packer does to the state: it writes `BW.*`, `OUT` and `OUT_LEN` alone, never shortens the output, never
changes a byte already appended, keeps the canonical form and the bound of the pending bits (R26, R45). -/
structure WritesStream (s t : State) : Prop where
  frame : t = { s with bw := t.bw, outBuf := t.outBuf, outLen := t.outLen }
  grows : s.outLen ≤ t.outLen
  kept : ∀ a, a < s.outLen ∨ t.outLen ≤ a → memRead t.outBuf a = memRead s.outBuf a
  wf : Memory.wf s.outBuf → Memory.wf t.outBuf
  acc : s.bw.acc.toNat < 2 ^ s.bw.cnt.toNat → t.bw.acc.toNat < 2 ^ t.bw.cnt.toNat

theorem WritesStream.refl (s : State) : WritesStream s s :=
  ⟨rfl, le_rfl, fun _ _ => rfl, id, id⟩

theorem WritesStream.trans {s t u : State} (h : WritesStream s t) (k : WritesStream t u) : WritesStream s u where
  frame := by rw [k.frame, h.frame]
  grows := h.grows.trans k.grows
  kept a ha := by
    have h1 := h.grows
    have h2 := k.grows
    rw [k.kept a (by omega), h.kept a (by omega)]
  wf := k.wf ∘ h.wf
  acc := k.acc ∘ h.acc

/-- A bit written (R79): it uses the packer alone. -/
theorem writeBit_writes (s : State) (b : Bool) : WritesStream s (writeBit s b) := by
  unfold writeBit
  split
  · refine ⟨rfl, Nat.le_succ _, fun a ha => ?_, fun h => ?_, fun _ => by simp⟩
    · exact memRead_memWrite_ne _ _ (by simp only [outAppend_eq, State.setBw_outLen] at ha; omega)
    · exact memWrite_wf _ _ h
  · next hc =>
    refine ⟨rfl, le_rfl, fun _ _ => rfl, id, fun h => ?_⟩
    have hb : b.toNat ≤ 1 := by cases b <;> simp
    have hc8 := s.bw.cnt.isLt
    have hc1 : (s.bw.cnt + 1).toNat = s.bw.cnt.toNat + 1 := by
      rw [BitVec.toNat_add]; simp; omega
    have h2 : s.bw.acc.toNat * 2 + b.toNat < 2 ^ (s.bw.cnt.toNat + 1) := by rw [Nat.pow_succ]; omega
    simp only [State.setBw_bw, BitVec.toNat_ofNat, hc1]
    exact Nat.lt_of_le_of_lt (Nat.mod_le _ _) h2

/-- `writeCode` (R79) uses the packer alone. -/
theorem writeCodeBits_writes (v : Code) (w : Width) (s : State) : WritesStream s (writeCodeBits v w s) := by
  unfold writeCodeBits
  generalize codeBits w.bits v.toNat = bs
  induction bs generalizing s with
  | nil => exact WritesStream.refl s
  | cons b bs ih => exact (writeBit_writes s b).trans (ih _)

/-- `flush` (R81) uses the packer alone. -/
theorem flushBits_writes (s : State) : WritesStream s (flushBits s) := by
  unfold flushBits
  split
  · refine ⟨rfl, Nat.le_succ _, fun a ha => ?_, fun h => ?_, fun _ => by simp⟩
    · exact memRead_memWrite_ne _ _ (by simp only [outAppend_eq, State.setBw_outLen] at ha; omega)
    · exact memWrite_wf _ _ h
  · exact WritesStream.refl s

/-- `readCode` (R83) either faults at the cursor, no bit consumed, or returns the code and advances the cursor. -/
theorem readBits_cases (w : Width) (s : State) :
    (8 * s.inLen - s.brPos < w.bits ∧ readBits w s = .error (raiseFault .unexpectedEndOfStream s.brPos s)) ∨
      (w.bits ≤ 8 * s.inLen - s.brPos ∧ ∃ c : Code, c = BitVec.ofNat 12 (codeAt (memRead s.inBuf) s.brPos w.bits) ∧
        readBits w s = .ok (c, { s with brPos := s.brPos + w.bits, ret := .code c })) := by
  unfold readBits
  split
  · next h => exact .inl ⟨h, rfl⟩
  · next h => exact .inr ⟨Nat.le_of_not_lt h, _, rfl, rfl⟩

/-- A width is 9 to 12 bits (R6). -/
theorem Width_bits_bounds (w : Width) : 9 ≤ w.bits ∧ w.bits ≤ 12 := by
  cases w <;> decide

end Sys2Proof.Machine
end

