-- ==== Sys2Proof/Laws/Decoder.lean ====
section
/-! SUPPORT. What each operation of the decoder can do when it answers a next state. -/

namespace Sys2Proof.Machine

/-! ## The table -/

/-- After `D.TABLE[c := seq]` the code gives `seq`. -/
theorem tableFind_tableSet_self (t : List TableEntry) (c : Code) (seq : List Byte) :
    tableFind (tableSet t c seq) c = some seq := by
  have : (t.filter fun e => !(e.code == c)).find? (fun e => e.code == c) = none := by
    rw [List.find?_eq_none]
    intro e he
    simpa using (List.mem_filter.1 he).2
  simp [tableFind, tableSet, List.find?_append, this]

/-- After `D.TABLE[c := seq]` every other code gives what it gave. -/
theorem tableFind_tableSet_ne (t : List TableEntry) {c k : Code} (seq : List Byte) (h : k ≠ c) :
    tableFind (tableSet t c seq) k = tableFind t k := by
  have key : (t.filter fun e => !(e.code == c)).find? (fun e => e.code == k) = t.find? fun e => e.code == k := by
    induction t with
    | nil => rfl
    | cons e t ih =>
      rw [List.filter_cons]
      by_cases he : e.code = c
      · have hk : (e.code == k) = false := beq_eq_false_iff_ne.2 fun hh => h (hh ▸ he)
        rw [beq_iff_eq.2 he, List.find?_cons, hk]
        exact ih
      · simp only [beq_eq_false_iff_ne.2 he, Bool.not_false, if_true, List.find?_cons]
        split
        · rfl
        · exact ih
  simp [tableFind, tableSet, List.find?_append, key, Ne.symm h]

/-! ## The classes -/

/-- The class of a code (R64) with the constants as numerals, for case splits. -/
theorem classify_eq (n : Nat) (v : Bool) (c : Nat) :
    classify n v c =
      if c = 256 then .clr
      else if c = 257 then .eoi
      else if n < c ∨ (c = n ∧ v = false) then .inv
      else if c < 256 then .lit
      else if c < n then .dict
      else .kwk := rfl

/-! ## The fetch -/

/-- `DEC.FETCH` (R103): the fault of `readCode`, or the code, with `start` latched either way. -/
theorem decFetch_cases (s : State) :
    (8 * s.inLen - s.brPos < (decWidth s).bits ∧
        decFetch s =
          .error (raiseFault .unexpectedEndOfStream s.brPos { s with dec := { s.dec with start := s.brPos } })) ∨
      ((decWidth s).bits ≤ 8 * s.inLen - s.brPos ∧ ∃ c : Code,
        c = BitVec.ofNat 12 (codeAt (memRead s.inBuf) s.brPos (decWidth s).bits) ∧
        decFetch s =
          .ok (c, { s with
            dec := { s.dec with start := s.brPos }, brPos := s.brPos + (decWidth s).bits, ret := .code c })) :=
  readBits_cases (decWidth s) (s.setDec { s.dec with start := s.brPos })

/-! ## The data codes -/

/-- Everything `DATA` can answer as a next state (R105): one of the two faults at `start`, or the append with, exactly when
there is a previous code, the insertion. -/
theorem dataTail_next {c : Code} {seq : List Byte} {s t : State} (h : dataTail c seq s = .next t) :
    (s.dec.prevv = true ∧ s.dec.nac.toNat = 4094 ∧ t = raiseFault .dictionaryOverflowWithoutClear s.dec.start s) ∨
      (¬ (s.dec.prevv = true ∧ s.dec.nac.toNat = 4094) ∧ s.cfg.explen < s.outLen + seq.length ∧
        t = raiseFault .outputOverrun s.dec.start s) ∨
      (¬ (s.dec.prevv = true ∧ s.dec.nac.toNat = 4094) ∧ s.outLen + seq.length ≤ s.cfg.explen ∧
        (s.dec.prevv = true ∧ (∃ b bs, seq = b :: bs ∧ t = setPrev c seq (insertTable b (outAppendAll seq s))) ∨
          s.dec.prevv = false ∧ t = setPrev c seq (outAppendAll seq s))) := by
  unfold dataTail at h
  simp only [Config.nacLimit, Bool.and_eq_true, beq_iff_eq] at h
  split at h
  · next hp => cases h; exact .inl ⟨hp.1, hp.2, rfl⟩
  · next hp =>
    split at h
    · next ho => cases h; exact .inr (.inl ⟨hp, ho, rfl⟩)
    · next ho =>
      refine .inr (.inr ⟨hp, Nat.le_of_not_lt ho, ?_⟩)
      split at h
      · next hv =>
        split at h
        · cases h
        · next b bs => cases h; exact .inl ⟨hv, b, bs, rfl, rfl⟩
      · next hv => cases h; exact .inr ⟨by simpa using hv, rfl⟩

/-- What `DICT` does (R112): the tail on the table's sequence. -/
theorem dictArm_next {c : Code} {s t : State} (h : dictArm c s = .next t) :
    258 ≤ c.toNat ∧ c.toNat < s.dec.nac.toNat ∧ ∃ seq, tableSeq s.dec.table c = some seq ∧ dataTail c seq s = .next t := by
  unfold dictArm at h
  split at h
  · next hc =>
    split at h
    · next seq hs => exact ⟨by simpa using hc.1, hc.2, seq, hs, h⟩
    · cases h
  · cases h

/-- What `KWK` does (R113): the tail on the previous sequence with its first byte appended. -/
theorem kwkArm_next {c : Code} {s t : State} (h : kwkArm c s = .next t) :
    c = s.dec.nac ∧ s.dec.prevv = true ∧ ∃ b bs, s.dec.prevseq = b :: bs ∧
      dataTail c ((b :: bs) ++ [b]) s = .next t := by
  unfold kwkArm at h
  split at h
  · next hc =>
    split at h
    · cases h
    · next b bs hs => exact ⟨hc.1, hc.2, b, bs, hs, h⟩
  · cases h

/-- What `INV` does (R110): the fault at `start`. -/
theorem invArm_next {c : Code} {s t : State} (h : invArm c s = .next t) :
    classify s.dec.nac.toNat s.dec.prevv c.toNat = .inv ∧ t = raiseFault .invalidCodeError s.dec.start s := by
  unfold invArm at h
  split at h
  · next hc => cases h; exact ⟨hc, rfl⟩
  · cases h

/-- What `EOI` does (R109, R131): the inverse pass to come, or DONE. -/
theorem eoiArm_next {s t : State} (h : eoiArm s = .next t) :
    (s.cfg.pred = .horizontal ∧ 0 < s.outLen ∧ t = s.setPhase (.inv 0)) ∨
      (¬ (s.cfg.pred = .horizontal ∧ 0 < s.outLen) ∧ t = setRunState .done s) := by
  unfold eoiArm at h
  split at h
  · next hc => cases h; exact .inl ⟨hc.1, hc.2, rfl⟩
  · next hc => cases h; exact .inr ⟨hc, rfl⟩

end Sys2Proof.Machine
end

