-- ==== Sys2Proof/Laws/Encoder.lean ====
section
/-! SUPPORT. What each operation of the encoder can do when it answers a next state. -/

namespace Sys2Proof.Machine

/-! ## The dictionary -/

theorem hasKey_iff {p : Code} {b : Byte} {e : DictEntry} : hasKey p b e = true ↔ e.pre = p ∧ e.byte = b := by
  simp [hasKey]

/-- After `E.DICT[(p, b) := k]` the key gives `k`. -/
theorem dictFind_dictSet_self (d : List DictEntry) (p : Code) (b : Byte) (k : Code) :
    dictFind (dictSet d p b k) p b = some k := by
  have hnone : (d.filter fun e => !hasKey p b e).find? (hasKey p b) = none := by
    rw [List.find?_eq_none]
    intro e he
    simpa using (List.mem_filter.1 he).2
  have hlast : hasKey p b { pre := p, byte := b, code := k } = true := hasKey_iff.2 ⟨rfl, rfl⟩
  rw [dictFind, dictSet, List.find?_append, hnone, Option.none_or, List.find?_cons, hlast]
  rfl

/-- After `E.DICT[(p, b) := k]` every other key gives what it gave. -/
theorem dictFind_dictSet_ne (d : List DictEntry) {p q : Code} {b c : Byte} (k : Code) (h : ¬ (q = p ∧ c = b)) :
    dictFind (dictSet d p b k) q c = dictFind d q c := by
  have apart : ∀ e, hasKey p b e = true → hasKey q c e = false := fun e he => by
    have he' := hasKey_iff.1 he
    refine Bool.eq_false_iff.2 fun hq => h ?_
    have hq' := hasKey_iff.1 hq
    exact ⟨hq'.1.symm.trans he'.1, hq'.2.symm.trans he'.2⟩
  have key : (d.filter fun e => !hasKey p b e).find? (hasKey q c) = d.find? (hasKey q c) := by
    induction d with
    | nil => rfl
    | cons e d ih =>
      by_cases he : hasKey p b e = true
      · rw [List.filter_cons_of_neg (by simp [he]), ih, List.find?_cons, apart e he]
      · rw [List.filter_cons_of_pos (by simp [he]), List.find?_cons, List.find?_cons, ih]
  have hlast : hasKey q c { pre := p, byte := b, code := k } = false := apart _ (hasKey_iff.2 ⟨rfl, rfl⟩)
  rw [dictFind, dictSet, List.find?_append, key, List.find?_cons, hlast]
  simp [dictFind]

/-! ## Registers -/

/-- The mirror after a code (R89), register by register. -/
theorem advanceMirror_cases (c : Code) (s : State) :
    ∃ n em, advanceMirror c s = { s with enc := { s.enc with dcnt := n, emitted := em, width := Wd n.toNat } } ∧
      ((c.toNat = 256 ∨ c.toNat = 257) ∧ n = s.enc.dcnt ∧ em = s.enc.emitted ∨
        ¬ (c.toNat = 256 ∨ c.toNat = 257) ∧ em = true ∧
          (s.enc.emitted = true ∧ n = s.enc.dcnt + 1 ∨ s.enc.emitted = false ∧ n = s.enc.dcnt)) := by
  unfold advanceMirror
  simp only [Config.clear, Config.eoi]
  split
  · next h => exact ⟨s.enc.dcnt, s.enc.emitted, rfl, .inl ⟨h, rfl, rfl⟩⟩
  · next h =>
    split
    · next he => exact ⟨s.enc.dcnt + 1, true, by simp [State.setEnc, he], .inr ⟨h, rfl, .inl ⟨he, rfl⟩⟩⟩
    · next he => exact ⟨s.enc.dcnt, true, rfl, .inr ⟨h, rfl, .inr ⟨by simpa using he, rfl⟩⟩⟩

/-- Everything `emitCode` writes (R89): the packer's state and the mirror; the dictionary, `E.NAC`, `E.CUR`, `E.CURV` and
`E.IPOS` are kept. -/
theorem emit_cases (c : Code) (s : State) :
    ∃ t n em, WritesStream s t ∧
      emit c s = { t with enc := { s.enc with dcnt := n, emitted := em, width := Wd n.toNat } } ∧
      ((c.toNat = 256 ∨ c.toNat = 257) ∧ n = s.enc.dcnt ∧ em = s.enc.emitted ∨
        ¬ (c.toNat = 256 ∨ c.toNat = 257) ∧ em = true ∧
          (s.enc.emitted = true ∧ n = s.enc.dcnt + 1 ∨ s.enc.emitted = false ∧ n = s.enc.dcnt)) := by
  have hw := writeCodeBits_writes c (encWidth s) s
  have he : (writeCodeBits c (encWidth s) s).enc = s.enc := by rw [hw.frame]
  obtain ⟨n, em, h, hc⟩ := advanceMirror_cases c (writeCodeBits c (encWidth s) s)
  exact ⟨_, n, em, hw, by rw [emit, h, he], by rwa [he] at hc⟩

/-- `insert` (R88): full and nothing written, or the next code assigned. -/
theorem insertEntry_cases (p : Code) (b : Byte) (s : State) :
    (s.enc.nac.toNat = 4094 ∧ insertEntry p b s = s) ∨
      (s.enc.nac.toNat ≠ 4094 ∧
        insertEntry p b s =
          { s with enc := { s.enc with dict := dictSet s.enc.dict p b s.enc.nac, nac := s.enc.nac + 1 } }) := by
  unfold insertEntry dictFull
  split
  · next h => exact .inl ⟨by simpa using h, rfl⟩
  · next h => exact .inr ⟨by simpa using h, rfl⟩

/-! ## Byte steps -/

/-- A byte step answers a next state only inside the input, on the byte `x[E.IPOS]`. -/
theorem byteStep_next {name : String} {s t : State} {f : Byte → Host.Outcome State Fault Refusal}
    (h : byteStep name s f = .next t) : s.enc.ipos < s.inLen ∧ ∃ b, inputByte s = some b ∧ f b = .next t := by
  unfold byteStep at h
  split at h
  · next hi =>
    split at h
    · next b hb => exact ⟨hi, b, hb, h⟩
    · cases h
  · cases h

/-- What `ENC.FIRST` does (R91). -/
theorem execEncFirst_next {s t : State} (h : execEncFirst s = .next t) :
    s.enc.ipos < s.inLen ∧ s.enc.curv = false ∧ ∃ b, inputByte s = some b ∧
      t = { s with enc := { s.enc with curv := true, cur := literalCode b, ipos := s.enc.ipos + 1 } } := by
  obtain ⟨hi, b, hb, h⟩ := byteStep_next h
  split at h
  · cases h
  · next hc => cases h; exact ⟨hi, by simpa using hc, b, hb, rfl⟩

/-- What `ENC.HIT` does (R92). -/
theorem execEncHit_next {s t : State} (h : execEncHit s = .next t) :
    s.enc.ipos < s.inLen ∧ s.enc.curv = true ∧ ∃ b k, inputByte s = some b ∧
      dictFind s.enc.dict s.enc.cur b = some k ∧ t = { s with enc := { s.enc with cur := k, ipos := s.enc.ipos + 1 } } := by
  obtain ⟨hi, b, hb, h⟩ := byteStep_next h
  split at h
  · next k hc hk => cases h; exact ⟨hi, hc, b, k, hb, hk, rfl⟩
  · cases h

/-- What `ENC.MISS` does (R93). -/
theorem execEncMiss_next {s t : State} (h : execEncMiss s = .next t) :
    s.enc.ipos < s.inLen ∧ s.enc.curv = true ∧ s.enc.nac.toNat < 4094 ∧ codeFits s.enc.cur (encWidth s) = true ∧
      ∃ b, inputByte s = some b ∧ dictFind s.enc.dict s.enc.cur b = none ∧
        t = advanceMatch (literalCode b) (insertEntry s.enc.cur b (emit s.enc.cur s)) := by
  obtain ⟨hi, b, hb, h⟩ := byteStep_next h
  split at h
  · next hc hk =>
    split at h
    · next hn =>
      split at h
      · next hf => cases h; exact ⟨hi, hc, hn, hf, b, hb, hk, rfl⟩
      · cases h
    · cases h
  · cases h

/-- What `ENC.MISS_FULL` does (R94). -/
theorem execEncMissFull_next {s t : State} (h : execEncMissFull s = .next t) :
    s.enc.ipos < s.inLen ∧ s.enc.curv = true ∧ s.enc.nac.toNat = 4094 ∧ codeFits s.enc.cur (encWidth s) = true ∧
      ∃ b, inputByte s = some b ∧ dictFind s.enc.dict s.enc.cur b = none ∧
        t = advanceMatch (literalCode b)
          (encReset (emit (BitVec.ofNat 12 Config.clear) (insertEntry s.enc.cur b (emit s.enc.cur s)))) := by
  obtain ⟨hi, b, hb, h⟩ := byteStep_next h
  split at h
  · next hc hk =>
    split at h
    · next hn =>
      split at h
      · next hf => cases h; exact ⟨hi, hc, by simpa [dictFull] using hn, hf, b, hb, hk, rfl⟩
      · cases h
    · cases h
  · cases h

/-- What `ENC.FINISH` does (R96). -/
theorem execEncFinish_next {s t : State} (h : execEncFinish s = .next t) :
    s.enc.ipos = s.inLen ∧ (s.enc.curv = true → codeFits s.enc.cur (encWidth s) = true) ∧
      t = setRunState .done (finishStream s) := by
  unfold execEncFinish at h
  split at h
  · next hi =>
    split at h
    · cases h
    · next hc => cases h; exact ⟨hi, fun hv => by simpa [hv] using hc, rfl⟩
  · cases h

end Sys2Proof.Machine
end

