-- ==== Sys2Proof/Laws/Predictor.lean ====
section
/-! SUPPORT. What the predictor's operations can do: their frames, their lengths, the canonical form of `OUT`. -/

namespace Sys2Proof.Machine

@[simp] theorem diffFrom_length (p : Byte) (bs : List Byte) : (diffFrom p bs).length = bs.length := by
  induction bs generalizing p with
  | nil => rfl
  | cons b bs ih => simp [diffFrom, ih]

@[simp] theorem diffRow_length (bs : List Byte) : (diffRow bs).length = bs.length := by
  cases bs <;> simp [diffRow]

@[simp] theorem sumFrom_length (p : Byte) (bs : List Byte) : (sumFrom p bs).length = bs.length := by
  induction bs generalizing p with
  | nil => rfl
  | cons b bs ih => simp [sumFrom, ih]

@[simp] theorem sumRow_length (bs : List Byte) : (sumRow bs).length = bs.length := by
  cases bs <;> simp [sumRow]

@[simp] theorem rowBytes_length (m : Memory) (a n : Nat) : (rowBytes m a n).length = n := by
  simp [rowBytes]

/-- A forward row writes `x` alone. -/
theorem fwdRow_eq (r : Nat) (s : State) : fwdRow r s = { s with x := (fwdRow r s).x } := rfl

/-- An inverse row writes `OUT` alone, inside `OUT[0..OUT_LEN)`, and keeps the canonical form. -/
theorem invRow_eq (r : Nat) (s : State) :
    invRow r s = { s with outBuf := (invRow r s).outBuf } ∧
      (∀ a, a < r * s.cfg.roww ∨ s.outLen ≤ a → r * s.cfg.roww ≤ s.outLen →
        memRead (invRow r s).outBuf a = memRead s.outBuf a) ∧
      (Memory.wf s.outBuf → Memory.wf (invRow r s).outBuf) := by
  refine ⟨rfl, fun a ha hr => ?_, fun h => memWriteList_wf _ _ h⟩
  refine memRead_memWriteList_outside _ _ _ ?_
  simp only [sumRow_length, rowBytes_length]
  omega

/-- `HD.FWD` writes `x` and the phase alone. -/
theorem fwdAll_eq (s : State) : fwdAll s = { s with x := (fwdAll s).x, phase := .lzw } := by
  have key : ∀ (l : List Nat) (u : State), l.foldl (fun t r => fwdRow r t) u =
      { u with x := (l.foldl (fun t r => fwdRow r t) u).x } := by
    intro l
    induction l with
    | nil => intro u; rfl
    | cons r l ih => intro u; rw [List.foldl_cons, ih, fwdRow_eq]
  unfold fwdAll
  rw [key]
  rfl

/-- `HD.INV` writes `OUT` alone. -/
theorem invAll_eq (s : State) : invAll s = { s with outBuf := (invAll s).outBuf } := by
  have key : ∀ (l : List Nat) (u : State), l.foldl (fun t r => invRow r t) u =
      { u with outBuf := (l.foldl (fun t r => invRow r t) u).outBuf } := by
    intro l
    induction l with
    | nil => intro u; rfl
    | cons r l ih => intro u; rw [List.foldl_cons, ih, (invRow_eq r u).1]
  exact key _ s

/-- A step of `HD.FWD` (R11). -/
theorem fwdStep_next {r : Nat} {s t : State} (h : fwdStep r s = .next t) :
    fwdGeometry s = true ∧
      t = (fwdRow r s).setPhase (if (r + 1) * s.cfg.roww < s.inLen then .fwd (r + 1) else .lzw) := by
  unfold fwdStep at h
  split at h
  · next hg => cases h; exact ⟨hg, rfl⟩
  · cases h

/-- A step of `HD.INV` (R11, R131). -/
theorem invStep_next {r : Nat} {s t : State} (h : invStep r s = .next t) :
    0 < s.cfg.roww ∧
      ((r + 1) * s.cfg.roww < s.outLen ∧ t = (invRow r s).setPhase (.inv (r + 1)) ∨
        s.outLen ≤ (r + 1) * s.cfg.roww ∧ t = setRunState .done ((invRow r s).setPhase .lzw)) := by
  unfold invStep at h
  split at h
  · next hw =>
    split at h
    · next hr => cases h; exact ⟨hw, .inl ⟨hr, rfl⟩⟩
    · next hr => cases h; exact ⟨hw, .inr ⟨Nat.le_of_not_lt hr, rfl⟩⟩
  · cases h

end Sys2Proof.Machine
end

