-- ==== Sys2Proof/Laws/Invocation.lean ====
section
/-! SUPPORT. What START, the whole commands and the host's actions can do. -/

namespace Sys2Proof.Machine

/-- The host's registers are not touched by the invocation reset. -/
theorem invocationReset_host (s : State) :
    (invocationReset s).maxInLen = s.maxInLen ∧ (invocationReset s).cfg = s.cfg ∧ (invocationReset s).inLen = s.inLen ∧ (invocationReset s).inBuf = s.inBuf ∧
      (invocationReset s).host = s.host := by
  unfold invocationReset
  split <;> exact ⟨rfl, rfl, rfl, rfl, rfl⟩

/-- `START` (R127): refused while BUSY, else the configuration fault, else the operation entered. -/
theorem execStart_cases (s : State) :
    (s.stat.state = .busy ∧ execStart s = .refused .startWhileBusy) ∨
      (s.stat.state ≠ .busy ∧ configBad s = true ∧
        execStart s = .next (raiseFault .configError 0 (invocationReset (clearStatus s)))) ∨
      (s.stat.state ≠ .busy ∧ configBad s = false ∧
        execStart s = .next (enterPass (invocationReset (clearStatus s)))) := by
  have hb : configBad (invocationReset (clearStatus s)) = configBad s := by
    obtain ⟨h0, h1, h2, -, -⟩ := invocationReset_host (clearStatus s)
    simp only [configBad, h0, h1, h2]
    rfl
  unfold execStart startInvocation
  simp only [hb]
  split
  · next h => exact .inl ⟨h, rfl⟩
  · next h =>
    split
    · next hc => exact .inr (.inl ⟨h, hc, rfl⟩)
    · next hc => exact .inr (.inr ⟨h, by simpa using hc, rfl⟩)

/-- A host action answers a next state only while the block is not BUSY. -/
theorem hostAct_next {a : HostAct} {s t : State} (h : hostAct a s = .next t) :
    s.stat.state ≠ .busy ∧ (a = .start ∧ execStart s = .next t ∨ a ≠ .start ∧ t = hostWrite a s) := by
  cases a <;> simp only [hostAct] at h
  case start =>
    refine ⟨fun hb => ?_, .inl ⟨rfl, h⟩⟩
    rw [execStart, if_pos hb] at h
    cases h
  all_goals
    split at h
    · cases h
    · next hb => cases h; exact ⟨hb, .inr ⟨by simp, rfl⟩⟩

/-- `ENCODE` is the predictor's pass, then the byte loop (R128). -/
theorem execEncode_next {s t : State} (h : execEncode s = .next t) :
    s.cfg.mode = .encode ∧ s.stat.state = .busy ∧ ∃ u, forwardPass s = .next u ∧
      encLoop (u.inLen - u.enc.ipos) u = .next t := by
  unfold execEncode at h
  split at h
  · next hm =>
    split at h
    · next u hu => exact ⟨hm.1, hm.2, u, hu, h⟩
    · cases h
    · cases h
  · cases h

/-- `DECODE` is the reset, the code loop, the completion (R130, R131). -/
theorem execDecode_next {s t : State} (h : execDecode s = .next t) :
    s.cfg.mode = .decode ∧ s.stat.state = .busy ∧ ∃ u,
      decLoop (maxFetches s) ((decBegin s).setPhase .lzw) = .next u ∧ decodeFinish u = .next t := by
  unfold execDecode at h
  split at h
  · next hm =>
    split at h
    · next u hu => exact ⟨hm.1, hm.2, u, hu, h⟩
    · cases h
    · cases h
  · cases h

end Sys2Proof.Machine
end

