-- ==== Sys2Proof/Laws/PerInstr.lean ====
section
/-! SUPPORT. Statements for every instruction, one lemma per constructor. -/

namespace Sys2Proof.Laws

/-- The code an instruction is encoded as fits its format (R61: the value range each format carries). The commands and the
internal operations have no encoding (R75). -/
def CodeFits.Statement (i : Instr) : Prop :=
  ∀ w c, encodeCode i = some (w, c) → c.toNat < 2 ^ w.bits

theorem CodeFits.of_encode {i : Instr} {w : Width} {c : Code} (h : encodeCode i = some (w, c))
    (hc : c.toNat < 2 ^ w.bits) : CodeFits.Statement i := by
  intro w' c' h'
  rw [h] at h'
  cases h'
  exact hc

theorem CodeFits.of_none {i : Instr} (h : encodeCode i = none) : CodeFits.Statement i := by
  intro w c h'
  rw [h] at h'
  cases h'

theorem CodeFits.lit9 (b : Byte) : CodeFits.Statement (.lit9 b) :=
  CodeFits.of_encode rfl (by have := b.isLt; simp only [BitVec.toNat_setWidth, Width.bits]; omega)
theorem CodeFits.clr9 : CodeFits.Statement (.clr9) := CodeFits.of_encode rfl (by decide)
theorem CodeFits.eoi9 : CodeFits.Statement (.eoi9) := CodeFits.of_encode rfl (by decide)
theorem CodeFits.dict9 (c : BitVec 9) : CodeFits.Statement (.dict9 c) :=
  CodeFits.of_encode rfl (by have := c.isLt; simp only [BitVec.toNat_setWidth, Width.bits]; omega)
theorem CodeFits.kwk9 (c : BitVec 9) : CodeFits.Statement (.kwk9 c) :=
  CodeFits.of_encode rfl (by have := c.isLt; simp only [BitVec.toNat_setWidth, Width.bits]; omega)
theorem CodeFits.inv9 (c : BitVec 9) : CodeFits.Statement (.inv9 c) :=
  CodeFits.of_encode rfl (by have := c.isLt; simp only [BitVec.toNat_setWidth, Width.bits]; omega)
theorem CodeFits.lit10 (b : Byte) : CodeFits.Statement (.lit10 b) :=
  CodeFits.of_encode rfl (by have := b.isLt; simp only [BitVec.toNat_setWidth, Width.bits]; omega)
theorem CodeFits.clr10 : CodeFits.Statement (.clr10) := CodeFits.of_encode rfl (by decide)
theorem CodeFits.eoi10 : CodeFits.Statement (.eoi10) := CodeFits.of_encode rfl (by decide)
theorem CodeFits.dict10 (c : BitVec 10) : CodeFits.Statement (.dict10 c) :=
  CodeFits.of_encode rfl (by have := c.isLt; simp only [BitVec.toNat_setWidth, Width.bits]; omega)
theorem CodeFits.kwk10 (c : BitVec 10) : CodeFits.Statement (.kwk10 c) :=
  CodeFits.of_encode rfl (by have := c.isLt; simp only [BitVec.toNat_setWidth, Width.bits]; omega)
theorem CodeFits.inv10 (c : BitVec 10) : CodeFits.Statement (.inv10 c) :=
  CodeFits.of_encode rfl (by have := c.isLt; simp only [BitVec.toNat_setWidth, Width.bits]; omega)
theorem CodeFits.lit11 (b : Byte) : CodeFits.Statement (.lit11 b) :=
  CodeFits.of_encode rfl (by have := b.isLt; simp only [BitVec.toNat_setWidth, Width.bits]; omega)
theorem CodeFits.clr11 : CodeFits.Statement (.clr11) := CodeFits.of_encode rfl (by decide)
theorem CodeFits.eoi11 : CodeFits.Statement (.eoi11) := CodeFits.of_encode rfl (by decide)
theorem CodeFits.dict11 (c : BitVec 11) : CodeFits.Statement (.dict11 c) :=
  CodeFits.of_encode rfl (by have := c.isLt; simp only [BitVec.toNat_setWidth, Width.bits]; omega)
theorem CodeFits.kwk11 (c : BitVec 11) : CodeFits.Statement (.kwk11 c) :=
  CodeFits.of_encode rfl (by have := c.isLt; simp only [BitVec.toNat_setWidth, Width.bits]; omega)
theorem CodeFits.inv11 (c : BitVec 11) : CodeFits.Statement (.inv11 c) :=
  CodeFits.of_encode rfl (by have := c.isLt; simp only [BitVec.toNat_setWidth, Width.bits]; omega)
theorem CodeFits.lit12 (b : Byte) : CodeFits.Statement (.lit12 b) :=
  CodeFits.of_encode rfl (by have := b.isLt; simp only [BitVec.toNat_setWidth, Width.bits]; omega)
theorem CodeFits.clr12 : CodeFits.Statement (.clr12) := CodeFits.of_encode rfl (by decide)
theorem CodeFits.eoi12 : CodeFits.Statement (.eoi12) := CodeFits.of_encode rfl (by decide)
theorem CodeFits.dict12 (c : BitVec 12) : CodeFits.Statement (.dict12 c) := CodeFits.of_encode rfl c.isLt
theorem CodeFits.kwk12 (c : BitVec 12) : CodeFits.Statement (.kwk12 c) := CodeFits.of_encode rfl c.isLt
theorem CodeFits.inv12 (c : BitVec 12) : CodeFits.Statement (.inv12 c) := CodeFits.of_encode rfl c.isLt
theorem CodeFits.start : CodeFits.Statement (.start) := CodeFits.of_none rfl
theorem CodeFits.encode : CodeFits.Statement (.encode) := CodeFits.of_none rfl
theorem CodeFits.decode : CodeFits.Statement (.decode) := CodeFits.of_none rfl
theorem CodeFits.writeCode (v : Code) (w : Width) : CodeFits.Statement (.writeCode v w) := CodeFits.of_none rfl
theorem CodeFits.flush : CodeFits.Statement (.flush) := CodeFits.of_none rfl
theorem CodeFits.readCode (w : Width) : CodeFits.Statement (.readCode w) := CodeFits.of_none rfl
theorem CodeFits.reset : CodeFits.Statement (.reset) := CodeFits.of_none rfl
theorem CodeFits.lookup (p : Code) (b : Byte) : CodeFits.Statement (.lookup p b) := CodeFits.of_none rfl
theorem CodeFits.insert (p : Code) (b : Byte) : CodeFits.Statement (.insert p b) := CodeFits.of_none rfl
theorem CodeFits.emitCode (c : Code) : CodeFits.Statement (.emitCode c) := CodeFits.of_none rfl
theorem CodeFits.encFirst : CodeFits.Statement (.encFirst) := CodeFits.of_none rfl
theorem CodeFits.encHit : CodeFits.Statement (.encHit) := CodeFits.of_none rfl
theorem CodeFits.encMiss : CodeFits.Statement (.encMiss) := CodeFits.of_none rfl
theorem CodeFits.encMissFull : CodeFits.Statement (.encMissFull) := CodeFits.of_none rfl
theorem CodeFits.encFinish : CodeFits.Statement (.encFinish) := CodeFits.of_none rfl
theorem CodeFits.dReset : CodeFits.Statement (.dReset) := CodeFits.of_none rfl
theorem CodeFits.decFetch : CodeFits.Statement (.decFetch) := CodeFits.of_none rfl
theorem CodeFits.data (c : Code) (seq : List Byte) : CodeFits.Statement (.data c seq) := CodeFits.of_none rfl
theorem CodeFits.hdFwd : CodeFits.Statement (.hdFwd) := CodeFits.of_none rfl
theorem CodeFits.hdInv : CodeFits.Statement (.hdInv) := CodeFits.of_none rfl
theorem CodeFits.predNone : CodeFits.Statement (.predNone) := CodeFits.of_none rfl

end Sys2Proof.Laws
end

