-- ==== Sys2Proof/Laws/Step.lean ====
section
/-! SUPPORT. What a step can do. -/

namespace Sys2Proof.Machine

/-- A step of a block that is not BUSY is the host's next action, or nothing. -/
theorem step_of_not_busy {s : State} (h : s.stat.state ≠ .busy) : step s = hostStep s := by
  unfold step
  split
  · next hb => exact absurd hb h
  · rfl
  · rfl
  · rfl

/-- Everything a step can answer as a next state. -/
theorem step_next {s t : State} (h : step s = .next t) :
    (s.stat.state ≠ .busy ∧ s.host = [] ∧ t = s) ∨
      (s.stat.state ≠ .busy ∧ ∃ a rest, s.host = a :: rest ∧ hostAct a (s.setHost rest) = .next t) ∨
      (s.stat.state = .busy ∧ ∃ r, s.phase = .fwd r ∧ fwdStep r s = .next t) ∨
      (s.stat.state = .busy ∧ ∃ r, s.phase = .inv r ∧ invStep r s = .next t) ∨
      (s.stat.state = .busy ∧ s.phase = .lzw ∧ s.cfg.mode = .encode ∧ exec (encInstr (encSelect s)) s = .next t) ∨
      (s.stat.state = .busy ∧ s.phase = .lzw ∧ s.cfg.mode = .decode ∧ decFetch s = .error t) ∨
      (s.stat.state = .busy ∧ s.phase = .lzw ∧ s.cfg.mode = .decode ∧ ∃ c u, decFetch s = .ok (c, u) ∧
        exec (decodeCode (decWidth s) s.dec.nac.toNat s.dec.prevv c) u = .next t) := by
  by_cases hb : s.stat.state = .busy
  · right; right
    simp only [step, hb, busyStep] at h
    split at h
    · next r hp => exact .inl ⟨hb, r, hp, h⟩
    · next r hp => exact .inr (.inl ⟨hb, r, hp, h⟩)
    · next hp hm => exact .inr (.inr (.inl ⟨hb, hp, hm, h⟩))
    · next hp hm =>
      split at h
      · next c u hf => exact .inr (.inr (.inr (.inr ⟨hb, hp, hm, c, u, hf, h⟩)))
      · next u hf => cases h; exact .inr (.inr (.inr (.inl ⟨hb, hp, hm, hf⟩)))
  · rw [step_of_not_busy hb, hostStep] at h
    split at h
    · next hh => cases h; exact .inl ⟨hb, hh, rfl⟩
    · next a rest hh => exact .inr (.inl ⟨hb, a, rest, hh, h⟩)

/-- An encoder step runs through the dispatch as the encoder runs it. -/
theorem exec_encInstr (o : EncOp) (s : State) : exec (encInstr o) s = runEnc o s := by
  cases o <;> rfl

end Sys2Proof.Machine
end

