-- ==== Sys2Proof/Tests/Slice0.lean ====
section
/-! SUPPORT. Tests of single steps against the worked vectors of 95_test_vectors.md and the rules' own examples, the smoke test
of WellFormed, and a witness for every statement with hypotheses. -/

namespace Sys2Proof.Tests

open Sys2Proof Sys2Proof.Machine

/-! ## Helpers -/

/-- The state of an outcome, for reading its fields. -/
def nextOf (o : Host.Outcome State Fault Refusal) : Option State :=
  match o with
  | .next s => some s
  | .fault _ => none
  | .refused _ => none

/-- The refusal of an outcome. -/
def refusalOf (o : Host.Outcome State Fault Refusal) : Option Refusal :=
  match o with
  | .next _ => none
  | .fault _ => none
  | .refused r => some r

/-- A buffer holding bytes from address 0. -/
def buf (bs : List Byte) : Memory := memWriteList [] 0 bs

/-- The block after power-on, with `MAX_IN_LEN = 100`. -/
def base : State := { State.reset with maxInLen := 100 }

/-- A BUSY encode invocation at its first byte step, predictor off. -/
def encState (bs : List Byte) : State :=
  { base with
    cfg := { mode := .encode, pred := .none, roww := 0, explen := 0 }, inBuf := buf bs, inLen := bs.length,
    stat := { state := .busy, err := .none, errpos := 0 }, x := bs }

/-- A BUSY decode invocation at its first code, predictor off. -/
def decState (bs : List Byte) (explen : Nat) : State :=
  { base with
    cfg := { mode := .decode, pred := .none, roww := 0, explen := explen }, inBuf := buf bs, inLen := bs.length,
    stat := { state := .busy, err := .none, errpos := 0 } }

/-- The decoder after `LIT 'A'; LIT 'B'` (program P1 at position 18). -/
def decAB : State :=
  { decState [0x20, 0x90, 0xA0, 0x50, 0x48, 0x08] 7 with
    dec :=
      { nac := 259, width := .w9, table := [{ code := 258, seq := [0x41, 0x42] }], prevv := true, prev := 66,
        prevseq := [0x42], start := 9 }
    brPos := 18, outBuf := buf [0x41, 0x42], outLen := 2 }

/-- The encoder with the match `1` over the input `01 02`, after `ENC.FIRST`. -/
def encOne : State :=
  { encState [1, 2] with
    enc :=
      { curv := true, cur := 1, nac := 258, dcnt := 258, emitted := false, width := .w9, dict := [], ipos := 1 } }

/-- The encoder that has learned `42 42 -> 258` and has the match `42` over the input `2A 2A 2A 2A`. -/
def encHitState : State :=
  { encState [42, 42, 42, 42] with
    enc :=
      { curv := true, cur := 42, nac := 259, dcnt := 258, emitted := true, width := .w9,
        dict := [{ pre := 42, byte := 42, code := 258 }], ipos := 3 } }

/-- A full dictionary: 3836 entries with distinct literal prefixes and bytes. -/
def fullDict : List DictEntry :=
  (List.range 3836).map fun k =>
    { pre := BitVec.ofNat 12 (k / 256), byte := BitVec.ofNat 8 (k % 256), code := BitVec.ofNat 12 (258 + k) }

/-- The encoder with a full table and the match `200` over the input `C8 00`. -/
def encFull : State :=
  { encState [200, 0] with
    enc :=
      { curv := true, cur := 200, nac := 4094, dcnt := 4093, emitted := true, width := .w12, dict := fullDict, ipos := 1 } }

/-! ## WellFormed: an ill-formed term for each check -/

theorem test_wf_refuses_dict_control : (Instr.dict9 256).wf = false := by decide
theorem test_wf_refuses_dict_high : (Instr.dict9 510).wf = false := by decide
theorem test_wf_refuses_dict12_unassigned : (Instr.dict12 4094).wf = false := by decide
theorem test_wf_refuses_kwk_low : (Instr.kwk10 510).wf = false := by decide
theorem test_wf_refuses_kwk_high : (Instr.kwk12 4095).wf = false := by decide
theorem test_wf_refuses_inv_low : (Instr.inv11 1022).wf = false := by decide
theorem test_wf_refuses_writeCode_wide : (Instr.writeCode 512 .w9).wf = false := by decide
theorem test_wf_refuses_lookup_control : (Instr.lookup 256 0).wf = false := by decide
theorem test_wf_refuses_insert_unassigned : (Instr.insert 4094 0).wf = false := by decide
theorem test_wf_refuses_emit_unassigned : (Instr.emitCode 4095).wf = false := by decide
theorem test_wf_refuses_data_control : (Instr.data 257 [1]).wf = false := by decide
theorem test_wf_refuses_data_empty : (Instr.data 65 []).wf = false := by decide
theorem test_wf_accepts :
    (Instr.dict9 258).wf ∧ (Instr.kwk12 4094).wf ∧ (Instr.inv9 511).wf ∧ (Instr.emitCode 257).wf := by decide

/-! ## Decode: every constructor with an encoding, by a word written out from R65 (`n`, `v` the decoder state) -/

-- R65, `LIT`: 0 01000001, 00 01000001, 000 01000001, 0000 01000001 ('A'), padded with zeros to whole bytes
theorem test_decode_lit9 : decodeStream [0x20, 0x80] 0 258 false = .ok (.lit9 65, 9) := by decide
theorem test_decode_lit10 : decodeStream [0x10, 0x40] 0 511 true = .ok (.lit10 65, 10) := by decide
theorem test_decode_lit11 : decodeStream [0x08, 0x20] 0 1023 true = .ok (.lit11 65, 11) := by decide
theorem test_decode_lit12 : decodeStream [0x04, 0x10] 0 2047 true = .ok (.lit12 65, 12) := by decide
-- R65, `CLR`: 1 00000000, 01 00000000, 001 00000000, 0001 00000000
theorem test_decode_clr9 : decodeStream [0x80, 0x00] 0 258 false = .ok (.clr9, 9) := by decide
theorem test_decode_clr10 : decodeStream [0x40, 0x00] 0 511 true = .ok (.clr10, 10) := by decide
theorem test_decode_clr11 : decodeStream [0x20, 0x00] 0 1023 true = .ok (.clr11, 11) := by decide
theorem test_decode_clr12 : decodeStream [0x10, 0x00] 0 2047 true = .ok (.clr12, 12) := by decide
-- R65, `EOI`: 1 00000001, 01 00000001, 001 00000001, 0001 00000001
theorem test_decode_eoi9 : decodeStream [0x80, 0x80] 0 258 false = .ok (.eoi9, 9) := by decide
theorem test_decode_eoi10 : decodeStream [0x40, 0x40] 0 511 true = .ok (.eoi10, 10) := by decide
theorem test_decode_eoi11 : decodeStream [0x20, 0x20] 0 1023 true = .ok (.eoi11, 11) := by decide
theorem test_decode_eoi12 : decodeStream [0x10, 0x10] 0 2047 true = .ok (.eoi12, 12) := by decide
-- R64, `DICT` 258 (V9's third code, one bit in): 1 00000010; 0100000010; 00100000010; 000100000010
theorem test_decode_dict9 : decodeStream [0x20, 0x90, 0xA0, 0x50] 18 259 true = .ok (.dict9 258, 27) := by decide
theorem test_decode_dict10 : decodeStream [0x40, 0x80] 0 511 true = .ok (.dict10 258, 10) := by decide
theorem test_decode_dict11 : decodeStream [0x20, 0x40] 0 1023 true = .ok (.dict11 258, 11) := by decide
theorem test_decode_dict12 : decodeStream [0x10, 0x20] 0 2047 true = .ok (.dict12 258, 12) := by decide
-- R64, `KWK` at `n`: 258 = 100000010 (V7's second code), 511 = 0111111111, 1023 = 01111111111, 4094 = 111111111110
theorem test_decode_kwk9 : decodeStream [0x30, 0xC0, 0xA0, 0x20] 9 258 true = .ok (.kwk9 258, 18) := by decide
theorem test_decode_kwk10 : decodeStream [0x7F, 0xC0] 0 511 true = .ok (.kwk10 511, 10) := by decide
theorem test_decode_kwk11 : decodeStream [0x7F, 0xE0] 0 1023 true = .ok (.kwk11 1023, 11) := by decide
theorem test_decode_kwk12 : decodeStream [0xFF, 0xE0] 0 4094 true = .ok (.kwk12 4094, 12) := by decide
-- R64, `INV`: 300 = 100101100 (V17 a), 258 with no previous code (V17 b), 1023, 2047, 4095
theorem test_decode_inv9 : decodeStream [0x96, 0x40, 0x40] 0 258 false = .ok (.inv9 300, 9) := by decide
theorem test_decode_inv9_no_prev : decodeStream [0x81, 0x40, 0x40] 0 258 false = .ok (.inv9 258, 9) := by decide
theorem test_decode_inv10 : decodeStream [0xFF, 0xC0] 0 511 true = .ok (.inv10 1023, 10) := by decide
theorem test_decode_inv11 : decodeStream [0xFF, 0xE0] 0 1023 true = .ok (.inv11 2047, 11) := by decide
theorem test_decode_inv12 : decodeStream [0xFF, 0xF0] 0 4094 true = .ok (.inv12 4095, 12) := by decide
-- V17 (d), (e): nothing to read
theorem test_decode_short : decodeStream [0x20] 0 258 false = .error .endOfStream := by decide
theorem test_decode_empty : decodeStream [] 0 258 false = .error .endOfStream := by decide
-- V9: the whole stream of "ABABABA"
theorem test_encodeStream_V9 :
    encodeStream [.lit9 65, .lit9 66, .dict9 258, .kwk9 260, .eoi9] = [0x20, 0x90, 0xA0, 0x50, 0x48, 0x08] := by decide
-- the opcode table's words
theorem test_table_lit9 : decodeTableWord 9 65 = some (.lit9 65) := by decide
theorem test_table_clr12 : decodeTableWord 12 256 = some .clr12 := by decide
theorem test_table_eoi_bytes : decodeTableWord 16 257 = some .eoi9 := by decide
theorem test_table_runs_next :
    ((nextOf (step (State.reset.withFetchWord 9 65))).map fun t => (t.outLen, t.brPos, t.dec.prev)) =
      some (1, 9, 65) := by decide

/-! ## The width function and the status codes -/

-- V1
theorem test_Wd :
    ([258, 509, 510, 511, 512, 1021, 1022, 1023, 2045, 2046, 2047, 4093, 4094].map fun n => (Wd n).bits) =
      [9, 9, 9, 10, 10, 10, 10, 11, 11, 11, 12, 12, 12] := by decide
-- R138, R35
theorem test_status_codes :
    ErrKind.code .none = 0 ∧ ErrKind.code .unexpectedEndOfStream = 1 ∧ ErrKind.code .invalidCodeError = 2 ∧
      ErrKind.code .dictionaryOverflowWithoutClear = 3 ∧ ErrKind.code .outputOverrun = 4 ∧
      ErrKind.code .configError = 5 ∧ RunState.code .busy = 1 ∧ RunState.code .error = 3 := by decide

/-! ## Packer and unpacker -/

-- R79's example
theorem test_writeCode :
    ((nextOf (exec (.writeCode 65 .w9) base)).map fun t => (outBytes t, t.bw)) =
      some ([0x20], { acc := 1, cnt := 1 }) := by decide
-- V2, row 4: 511 /9 then 0 /10, pending bits kept
theorem test_writeCode_twice :
    ((nextOf (exec (.writeCode 511 .w9) base)).bind fun t =>
        (nextOf (exec (.writeCode 0 .w10) t)).map fun u => (outBytes u, u.bw.cnt)) =
      some ([0xFF, 0x80], 3) := by decide
-- R81's example
theorem test_flush :
    ((nextOf (exec .flush { base with bw := { acc := 1, cnt := 1 } })).map fun t => (outBytes t, t.bw.cnt)) =
      some ([0x80], 0) := by decide
-- V3 (b): a code spanning three bytes
theorem test_readCode :
    ((nextOf (exec (.readCode .w12) { decState [0x01, 0xFF, 0xE0] 0 with brPos := 7 })).map fun t => (t.ret, t.brPos)) =
      some (.code 4095, 19) := by decide
-- V3 (c): 8 bits remain
theorem test_readCode_short :
    ((nextOf (exec (.readCode .w9) (decState [0x20] 0))).map fun t => (t.stat, t.brPos, t.outLen)) =
      some ({ state := .error, err := .unexpectedEndOfStream, errpos := 0 }, 0, 0) := by decide

/-! ## Encoder -/

theorem test_reset :
    ((nextOf (exec .reset encHitState)).map fun t => (t.enc.nac, t.enc.dict, t.enc.emitted, t.enc.ipos)) =
      some (258, [], false, 3) := by decide
-- R87's example, with 258 for 260
theorem test_lookup :
    ((nextOf (exec (.lookup 42 42) encHitState)).map (·.ret)) = some (.hit 258) ∧
      ((nextOf (exec (.lookup 260 42) encHitState)).map (·.ret)) = some .miss := by decide
-- R88's example
theorem test_insert :
    ((nextOf (exec (.insert 1 2) base)).map fun t => (t.ret, t.enc.nac)) = some (.assigned 258, 259) := by decide
theorem test_insert_full :
    ((nextOf (exec (.insert 1 2) { base with enc := { base.enc with nac := 4094 } })).map fun t => (t.ret, t.enc.nac)) =
      some (.full, 4094) := by decide
-- R89's example
theorem test_emitCode :
    ((nextOf (exec (.emitCode 300) { base with enc := { base.enc with dcnt := 510, emitted := true } })).map fun t =>
        (t.enc.dcnt, t.enc.width, 8 * t.outLen + t.bw.cnt.toNat)) = some (511, .w10, 9) := by decide
-- R91's example
theorem test_encFirst :
    ((nextOf (exec .encFirst (encState [0x41, 0x42]))).map fun t => (t.enc.cur, t.enc.ipos, t.outLen)) =
      some (0x41, 1, 0) := by decide
-- R92's example, with 258 for 260
theorem test_encHit :
    ((nextOf (exec .encHit encHitState)).map fun t => (t.enc.cur, t.enc.ipos, t.outLen)) = some (258, 4, 0) := by decide
-- R93's example: `LIT 1 /9`
theorem test_encMiss :
    ((nextOf (exec .encMiss encOne)).map fun t =>
        ((outBytes t, t.bw.cnt, dictFind t.enc.dict 1 2), (t.enc.nac, t.enc.dcnt, t.enc.emitted, t.enc.cur))) =
      some (([0x00], 1, some 258), (259, 258, true, 2)) := by decide
-- R94, R90: 12 bits for the match, 12 for the CLR (200 = 0C8, 256 = 100)
theorem test_encMissFull :
    ((nextOf
          (exec .encMissFull
            { encFull with enc := { encFull.enc with dict := [{ pre := 9, byte := 9, code := 4093 }] } })).map fun t =>
        ((outBytes t, t.bw.cnt, t.enc.nac), (t.enc.dcnt, t.enc.dict, t.enc.cur))) =
      some (([0x0C, 0x81, 0x00], 0, 258), (258, [], 0)) := by decide
-- R73, V5: the empty input
theorem test_encFinish_empty :
    ((nextOf (exec .encFinish (encState []))).map fun t => (outBytes t, t.stat.state)) =
      some ([0x80, 0x80], .done) := by decide
-- V6: `LIT 65 /9; EOI /9`
theorem test_encFinish :
    ((nextOf
          (exec .encFinish
            { encState [0x41] with enc := { base.enc with curv := true, cur := 65, ipos := 1 } })).map fun t =>
        (outBytes t, t.enc.dcnt)) = some ([0x20, 0xC0, 0x40], 258) := by decide

/-! ## Decoder -/

theorem test_dReset :
    ((nextOf (exec .dReset decAB)).map fun t => (t.dec.nac, t.dec.table, t.dec.prevv, t.outLen, t.brPos)) =
      some (258, [], false, 2, 18) := by decide
-- P1 at position 18
theorem test_decFetch :
    ((nextOf (exec .decFetch decAB)).map fun t => (t.ret, t.dec.start, t.brPos)) = some (.code 258, 18, 27) := by decide
-- R103's example: with `D.NAC = 511` the code is read as 10 bits
theorem test_decFetch_width :
    ((nextOf (exec .decFetch { decAB with dec := { decAB.dec with nac := 511 }, brPos := 0 })).map (·.brPos)) =
      some 10 := by decide
-- P1 at position 18: `DICT 258` appends 41 42 and inserts 259 = 42 41
theorem test_dict9 :
    ((nextOf (exec (.dict9 258) decAB)).map fun t => (outBytes t, tableFind t.dec.table 259, t.dec.nac)) =
      some ([0x41, 0x42, 0x41, 0x42], some [0x42, 0x41], 260) := by decide
theorem test_dict9_refused : refusalOf (exec (.dict9 259) decAB) = some (.notSelected "DICT") := by decide
-- R113: the sequence is the previous one and its first byte, which is also the entry
theorem test_kwk9 :
    ((nextOf (exec (.kwk9 259) decAB)).map fun t => (outBytes t, tableFind t.dec.table 259, t.dec.prevseq)) =
      some ([0x41, 0x42, 0x42, 0x42], some [0x42, 0x42], [0x42, 0x42]) := by decide
-- R111's example
theorem test_lit9 :
    ((nextOf (exec (.lit9 65) (decState [0x20, 0xC0, 0x40] 7))).map fun t =>
        (outBytes t, t.dec.table, t.dec.prev, t.dec.nac)) = some ([0x41], [], 65, 258) := by decide
theorem test_lit12_inserts :
    ((nextOf (exec (.lit12 67) decAB)).map fun t => (t.outLen, tableFind t.dec.table 259)) =
      some (3, some [0x42, 0x43]) := by decide
-- R108's example
theorem test_clr9 :
    ((nextOf (exec .clr9 decAB)).map fun t => (t.dec.nac, t.dec.width, t.dec.prevv, t.outLen)) =
      some (258, .w9, false, 2) := by decide
theorem test_eoi9 : ((nextOf (exec .eoi9 decAB)).map fun t => (t.stat.state, t.outLen)) = some (.done, 2) := by decide
-- R131: with the predictor on the inverse pass comes first
theorem test_eoi10_predictor :
    ((nextOf (exec .eoi10 { decAB with cfg := { decAB.cfg with pred := .horizontal, roww := 1 } })).map fun t =>
        (t.stat.state, t.phase)) = some (.busy, .inv 0) := by decide
-- P4: 260 at `D.NAC = 259`
theorem test_inv9 :
    ((nextOf (exec (.inv9 260) { decAB with dec := { decAB.dec with start := 18 } })).map fun t => (t.stat, t.outLen)) =
      some ({ state := .error, err := .invalidCodeError, errpos := 18 }, 0) := by decide
-- V19: the capacity is passed
theorem test_data_overrun :
    ((nextOf (exec (.data 99 [99]) { decAB with cfg := { decAB.cfg with explen := 2 } })).map (·.stat.err)) =
      some .outputOverrun := by decide
-- R142: the overflow is found before the capacity
theorem test_data_overflow_first :
    ((nextOf
          (exec (.data 99 [99])
            { decAB with cfg := { decAB.cfg with explen := 2 }, dec := { decAB.dec with nac := 4094 } })).map
        (·.stat.err)) = some .dictionaryOverflowWithoutClear := by decide

/-! ## Predictor -/

/-- Encode with the predictor on, rows of `W` bytes (V21). -/
def predState (w : Nat) (bs : List Byte) : State :=
  { encState bs with cfg := { mode := .encode, pred := .horizontal, roww := w, explen := 0 }, x := [], phase := .fwd 0 }

-- V21, row 2: both wraps, and the second row restarts
theorem test_hdFwd :
    ((nextOf (exec .hdFwd (predState 4 [0x0A, 0x14, 0x0F, 0xFF, 0x00, 0x01, 0x00, 0xFF]))).map (·.x)) =
      some [0x0A, 0x0A, 0xFB, 0xF0, 0x00, 0x01, 0xFF, 0xFF] := by decide
-- V22: the last row is a prefix
theorem test_hdInv :
    ((nextOf (exec .hdInv { predState 2 [] with outBuf := buf [0xFA, 0x10, 0xFA], outLen := 3 })).map outBytes) =
      some [0xFA, 0x0A, 0xFA] := by decide
-- R11: one step, one row
theorem test_step_row :
    ((nextOf (step (predState 2 [0xFA, 0x0A, 0xFA, 0x0A]))).map fun t => (t.x, t.phase)) =
      some ([0xFA, 0x10], .fwd 1) := by decide
theorem test_predNone : ((nextOf (exec .predNone { encState [7, 8] with x := [] })).map (·.x)) = some [7, 8] := by decide

/-! ## Invocation -/

/-- A configured block before `START`. -/
def ready (mode : Mode) (pred : Pred) (roww explen : Nat) (bs : List Byte) : State :=
  { base with cfg := { mode := mode, pred := pred, roww := roww, explen := explen }, inBuf := buf bs, inLen := bs.length }

theorem test_start_encode :
    ((nextOf (exec .start (ready .encode .none 0 0 [1, 2]))).map fun t => (t.stat.state, t.x, t.enc.nac, t.phase)) =
      some (.busy, [1, 2], 258, .lzw) := by decide
-- V23
theorem test_start_config_errors :
    ((nextOf (exec .start (ready .decode .horizontal 0 4 []))).map (·.stat.err)) = some .configError ∧
      ((nextOf (exec .start (ready .encode .horizontal 2 0 [1, 2, 3, 4, 5]))).map (·.stat.err)) = some .configError ∧
      ((nextOf (exec .start (ready .decode .horizontal 2 3 []))).map (·.stat.err)) = some .configError ∧
      ((nextOf (exec .start { ready .encode .none 0 0 [] with inLen := 101 })).map (·.stat.err)) = some .configError ∧
      ((nextOf (exec .start (ready .encode .none 0 0 []))).map (·.stat.err)) = some .none := by decide
-- V6
theorem test_encode :
    ((nextOf (exec .encode (encState [0x41]))).bind hostResult) = some [0x20, 0xC0, 0x40] := by decide
-- V18
theorem test_decode :
    ((nextOf (exec .decode (decState [0x80, 0x10, 0x60, 0x20] 1))).bind hostResult) = some [0x41] := by decide
-- R126: a host write, then R153: nothing to do
theorem test_host_write :
    ((nextOf (step { base with host := [.setRoww 4] })).map fun t => (t.cfg.roww, t.host)) = some (4, []) := by decide
theorem test_start_while_busy : refusalOf (exec .start (encState [])) = some .startWhileBusy := by decide

/-! ## Witnesses: a concrete state and operands for the hypotheses of each statement -/

theorem buf_wf (bs : List Byte) : Memory.wf (buf bs) := memWriteList_wf 0 bs nil_wf

theorem encRegs_start {s : State} (he : s.enc = base.enc) (hb : s.bw = base.bw) : EncRegs s where
  nac_low := by rw [he]; decide
  nac_high := by rw [he]; decide
  dcnt_low := by rw [he]; decide
  dcnt_high := by rw [he]; decide
  width_eq := by rw [he]; decide
  dict_codes := by rw [he]; decide
  dict_keys := by rw [he]; decide
  dict_prefix := fun e h => by rw [he] at h; cases h
  acc_low := by rw [hb]; decide

theorem encRunning_start {s : State} (he : s.enc = base.enc) : EncRunning s where
  cur_code := fun h => by rw [he] at h; cases h
  fresh := fun _ => by rw [he]; decide
  not_emitted := fun _ => by rw [he]; decide
  emitted := fun h => by rw [he] at h; cases h
  ipos_le := by rw [he]; exact Nat.zero_le _

theorem decRegs_start {s : State} (hd : s.dec = base.dec) : DecRegs s where
  nac_low := by rw [hd]; decide
  nac_high := by rw [hd]; decide
  width_eq := by rw [hd]; decide
  table_codes := by rw [hd]; decide
  table_entries := fun e h => by rw [hd] at h; cases h
  no_prev := fun _ => by rw [hd]; decide
  prev_seq := fun h => by rw [hd] at h; cases h

/-- The invariant at the first byte step of an encode of `41`. -/
theorem encState_inv : Inv (encState [0x41]) where
  in_wf := by decide
  out_wf := by decide
  stat := by unfold StatOk; decide
  enc := encRegs_start rfl rfl
  dec := decRegs_start rfl
  config := fun _ => by unfold LegalConfig; decide
  encode := fun _ _ => ⟨encRunning_start rfl, rfl⟩
  decode := fun _ h => by cases h

/-- The invariant at the first code of a decode of `20 C0 40`. -/
theorem decState_inv : Inv (decState [0x20, 0xC0, 0x40] 7) where
  in_wf := by decide
  out_wf := by decide
  stat := by unfold StatOk; decide
  enc := encRegs_start rfl rfl
  dec := decRegs_start rfl
  config := fun _ => by unfold LegalConfig; decide
  encode := fun _ h => by cases h
  decode := fun _ _ => ⟨by decide, by decide, trivial⟩

theorem encOne_regs : EncRegs encOne ∧ EncRunning encOne := by
  refine ⟨⟨by decide, by decide, by decide, by decide, by decide, by decide, by decide, ?_, by decide⟩, ?_⟩
  · intro e he
    cases he
  · refine ⟨fun _ => .inl (by decide), ?_, ?_, ?_, ?_⟩ <;> decide

theorem fullDict_codes : fullDict.map (·.code.toNat) = List.range' 258 3836 := by
  apply List.ext_getElem
  · simp [fullDict]
  · intro i h1 h2
    have hi : i < 3836 := by simpa using h2
    simp only [fullDict, List.getElem_map, List.getElem_range, List.getElem_range', BitVec.toNat_ofNat]
    omega

theorem fullDict_keys : (fullDict.map fun e => (e.pre, e.byte)).Nodup := by
  rw [fullDict, List.map_map]
  refine List.Nodup.map_on ?_ List.nodup_range
  intro i hi j hj h
  have hi' := List.mem_range.1 hi
  have hj' := List.mem_range.1 hj
  simp only [Function.comp_apply, Prod.mk.injEq] at h
  have h1 := congrArg BitVec.toNat h.1
  have h2 := congrArg BitVec.toNat h.2
  simp only [BitVec.toNat_ofNat] at h1 h2
  omega

theorem encFull_dict : encFull.enc.dict = fullDict := by rw [encFull]

theorem encFull_regs : EncRegs encFull ∧ EncRunning encFull := by
  refine ⟨⟨by decide, by decide, by decide, by decide, rfl, ?_, ?_, ?_, by decide⟩, ?_⟩
  · have h : encFull.enc.nac.toNat - 258 = 3836 := rfl
    rw [h, encFull_dict]
    exact fullDict_codes
  · rw [encFull_dict]
    exact fullDict_keys
  · rw [encFull_dict]
    intro e he
    obtain ⟨k, hk, rfl⟩ := List.mem_map.1 he
    have hk' := List.mem_range.1 hk
    refine .inl ?_
    simp only [BitVec.toNat_ofNat]
    omega
  · exact
      { cur_code := fun _ => .inl (by decide)
        fresh := fun h => Bool.noConfusion h
        not_emitted := fun h => Bool.noConfusion h
        emitted := fun _ => rfl
        ipos_le := by decide }

theorem fullDict_misses : dictFind fullDict 200 0 = none := by
  have hnone : fullDict.find? (hasKey 200 0) = none := by
    rw [List.find?_eq_none]
    intro e he
    obtain ⟨k, hk, rfl⟩ := List.mem_map.1 he
    have hk' := List.mem_range.1 hk
    intro hkey
    have h1 := congrArg BitVec.toNat (hasKey_iff.1 hkey).1
    have h200 : (200 : Code).toNat = 200 := rfl
    simp only [BitVec.toNat_ofNat, h200] at h1
    omega
  rw [dictFind, hnone, Option.map_none]

theorem encFull_misses : dictFind encFull.enc.dict encFull.enc.cur 0 = none := by
  have hc : encFull.enc.cur = 200 := by rw [encFull]
  rw [encFull_dict, hc]
  exact fullDict_misses

theorem witness_EncodedCodesDecodeBack :
    258 ≤ 511 ∧ 511 ≤ 4094 ∧ (Instr.dict10 300).fits 511 true = true ∧
      encode (.dict10 300) = some [false, true, false, false, true, false, true, true, false, false] := by decide
theorem witness_DecodedCodesEncodeBack : 258 ≤ 258 ∧ 258 ≤ 4094 ∧ (511 : Code).toNat < 2 ^ (Wd 258).bits := by decide
/-- R64 where its rows meet, at the smallest and the largest table count. -/
theorem witness_ClassesFollowTheTable :
    ([255, 256, 257, 258, 259].map (classify 258 true) = [.lit, .clr, .eoi, .kwk, .inv]) ∧
      ([255, 256, 257, 258].map (classify 258 false) = [.lit, .clr, .eoi, .inv]) ∧
      ([257, 258, 4093, 4094, 4095].map (classify 4094 true) = [.eoi, .dict, .dict, .kwk, .inv]) := by decide
theorem witness_StepRunsTheFetchedCode :
    (decState [0x20, 0xC0, 0x40] 7).stat.state = .busy ∧ (decState [0x20, 0xC0, 0x40] 7).phase = .lzw ∧
      decodeStream (inBytes (decState [0x20, 0xC0, 0x40] 7)) 0 258 false = .ok (.lit9 65, 9) := by decide
theorem witness_ExactlyOneEncoderStepIsSelected :
    Inv (encState [0x41]) ∧ (encState [0x41]).stat.state = .busy ∧ (encState [0x41]).phase = .lzw ∧
      (encState [0x41]).cfg.mode = .encode ∧ encSelect (encState [0x41]) = .first := ⟨encState_inv, by decide⟩
theorem witness_IdleBlockKeepsItsState : State.reset.stat.state ≠ .busy ∧ State.reset.host = [] := by decide
theorem witness_HostActionsAreTakenOneAStep :
    { base with host := [.writeIn 3 7, .start] }.stat.state ≠ .busy ∧
      { base with host := [.writeIn 3 7, .start] }.host = .writeIn 3 7 :: [.start] ∧ Memory.wf base.inBuf ∧
      { base with host := [.setMode .decode] }.host = .setMode .decode :: [] ∧
      { base with host := [.setPred .horizontal] }.host = .setPred .horizontal :: [] ∧
      { base with host := [.setRoww 4] }.host = .setRoww 4 :: [] ∧
      { base with host := [.setExplen 4] }.host = .setExplen 4 :: [] ∧
      { base with host := [.setInLen 4] }.host = .setInLen 4 :: [] ∧ { base with host := [.start] }.host = .start :: [] := by
  decide
theorem witness_BusyBlockRefusesTheHost :
    (encState []).stat.state = .busy ∧ HostAct.setRoww 4 ≠ .start := by decide
theorem witness_WriteCodeAppendsItsBits : (511 : Code).toNat < 2 ^ Width.w9.bits ∧ Memory.wf base.outBuf := by decide
theorem witness_WriteCodeRefusesWideCodes : 2 ^ Width.w9.bits ≤ (512 : Code).toNat := by decide
theorem witness_FlushPadsWithZeros :
    base.bw.cnt.toNat = 0 ∧ 0 < { base with bw := { acc := 1, cnt := 1 } }.bw.cnt.toNat ∧ Memory.wf base.outBuf := by decide
theorem witness_ReadCodeReadsOrFaults :
    Width.w9.bits ≤ 8 * (decState [0x20, 0xC0] 0).inLen - (decState [0x20, 0xC0] 0).brPos ∧
      8 * (decState [0x20] 0).inLen - (decState [0x20] 0).brPos < Width.w9.bits := by decide
theorem witness_WrittenCodesReadBack :
    base.outLen = 0 ∧ base.bw.cnt = 0 ∧ Memory.wf base.outBuf ∧
      (∀ p ∈ [((65 : Code), Width.w9), (1023, .w10)], p.1.toNat < 2 ^ p.2.bits) := by decide
theorem witness_LookupFindsTheAssignedCode :
    EncRegs encFull ∧ { pre := 0, byte := 1, code := 259 : DictEntry } ∈ encFull.enc.dict ∧
      (∀ k, { pre := 65, byte := 66, code := k : DictEntry } ∉ (encState [0x41]).enc.dict) := by
  refine ⟨encFull_regs.1, ?_, fun k h => by cases h⟩
  rw [encFull_dict]
  exact List.mem_map.2 ⟨1, List.mem_range.2 (by decide), by decide⟩
theorem witness_InsertAssignsTheNextCode :
    258 ≤ base.enc.nac.toNat ∧ base.enc.nac.toNat < 4094 ∧ encFull.enc.nac.toNat = 4094 ∧
      ((nextOf (exec (.insert 1 2) { base with enc := { base.enc with nac := 4093 } })).map fun t => (t.ret, t.enc.nac)) =
        some (.assigned 4093, 4094) := by decide
theorem witness_EmitCodeWritesAtTheCurrentWidth :
    258 ≤ base.enc.dcnt.toNat ∧ base.enc.dcnt.toNat ≤ 4094 ∧ (257 : Code).toNat < 2 ^ (Wd base.enc.dcnt.toNat).bits ∧
      (65 : Code).toNat < 2 ^ (Wd base.enc.dcnt.toNat).bits ∧ Memory.wf base.outBuf := by decide
theorem witness_EncFirstTakesTheFirstByte :
    (encState [0x41]).enc.curv = false ∧ (encState [0x41]).enc.ipos < (encState [0x41]).inLen ∧
      inputByte (encState [0x41]) = some 0x41 := by decide
theorem witness_EncHitExtendsTheMatch :
    encHitState.enc.curv = true ∧ encHitState.enc.ipos < encHitState.inLen ∧ inputByte encHitState = some 42 ∧
      dictFind encHitState.enc.dict encHitState.enc.cur 42 = some 258 := by decide
theorem witness_EncMissEmitsThenInserts :
    (EncRegs encOne ∧ EncRunning encOne) ∧ Memory.wf encOne.outBuf ∧ encOne.enc.curv = true ∧
      encOne.enc.ipos < encOne.inLen ∧ inputByte encOne = some 2 ∧ dictFind encOne.enc.dict encOne.enc.cur 2 = none ∧
      encOne.enc.nac.toNat < 4094 := ⟨encOne_regs, by decide⟩
theorem witness_EncMissFullEmitsAClear :
    (EncRegs encFull ∧ EncRunning encFull) ∧ dictFind encFull.enc.dict encFull.enc.cur 0 = none ∧
      Memory.wf encFull.outBuf ∧ encFull.enc.curv = true ∧ encFull.enc.ipos < encFull.inLen ∧
      inputByte encFull = some 0 ∧ encFull.enc.nac.toNat = 4094 := 
  ⟨encFull_regs, encFull_misses, by decide, rfl, by decide, by decide, rfl⟩
theorem witness_EncFinishWritesTheEnd :
    EncRegs (encState []) ∧ EncRunning (encState []) ∧ Memory.wf (encState []).outBuf ∧
      (encState []).enc.ipos = (encState []).inLen :=
  ⟨encRegs_start rfl rfl, encRunning_start rfl, by decide, by decide⟩
theorem witness_EncoderNeverFaults :
    Inv (encState [0x41]) ∧ (encState [0x41]).stat.state = .busy ∧ (encState [0x41]).cfg.mode = .encode ∧
      (encState [0x41]).enc.ipos < (encState [0x41]).inLen := ⟨encState_inv, by decide⟩
theorem witness_EncodeCommandEndsDone :
    Inv (encState [0x41]) ∧ (encState [0x41]).stat.state = .busy ∧ (encState [0x41]).cfg.mode = .encode :=
  ⟨encState_inv, by decide⟩
theorem witness_EncodeCommandIsTheRunOfSteps :
    (ready .encode .horizontal 2 0 [1, 2]).stat.state ≠ .busy ∧ LegalConfig (ready .encode .horizontal 2 0 [1, 2]) :=
  ⟨by decide, by unfold LegalConfig; decide⟩
theorem witness_FetchReadsAtTheTableWidth :
    (Wd decAB.dec.nac.toNat).bits ≤ 8 * decAB.inLen - decAB.brPos ∧
      8 * (decState [0x20] 0).inLen - (decState [0x20] 0).brPos < (Wd (decState [0x20] 0).dec.nac.toNat).bits := by decide
theorem witness_DataAppendsThenInserts : DataRoom [0x41, 0x42] decAB ∧ Memory.wf decAB.outBuf :=
  ⟨by unfold DataRoom; decide, by decide⟩
theorem witness_DataAppends_to_the_capacity : DataRoom [1, 2, 3, 4, 5] decAB ∧ ¬ DataRoom [1, 2, 3, 4, 5, 6] decAB := by
  unfold DataRoom; decide
theorem witness_DataFaultsInOrder :
    { decAB with dec := { decAB.dec with nac := 4094 } }.dec.prevv = true ∧
      ¬ (decAB.dec.prevv = true ∧ decAB.dec.nac.toNat = 4094) ∧
      decAB.cfg.explen < decAB.outLen + [1, 2, 3, 4, 5, 6].length := by decide
theorem witness_LiteralCodesAppendTheirByte : DataRoom [0x41] (decState [] 1) ∧ Memory.wf (decState [] 1).outBuf :=
  ⟨by unfold DataRoom; decide, by decide⟩
theorem decAB_regs : DecRegs decAB := by
  refine ⟨by decide, by decide, by decide, by decide, ?_, by decide, by decide⟩
  intro e he
  have he' : e = { code := 258, seq := [0x41, 0x42] } := List.mem_singleton.1 he
  subst he'
  exact ⟨65, [0x41], 0x42, by decide, by decide, rfl⟩
theorem witness_DictCodesAppendTheirSequence :
    DecRegs decAB ∧ (258 : Code).toNat < 2 ^ Width.w9.bits ∧ 258 ≤ (258 : Code).toNat ∧
      (258 : Code).toNat < decAB.dec.nac.toNat ∧ DataRoom [0x41, 0x42] decAB ∧ Memory.wf decAB.outBuf :=
  ⟨decAB_regs, by decide, by decide, by decide, by unfold DataRoom; decide, by decide⟩
theorem witness_KwkCodesRepeatTheFirstByte :
    (259 : Code).toNat < 2 ^ Width.w9.bits ∧ 259 = decAB.dec.nac ∧ decAB.dec.prevv = true ∧
      decAB.dec.prevseq = 0x42 :: [] ∧ DataRoom [0x42, 0x42] decAB ∧
      (4094 : Code) = { decAB with dec := { decAB.dec with nac := 4094 } }.dec.nac :=
  ⟨by decide, by decide, by decide, by decide, by unfold DataRoom; decide, by decide⟩
theorem witness_EndCodesEndThePass :
    decAB.cfg.pred = .none ∧ { decAB with cfg := { decAB.cfg with pred := .horizontal } }.outLen ≠ 0 := by decide
theorem witness_InvalidCodesFault :
    (260 : Code).toNat < 2 ^ Width.w9.bits ∧ decAB.dec.nac.toNat < (260 : Code).toNat ∧
      (258 : Code) = (decState [] 1).dec.nac ∧ (decState [] 1).dec.prevv = false := by decide
theorem witness_UnselectedOperationsAreRefused_classes :
    ¬ (258 ≤ (259 : Code).toNat ∧ (259 : Code).toNat < decAB.dec.nac.toNat) ∧
      ¬ ((258 : Code) = decAB.dec.nac ∧ decAB.dec.prevv = true) ∧ (256 : Code).toNat = 256 ∧ (257 : Code).toNat = 257 ∧
      ¬ (decAB.dec.nac.toNat < (259 : Code).toNat ∨ ((259 : Code) = decAB.dec.nac ∧ decAB.dec.prevv = false)) := by decide
/-- Past the input; inside it with a hit, a miss with room, a miss with a full table, and no match yet. -/
theorem witness_UnselectedOperationsAreRefused_steps :
    (encState []).inLen ≤ (encState []).enc.ipos ∧ (encState [1]).enc.ipos ≠ (encState [1]).inLen ∧
      (encHitState.enc.ipos < encHitState.inLen ∧ inputByte encHitState = some 42 ∧ encHitState.enc.curv = true ∧
        dictFind encHitState.enc.dict encHitState.enc.cur 42 = some 258) ∧
      (encOne.enc.ipos < encOne.inLen ∧ inputByte encOne = some 2 ∧ encOne.enc.curv = true ∧
        dictFind encOne.enc.dict encOne.enc.cur 2 = none ∧ encOne.enc.nac.toNat ≠ 4094) ∧
      ((encState [1]).enc.ipos < (encState [1]).inLen ∧ inputByte (encState [1]) = some 1 ∧
        (encState [1]).enc.curv = false) := by decide
theorem witness_UnselectedOperationsAreRefused_full :
    encFull.enc.ipos < encFull.inLen ∧ inputByte encFull = some 0 ∧ 4094 ≤ encFull.enc.nac.toNat := by decide
theorem witness_UnselectedOperationsAreRefused_commands :
    decAB.cfg.mode = .decode ∧ (encState []).cfg.mode = .encode ∧ base.stat.state ≠ .busy := by decide
-- R91, R93: a match is held, so `ENC.FIRST` is not selected; the candidate is known, so `ENC.MISS` is not
theorem test_unselected_byte_steps :
    refusalOf (exec .encFirst encOne) = some (.notSelected "ENC.FIRST") ∧
      refusalOf (exec .encMiss encHitState) = some (.notSelected "ENC.MISS") := by decide
theorem witness_DecodeCommandEnds :
    Inv (decState [0x20, 0xC0, 0x40] 7) ∧ (decState [0x20, 0xC0, 0x40] 7).stat.state = .busy ∧
      (decState [0x20, 0xC0, 0x40] 7).cfg.mode = .decode ∧ (decState [0x20, 0xC0, 0x40] 7).phase = .lzw :=
  ⟨decState_inv, by decide⟩
theorem witness_DecodeCommandIsTheRunOfSteps :
    Inv (decState [0x20, 0xC0, 0x40] 7) ∧ (decState [0x20, 0xC0, 0x40] 7).stat.state = .busy ∧
      (decState [0x20, 0xC0, 0x40] 7).cfg.mode = .decode ∧ (decState [0x20, 0xC0, 0x40] 7).phase = .lzw :=
  ⟨decState_inv, by decide⟩
theorem witness_DecoderFaultsArePrecise :
    (decState [0x96, 0x40, 0x40] 7).stat.state = .busy ∧
      (nextOf (step (decState [0x96, 0x40, 0x40] 7))).map (·.stat.state) = some .error ∧
      (nextOf (step (decState [0x20] 7))).map (·.stat.err) = some .unexpectedEndOfStream := by decide
theorem witness_DecoderReadsOnlyItsBits :
    (∀ q, 0 ≤ q → q < 0 + (Wd (decState [0x20, 0xC0, 0x40] 7).dec.nac.toNat).bits →
        streamBit (memRead (buf [0x20, 0xFF])) q = streamBit (memRead (decState [0x20, 0xC0, 0x40] 7).inBuf) q) ∧
      (Wd (decState [0x20, 0xC0, 0x40] 7).dec.nac.toNat).bits ≤ 8 * 2 - 0 ∧
      (nextOf (step (decState [0x20, 0xC0, 0x40] 7))).isSome := by
  refine ⟨fun q _ hq => ?_, by decide, by decide⟩
  have hq' : q < 9 := hq
  interval_cases q <;> decide
theorem witness_ForwardDifferencesEachRow :
    0 < (predState 2 [1, 2, 3, 4]).cfg.roww ∧ (predState 2 [1, 2, 3, 4]).inLen % (predState 2 [1, 2, 3, 4]).cfg.roww = 0 := by
  decide
theorem witness_InverseSumsEachRow :
    0 < (predState 2 []).cfg.roww ∧ Memory.wf { predState 2 [] with outBuf := buf [0xFA, 0x10, 0xFA] }.outBuf := by decide
theorem witness_InverseUndoesForward :
    (nextOf (exec .hdFwd (predState 2 [0xFA, 0x0A]))).map (·.x) = some [0xFA, 0x10] ∧
      outBytes { predState 2 [] with outBuf := buf [0xFA, 0x10], outLen := 2 } = [0xFA, 0x10] ∧
      ((nextOf (exec .hdInv { predState 2 [] with outBuf := buf [0xFA, 0x10], outLen := 2 })).map outBytes) =
        some [0xFA, 0x0A] := by decide
theorem witness_PredictorOffIsIdentity : (encState []).cfg.mode = .encode ∧ decAB.cfg.mode = .decode := by decide
theorem witness_RowStepsMakeTheWholeTransform :
    (predState 2 [1, 2]).stat.state = .busy ∧ (predState 2 [1, 2]).phase = .fwd 0 ∧ 0 < (predState 2 [1, 2]).inLen ∧
      0 < (predState 2 [1, 2]).cfg.roww ∧ { predState 2 [] with phase := .inv 0, outLen := 3 }.phase = .inv 0 := by decide
theorem witness_StartClearsAndResets :
    (ready .decode .horizontal 2 4 [0x20]).stat.state ≠ .busy ∧ LegalConfig (ready .decode .horizontal 2 4 [0x20]) ∧
      LegalConfig (ready .encode .none 0 0 []) := by
  unfold LegalConfig; decide
theorem witness_StartRejectsIllegalConfigurations :
    (ready .encode .horizontal 0 0 []).stat.state ≠ .busy ∧ ¬ LegalConfig (ready .encode .horizontal 0 0 []) := by
  unfold LegalConfig; decide
theorem witness_ResultOnlyWhenDone :
    (encState []).stat.state ≠ .done ∧ { base with stat := { state := .done, err := .none, errpos := 0 } }.stat.state = .done := by
  decide
theorem witness_ResultsDoNotDependOnHistory :
    (ready .decode .none 0 7 [0x20, 0xC0, 0x40]).host = [] ∧
      (nextOf (exec .start (ready .decode .none 0 7 [0x20, 0xC0, 0x40]))).isSome ∧
      (nextOf (exec .start { ready .decode .none 0 7 [0x20, 0xC0, 0x40] with free := 5, brPos := 3 })).isSome := by decide
theorem witness_StepKeepsTheInvariant : Inv (encState [0x41]) ∧ (nextOf (step (encState [0x41]))).isSome :=
  ⟨encState_inv, by decide⟩
theorem witness_RunningBlockKeepsItsInput :
    (encState [0x41]).stat.state = .busy ∧ (nextOf (step (encState [0x41]))).isSome := by decide
theorem witness_OutputIsAppendOnly :
    decAB.stat.state = .busy ∧ decAB.phase = .lzw ∧ (nextOf (step decAB)).map (·.outLen) = some 4 ∧
      (nextOf (step decAB)).map (·.stat.state) = some .busy := by decide
/-- The compressed stream of `41` (V6), then a decode of it. -/
theorem witness_DecodeUndoesEncode :
    LegalConfig (ready .encode .none 0 0 [0x41]) ∧
      (((nextOf (exec .start (ready .encode .none 0 0 [0x41]))).bind fun a => nextOf (exec .encode a)).map fun b =>
          (b.outLen, outBytes b)) = some (3, [0x20, 0xC0, 0x40]) ∧
      (ready .decode .none 0 1 [0x20, 0xC0, 0x40]).inLen = 3 ∧ 3 ≤ (ready .encode .none 0 0 [0x41]).maxInLen ∧
      inBytes (ready .decode .none 0 1 [0x20, 0xC0, 0x40]) = [0x20, 0xC0, 0x40] := by
  unfold LegalConfig; decide

end Sys2Proof.Tests
end

section
/-! PROOFS. The width of a code (R9, R10). -/

namespace Sys2Proof

/-- The width by the four ranges of R9. -/
theorem Wd_cases (n : Nat) :
    (n ≤ 510 ∧ Wd n = .w9) ∨ (511 ≤ n ∧ n ≤ 1022 ∧ Wd n = .w10) ∨ (1023 ≤ n ∧ n ≤ 2046 ∧ Wd n = .w11) ∨
      (2047 ≤ n ∧ Wd n = .w12) := by
  unfold Wd
  split
  · exact .inl ⟨by omega, rfl⟩
  · split
    · exact .inr (.inl ⟨by omega, by omega, rfl⟩)
    · split
      · exact .inr (.inr (.inl ⟨by omega, by omega, rfl⟩))
      · exact .inr (.inr (.inr ⟨by omega, rfl⟩))

/-- A count is below the all-ones code of its width, except past the last width. -/
theorem lt_two_pow_Wd_bits (n : Nat) : n < 2 ^ (Wd n).bits - 1 ∨ (4095 ≤ n ∧ (Wd n).bits = 12) := by
  obtain ⟨hn, h⟩ | ⟨-, hn, h⟩ | ⟨-, hn, h⟩ | ⟨-, h⟩ := Wd_cases n <;>
    simp only [h, Width.bits, and_true] <;> omega

/-- No narrower width fits a count. -/
theorem two_pow_le_of_lt_Wd_bits {n w : Nat} (h9 : 9 ≤ w) (hw : w < (Wd n).bits) : 2 ^ w - 1 ≤ n := by
  have mono : ∀ k, w ≤ k → 2 ^ w ≤ 2 ^ k := fun k => Nat.pow_le_pow_right (by decide)
  obtain ⟨-, h⟩ | ⟨hn, -, h⟩ | ⟨hn, -, h⟩ | ⟨hn, h⟩ := Wd_cases n <;> rw [h, Width.bits] at hw
  · omega
  · have := mono 9 (by omega); omega
  · have := mono 10 (by omega); omega
  · have := mono 11 (by omega); omega

/-- Settles O5: the clauses by range from the four ranges, the last two from the minimality of the width. -/
theorem widthIsTheSmallestThatFits : Obligations.WidthIsTheSmallestThatFits := by
  intro n
  refine ⟨?_, ?_, ?_, ?_, ?smallest, fun w h9 hw => Nat.not_lt.2 (two_pow_le_of_lt_Wd_bits h9 hw)⟩
  case smallest =>
    refine (lt_two_pow_Wd_bits n).imp_right fun ⟨hn, hw⟩ => ⟨hw, fun w _ h12 => ?_⟩
    have : 2 ^ w ≤ 2 ^ 12 := Nat.pow_le_pow_right (by decide) h12
    omega
  all_goals
    intros
    obtain ⟨h, hw⟩ | ⟨h, h', hw⟩ | ⟨h, h', hw⟩ | ⟨h, hw⟩ := Wd_cases n <;> simp only [hw, Width.bits] <;> omega

end Sys2Proof
end

section
/-! PROOFS. Running the machine: `n` steps from a state to a state. -/

namespace Sys2Proof.Machine

/-- A run that goes on after `m` steps. -/
theorem run_add {M : Host.Core} {s t : M.State} {m : Nat} (n : Nat) (h : M.run m s = .next t) :
    M.run (m + n) s = M.run n t := by
  induction m generalizing s with
  | zero => cases h; rw [Nat.zero_add]
  | succ m ih =>
    rw [Nat.succ_add]
    simp only [Host.Core.run] at h ⊢
    split at h
    · next u hu => exact ih h
    · cases h
    · cases h

/-- `n` steps lead from `s` to `t`. -/
def Runs (n : Nat) (s t : State) : Prop := core.run n s = .next t

theorem Runs.step {s t : State} (h : step s = .next t) : Runs 1 s t := by
  simp only [Runs, Host.Core.run, show core.step s = .next t from h]

theorem Runs.trans {m n : Nat} {s t u : State} (h : Runs m s t) (k : Runs n t u) : Runs (m + n) s u :=
  (run_add n h).trans k

/-- A step and then `n` steps. -/
theorem Runs.head {n : Nat} {s t u : State} (h : Machine.step s = .next t) (k : Runs n t u) : Runs (n + 1) s u :=
  Nat.add_comm 1 n ▸ (Runs.step h).trans k

/-- A step of a BUSY block in the forward pass is one row. -/
theorem step_fwd {s : State} {r : Nat} (hb : s.stat.state = .busy) (hp : s.phase = .fwd r) : step s = fwdStep r s := by
  simp only [step, hb, busyStep, hp]

/-- A step of a BUSY block in the inverse pass is one row. -/
theorem step_inv {s : State} {r : Nat} (hb : s.stat.state = .busy) (hp : s.phase = .inv r) : step s = invStep r s := by
  simp only [step, hb, busyStep, hp]

/-- A step of a BUSY encode in its byte loop is the operation the encoder's state selects. -/
theorem step_lzw_encode {s : State} (hb : s.stat.state = .busy) (hp : s.phase = .lzw) (hm : s.cfg.mode = .encode) :
    step s = runEnc (encSelect s) s := by
  simp only [step, hb, busyStep, hp, hm, exec_encInstr]

end Sys2Proof.Machine
end

section
/-! PROOFS. The rows of the predictor run one a step (R11) against `HD.FWD` and `HD.INV` run whole (R119, R122). -/

namespace Sys2Proof.Machine

theorem foldl_fwdRow_setPhase (l : List Nat) (p : Phase) (s : State) :
    l.foldl (fun t r => fwdRow r t) (s.setPhase p) = (l.foldl (fun t r => fwdRow r t) s).setPhase p :=
  List.foldl_hom (State.setPhase · p) fun _ _ => rfl

theorem foldl_invRow_setPhase (l : List Nat) (p : Phase) (s : State) :
    l.foldl (fun t r => invRow r t) (s.setPhase p) = (l.foldl (fun t r => invRow r t) s).setPhase p :=
  List.foldl_hom (State.setPhase · p) fun _ _ => rfl

/-- The steps from row `r` of the forward pass to its last row are the rows, and then the LZW pass comes next. -/
theorem runs_fwd_rows {s : State} {r n : Nat} (hb : s.stat.state = .busy) (hp : s.phase = .fwd r)
    (hw : 0 < s.cfg.roww) (hn : s.inLen = (r + n + 1) * s.cfg.roww) :
    Runs (n + 1) s (((List.range' r (n + 1)).foldl (fun t r => fwdRow r t) s).setPhase .lzw) := by
  induction n generalizing s r with
  | zero =>
    refine .step ?_
    rw [step_fwd hb hp, fwdStep, if_pos (by simp [fwdGeometry, hw, hn]), if_neg (by rw [hn]; simp)]
    rfl
  | succ n ih =>
    have hlt : (r + 1) * s.cfg.roww < s.inLen := by
      rw [hn]; exact Nat.mul_lt_mul_of_pos_right (by omega) hw
    have hs : step s = .next ((fwdRow r s).setPhase (.fwd (r + 1))) := by
      rw [step_fwd hb hp, fwdStep, if_pos (by simp [fwdGeometry, hw, hn]), if_pos hlt]
    have rest := ih (s := (fwdRow r s).setPhase (.fwd (r + 1))) (r := r + 1) hb rfl hw
      (by rw [Nat.add_right_comm r 1 n]; exact hn)
    rw [foldl_fwdRow_setPhase] at rest
    exact .head hs rest

/-- The steps from row `r` of the inverse pass to its last row are the rows, and DONE after them (R131). -/
theorem runs_inv_rows {s : State} {r n : Nat} (hb : s.stat.state = .busy) (hp : s.phase = .inv r)
    (hw : 0 < s.cfg.roww) (hlo : (r + n) * s.cfg.roww < s.outLen) (hhi : s.outLen ≤ (r + n + 1) * s.cfg.roww) :
    Runs (n + 1) s
      (setRunState .done (((List.range' r (n + 1)).foldl (fun t r => invRow r t) s).setPhase .lzw)) := by
  induction n generalizing s r with
  | zero =>
    refine .step ?_
    rw [step_inv hb hp, invStep, if_pos hw, if_neg (Nat.not_lt.2 hhi)]
    rfl
  | succ n ih =>
    have hlt : (r + 1) * s.cfg.roww < s.outLen :=
      Nat.lt_of_le_of_lt (Nat.mul_le_mul_right _ (by omega)) hlo
    have hs : step s = .next ((invRow r s).setPhase (.inv (r + 1))) := by
      rw [step_inv hb hp, invStep, if_pos hw, if_pos hlt]
    have rest := ih (s := (invRow r s).setPhase (.inv (r + 1))) (r := r + 1) hb rfl hw
      (by rw [Nat.add_right_comm r 1 n]; exact hlo) (by rw [Nat.add_right_comm r 1 n]; exact hhi)
    rw [foldl_invRow_setPhase] at rest
    exact .head hs rest

/-- `HD.FWD` starts `x` anew, and so does its row 0. -/
theorem fwdAll_eq_rows {s : State} {n : Nat} (hn : s.inLen / s.cfg.roww = n + 1) :
    fwdAll s = ((List.range' 0 (n + 1)).foldl (fun t r => fwdRow r t) s).setPhase .lzw := by
  have first : fwdRow 0 (s.setX []) = fwdRow 0 s := by simp [fwdRow, State.setX]
  rw [fwdAll, hn, List.range_eq_range', List.range'_succ, List.foldl_cons, List.foldl_cons, first]

/-- The row steps of a started encode together are `HD.FWD`. -/
theorem runs_fwdAll {s : State} (hb : s.stat.state = .busy) (hp : s.phase = .fwd 0) (hi : 0 < s.inLen)
    (hg : fwdGeometry s = true) : Runs (s.inLen / s.cfg.roww) s (fwdAll s) := by
  obtain ⟨hw, hm⟩ : 0 < s.cfg.roww ∧ s.inLen % s.cfg.roww = 0 := by simpa [fwdGeometry] using hg
  have hmul := Nat.div_mul_cancel (Nat.dvd_of_mod_eq_zero hm)
  obtain ⟨n, hn⟩ : ∃ n, s.inLen / s.cfg.roww = n + 1 :=
    Nat.exists_eq_succ_of_ne_zero fun h0 => by rw [h0] at hmul; omega
  rw [fwdAll_eq_rows hn, hn]
  exact runs_fwd_rows hb hp hw (by rw [Nat.zero_add, ← hn, hmul])

/-- The row steps of a started inverse pass together are `HD.INV`, then DONE. -/
theorem runs_invAll {s : State} (hb : s.stat.state = .busy) (hp : s.phase = .inv 0) (hw : 0 < s.cfg.roww)
    (ho : 0 < s.outLen) : Runs (invRows s) s (setRunState .done ((invAll s).setPhase .lzw)) := by
  obtain ⟨n, hn⟩ : ∃ n, invRows s = n + 1 :=
    Nat.exists_eq_succ_of_ne_zero (Nat.ne_of_gt (Nat.div_pos (by omega) hw))
  have hlo : (n + 1) * s.cfg.roww ≤ s.outLen + s.cfg.roww - 1 := hn ▸ Nat.div_mul_le_self _ _
  have hhi : s.outLen + s.cfg.roww - 1 < (n + 1 + 1) * s.cfg.roww := by
    rw [← hn, Nat.mul_comm]; exact Nat.lt_mul_div_succ _ hw
  rw [invAll, hn, List.range_eq_range']
  rw [Nat.succ_mul] at hlo hhi
  exact runs_inv_rows hb hp hw (by rw [Nat.zero_add]; omega) (by rw [Nat.zero_add]; omega)

/-- Settles O47, by induction on the rows left in each pass. -/
theorem rowStepsMakeTheWholeTransform : Obligations.RowStepsMakeTheWholeTransform := by
  refine fun s hb hw => ⟨fun hp hi hm => ?_, fun hp ho => ⟨(invAll s).outBuf, ?_, ?_⟩⟩
  · have hg : fwdGeometry s = true := by simp [fwdGeometry, hw, hm]
    exact Eq.trans (runs_fwdAll hb hp hi hg) (if_pos hg).symm
  · show execHdInv s = _
    rw [execHdInv, if_pos hw, ← invAll_eq]
  · have := runs_invAll hb hp hw ho
    rw [invAll_eq] at this
    exact this

end Sys2Proof.Machine
end

section
/-! PROOFS. The encoder's byte steps (R91 to R94): what each answers, and that they keep the encoder's invariant. -/

namespace Sys2Proof.Machine

/-! ## What the encoder writes -/

/-- What an encoder step does outside `E.*`: it uses the packer alone. -/
def EncoderWrites (s t : State) : Prop := WritesStream { s with enc := t.enc } t

/-- The packer's frame does not depend on the encoder's registers. -/
theorem WritesStream.withEnc {s t : State} (e : Enc) (h : WritesStream s t) :
    WritesStream { s with enc := e } { t with enc := e } where
  frame := by rw [h.frame]
  grows := h.grows
  kept := h.kept
  wf := h.wf
  acc := h.acc

theorem WritesStream.encoderWrites {s t : State} (e : Enc) (h : WritesStream s t) :
    EncoderWrites s { t with enc := e } :=
  h.withEnc e

theorem EncoderWrites.frame {s t : State} (h : EncoderWrites s t) :
    t = { s with enc := t.enc, bw := t.bw, outBuf := t.outBuf, outLen := t.outLen } :=
  WritesStream.frame h

/-- A count below the 12-bit limit advances without wrapping. -/
theorem toNat_add_one {c : Code} (h : c.toNat < 4095) : (c + 1).toNat = c.toNat + 1 := by
  bv_omega

/-- After a data code is emitted (R89) the mirror has caught up with `E.NAC`, while the candidate is not yet inserted. -/
theorem emit_dataCode {c : Code} {s : State} (hr : EncRegs s) (hn : EncRunning s) (hc : SeqCode s.enc.nac.toNat c) :
    ∃ t, WritesStream s t ∧
      emit c s =
        { t with enc := { s.enc with dcnt := s.enc.nac, emitted := true, width := Wd s.enc.nac.toNat } } := by
  obtain ⟨t, n, em, hw, he, ⟨hctl, -, -⟩ | ⟨-, rfl, hem⟩⟩ := emit_cases c s
  · rcases hc with hc | hc <;> omega
  · have hnac : n = s.enc.nac := by
      apply BitVec.eq_of_toNat_eq
      have hlt := hr.nac_high
      rcases hem with ⟨hem, rfl⟩ | ⟨hem, rfl⟩
      · have := hn.emitted hem
        rw [toNat_add_one (by omega)]
        exact this
      · obtain ⟨hd, hn'⟩ := hn.not_emitted hem
        rw [hd, hn']
    exact ⟨t, hw, by rw [he, hnac]⟩

/-- A code the encoder may hold fits the width in force (R90): `writeCode`'s precondition is met. -/
theorem codeFits_seqCode {c : Code} {s : State} (hr : EncRegs s) (hn : EncRunning s) (hc : SeqCode s.enc.nac.toNat c) :
    codeFits c (encWidth s) = true := by
  have hlow := hr.dcnt_low
  have hd : s.enc.nac.toNat ≤ s.enc.dcnt.toNat + 1 := by
    cases hem : s.enc.emitted with
    | true => exact (hn.emitted hem).ge
    | false => obtain ⟨hd, hn'⟩ := hn.not_emitted hem; omega
  rw [codeFits, decide_eq_true_iff, encWidth]
  obtain h | ⟨h, -⟩ := lt_two_pow_Wd_bits s.enc.dcnt.toNat
  · rcases hc with hc | hc <;> omega
  · have := hr.dcnt_high; omega

/-! ## The dictionary on a miss -/

/-- A new key goes to the end of the dictionary. -/
theorem dictSet_of_miss {d : List DictEntry} {p : Code} {b : Byte} (k : Code) (h : dictFind d p b = none) :
    dictSet d p b k = d ++ [{ pre := p, byte := b, code := k }] := by
  rw [dictFind, Option.map_eq_none_iff, List.find?_eq_none] at h
  rw [dictSet, List.filter_eq_self.2 fun e he => by simpa using h e he]

/-- A key that is not found is no key of the dictionary. -/
theorem key_notMem_of_miss {d : List DictEntry} {p : Code} {b : Byte} (h : dictFind d p b = none) :
    (p, b) ∉ d.map fun e => (e.pre, e.byte) := by
  rw [dictFind, Option.map_eq_none_iff, List.find?_eq_none] at h
  intro hm
  obtain ⟨e, he, hk⟩ := List.mem_map.1 hm
  exact h e he (hasKey_iff.2 (Prod.mk.inj hk))

/-- A code found is that of an entry. -/
theorem mem_of_dictFind {d : List DictEntry} {p : Code} {b : Byte} {k : Code} (h : dictFind d p b = some k) :
    { pre := p, byte := b, code := k : DictEntry } ∈ d := by
  obtain ⟨⟨q, c, k'⟩, he, rfl⟩ := Option.map_eq_some_iff.1 h
  obtain ⟨rfl, rfl⟩ := hasKey_iff.1 (List.find?_some he)
  exact List.mem_of_find?_eq_some he

/-- Every code of the dictionary is a learned code below `E.NAC` (R24). -/
theorem EncRegs.code_bounds {s : State} (h : EncRegs s) {e : DictEntry} (he : e ∈ s.enc.dict) :
    258 ≤ e.code.toNat ∧ e.code.toNat < s.enc.nac.toNat := by
  have hm : e.code.toNat ∈ List.range' 258 (s.enc.nac.toNat - 258) := h.dict_codes ▸ List.mem_map_of_mem he
  rw [List.mem_range'_1] at hm
  omega

/-! ## What each byte step answers -/

section
variable {s : State} {b : Byte} (hi : s.enc.ipos < s.inLen) (hx : inputByte s = some b)
include hi hx

theorem byteStep_of_byte (name : String) (f : Byte → Host.Outcome State Fault Refusal) : byteStep name s f = f b := by
  rw [byteStep, if_pos hi, hx]

/-- `ENC.FIRST` where it is selected (R91). -/
theorem execEncFirst_of_first (hc : s.enc.curv = false) :
    execEncFirst s =
      .next { s with enc := { s.enc with curv := true, cur := literalCode b, ipos := s.enc.ipos + 1 } } := by
  rw [execEncFirst, byteStep_of_byte hi hx, hc]
  rfl

/-- `ENC.HIT` where it is selected (R92). -/
theorem execEncHit_of_hit {k : Code} (hc : s.enc.curv = true) (hk : dictFind s.enc.dict s.enc.cur b = some k) :
    execEncHit s = .next { s with enc := { s.enc with cur := k, ipos := s.enc.ipos + 1 } } := by
  rw [execEncHit, byteStep_of_byte hi hx, hc, hk]
  rfl

/-- `ENC.MISS` where it is selected (R93): the match's code leaves, the candidate is learned, the byte starts a match. -/
theorem execEncMiss_of_miss (hr : EncRegs s) (hn : EncRunning s) (hc : s.enc.curv = true)
    (hk : dictFind s.enc.dict s.enc.cur b = none) (hl : s.enc.nac.toNat < 4094) :
    ∃ t, execEncMiss s = .next t ∧ EncoderWrites s t ∧
      t.enc = { s.enc with
        dict := s.enc.dict ++ [{ pre := s.enc.cur, byte := b, code := s.enc.nac }], nac := s.enc.nac + 1,
        dcnt := s.enc.nac, emitted := true, width := Wd s.enc.nac.toNat, cur := literalCode b,
        ipos := s.enc.ipos + 1 } := by
  obtain ⟨t, hw, he⟩ := emit_dataCode hr hn (hn.cur_code hc)
  have hex : execEncMiss s =
      .next (advanceMatch (literalCode b) (insertEntry s.enc.cur b (emit s.enc.cur s))) := by
    rw [execEncMiss, byteStep_of_byte hi hx, hc, hk]
    simp only [Config.nacLimit, hl, codeFits_seqCode hr hn (hn.cur_code hc), if_true]
  obtain ⟨hfull, -⟩ | ⟨-, hins⟩ := insertEntry_cases s.enc.cur b (emit s.enc.cur s)
  · rw [he] at hfull; exact absurd hfull (Nat.ne_of_lt hl)
  · refine ⟨_, ?_, hw.encoderWrites _, rfl⟩
    rw [hex, hins, he, ← dictSet_of_miss _ hk]
    rfl

/-- `ENC.MISS_FULL` where it is selected (R94): the match's code and a `CLR` leave, the dictionary is emptied, the byte starts
a match. -/
theorem execEncMissFull_of_full (hr : EncRegs s) (hn : EncRunning s) (hc : s.enc.curv = true)
    (hk : dictFind s.enc.dict s.enc.cur b = none) (hl : s.enc.nac.toNat = 4094) :
    ∃ t, execEncMissFull s = .next t ∧ EncoderWrites s t ∧
      t.enc = { s.enc with
        dict := [], nac := 258, dcnt := 258, emitted := false, width := .w9, cur := literalCode b,
        ipos := s.enc.ipos + 1 } := by
  obtain ⟨t, hw, he⟩ := emit_dataCode hr hn (hn.cur_code hc)
  have hex : execEncMissFull s =
      .next (advanceMatch (literalCode b)
        (encReset (emit (BitVec.ofNat 12 Config.clear) (insertEntry s.enc.cur b (emit s.enc.cur s))))) := by
    rw [execEncMissFull, byteStep_of_byte hi hx, hc, hk]
    simp only [dictFull, hl, codeFits_seqCode hr hn (hn.cur_code hc), Config.nacLimit, beq_self_eq_true, if_true]
  obtain ⟨-, hins⟩ | ⟨hne, -⟩ := insertEntry_cases s.enc.cur b (emit s.enc.cur s)
  · obtain ⟨u, n, em, hu, hclr, -⟩ := emit_cases (BitVec.ofNat 12 Config.clear) (emit s.enc.cur s)
    have hsu : WritesStream s { u with enc := s.enc } := by
      rw [he] at hu
      exact (hw.withEnc s.enc).trans (hu.withEnc s.enc)
    refine ⟨_, ?_, hsu.encoderWrites _, rfl⟩
    rw [hex, hins, hclr, he]
    rfl
  · rw [he] at hne; exact absurd hl hne

end

/-! ## The invariant of the byte loop -/

/-- The registers' invariant at the start of a session (R86, R155). -/
theorem EncRegs.of_session_start {s : State} (hd : s.enc.dict = []) (hn : s.enc.nac = 258) (hc : s.enc.dcnt = 258)
    (hw : s.enc.width = .w9) (ha : s.bw.acc.toNat < 2 ^ s.bw.cnt.toNat) : EncRegs s := by
  constructor
  case width_eq => rw [hw, hc]; rfl
  case acc_low => exact ha
  all_goals simp [hd, hn, hc]

/-- The registers' invariant says nothing of the match and of the cursor (R39). -/
theorem EncRegs.withMatch {s t : State} {v : Bool} {c : Code} {i : Nat} (h : EncRegs s)
    (he : t.enc = { s.enc with curv := v, cur := c, ipos := i }) (hb : t.bw = s.bw) : EncRegs t := by
  obtain ⟨h1, h2, h3, h4, h5, h6, h7, h8, h9⟩ := h
  constructor <;> simpa only [he, hb]

/-- A literal is the code of a sequence (R20). -/
theorem seqCode_literalCode (n : Nat) (b : Byte) : SeqCode n (literalCode b) := by
  have := b.isLt
  left
  simp only [literalCode, BitVec.toNat_setWidth]
  omega

/-- Learning a new key under `E.NAC` keeps the registers' invariant (R24, R88, R89). -/
theorem EncRegs.learn {s t : State} {b : Byte} (h : EncRegs s) (hp : SeqCode s.enc.nac.toNat s.enc.cur)
    (hk : dictFind s.enc.dict s.enc.cur b = none) (hl : s.enc.nac.toNat < 4094)
    (hd : t.enc.dict = s.enc.dict ++ [{ pre := s.enc.cur, byte := b, code := s.enc.nac }])
    (hn : t.enc.nac = s.enc.nac + 1) (hc : t.enc.dcnt = s.enc.nac) (hw : t.enc.width = Wd s.enc.nac.toNat)
    (ha : t.bw.acc.toNat < 2 ^ t.bw.cnt.toNat) : EncRegs t := by
  have hlow := h.nac_low
  have hn' : t.enc.nac.toNat = s.enc.nac.toNat + 1 := by rw [hn, toNat_add_one (by omega)]
  constructor
  case nac_low => omega
  case nac_high => omega
  case dcnt_low => rw [hc]; exact hlow
  case dcnt_high => rw [hc]; omega
  case width_eq => rw [hw, hc]
  case dict_codes =>
    rw [hd, List.map_append, h.dict_codes, hn', show s.enc.nac.toNat + 1 - 258 = s.enc.nac.toNat - 258 + 1 by omega,
      List.range'_1_concat]
    simp only [List.map_cons, List.map_nil]
    rw [show 258 + (s.enc.nac.toNat - 258) = s.enc.nac.toNat by omega]
  case dict_keys =>
    rw [hd, List.map_append, List.nodup_append_comm]
    exact List.nodup_cons.2 ⟨key_notMem_of_miss hk, h.dict_keys⟩
  case dict_prefix =>
    intro e he
    rw [hd] at he
    rcases List.mem_append.1 he with he | he
    · exact h.dict_prefix e he
    · rw [List.mem_singleton.1 he]; exact hp
  case acc_low => exact ha

/-- A BUSY encode in its byte loop (R128): the part of the invariant that the byte steps need and keep. -/
structure ByteLoop (s : State) : Prop where
  busy : s.stat.state = .busy
  mode : s.cfg.mode = .encode
  phase : s.phase = .lzw
  regs : EncRegs s
  running : EncRunning s
  delivered : s.x.length = s.inLen

/-- What a byte step has to show of its result. -/
theorem ByteLoop.of_writes {s t : State} (h : ByteLoop s) (hw : EncoderWrites s t) (hr : EncRegs t)
    (hn : EncRunning t) : ByteLoop t := by
  have hf := hw.frame
  exact ⟨by rw [hf]; exact h.busy, by rw [hf]; exact h.mode, by rw [hf]; exact h.phase, hr, hn,
    by rw [hf]; exact h.delivered⟩

/-- Where a match is held and the byte is taken, what is left of the running invariant is the new match's code and the
mirror. -/
theorem EncRunning.of_match {t : State} (hv : t.enc.curv = true) (hc : SeqCode t.enc.nac.toNat t.enc.cur)
    (hi : t.enc.ipos ≤ t.inLen)
    (hm : t.enc.emitted = false → t.enc.dcnt.toNat = 258 ∧ t.enc.nac.toNat = 258)
    (he : t.enc.emitted = true → t.enc.dcnt.toNat + 1 = t.enc.nac.toNat) : EncRunning t :=
  ⟨fun _ => hc, fun h => absurd (hv.symm.trans h) (by decide), hm, he, hi⟩

/-- A match taken over, nothing written: `ENC.FIRST` and `ENC.HIT` keep the byte loop. -/
theorem ByteLoop.withMatch {s : State} {v : Bool} {c : Code} (h : ByteLoop s) (hi : s.enc.ipos < s.inLen)
    (hv : v = true) (hc : SeqCode s.enc.nac.toNat c) :
    ByteLoop { s with enc := { s.enc with curv := v, cur := c, ipos := s.enc.ipos + 1 } } :=
  h.of_writes ((WritesStream.refl s).encoderWrites _) (h.regs.withMatch rfl rfl)
    (.of_match hv hc hi h.running.not_emitted h.running.emitted)

end Sys2Proof.Machine
end

section
/-! PROOFS. The byte loop (R95) runs to DONE, one step a byte and one for the finish. -/

namespace Sys2Proof.Machine

/-- A byte step of a running encode answers a next state, in the byte loop again, with one byte consumed (R95, R97). -/
theorem ByteLoop.step_byte {s : State} (h : ByteLoop s) (hi : s.enc.ipos < s.inLen) :
    ∃ t, step s = .next t ∧ ByteLoop t ∧ EncoderWrites s t ∧ t.enc.ipos = s.enc.ipos + 1 := by
  obtain ⟨b, hx⟩ : ∃ b, inputByte s = some b := ⟨_, List.getElem?_eq_getElem (h.delivered.symm ▸ hi)⟩
  rw [step_lzw_encode h.busy h.phase h.mode]
  have hr := h.regs
  have hn := h.running
  cases hc : s.enc.curv with
  | false =>
    have hsel : encSelect s = .first := by simp [encSelect, hi, hc]
    rw [hsel]
    exact ⟨_, execEncFirst_of_first hi hx hc, h.withMatch hi rfl (seqCode_literalCode _ b),
      (WritesStream.refl s).encoderWrites _, rfl⟩
  | true =>
    cases hk : dictFind s.enc.dict s.enc.cur b with
    | some k =>
      have hsel : encSelect s = .hit := by simp [encSelect, hi, hc, hx, hk]
      rw [hsel]
      exact ⟨_, execEncHit_of_hit hi hx hc hk, h.withMatch hi hc (.inr (hr.code_bounds (mem_of_dictFind hk))),
        (WritesStream.refl s).encoderWrites _, rfl⟩
    | none =>
      rcases Nat.lt_or_eq_of_le hr.nac_high with hl | hl
      · have hsel : encSelect s = .miss := by simp [encSelect, hi, hc, hx, hk, dictFull, Nat.ne_of_lt hl]
        obtain ⟨t, ht, hw, he⟩ := execEncMiss_of_miss hi hx hr hn hc hk hl
        rw [hsel]
        refine ⟨t, ht, h.of_writes hw ?_ ?_, hw, by rw [he]⟩
        · exact hr.learn (hn.cur_code hc) hk hl (by rw [he]) (by rw [he]) (by rw [he]) (by rw [he]) (hw.acc hr.acc_low)
        · refine .of_match (by rw [he]; exact hc) (by rw [he]; exact seqCode_literalCode _ b)
            (by rw [he, hw.frame]; exact hi) (by rw [he]; exact nofun) fun _ => ?_
          rw [he]
          exact (toNat_add_one (c := s.enc.nac) (by omega)).symm
      · have hsel : encSelect s = .missFull := by simp [encSelect, hi, hc, hx, hk, dictFull, hl]
        obtain ⟨t, ht, hw, he⟩ := execEncMissFull_of_full hi hx hr hn hc hk hl
        rw [hsel]
        refine ⟨t, ht, h.of_writes hw ?_ ?_, hw, by rw [he]⟩
        · exact .of_session_start (by rw [he]) (by rw [he]) (by rw [he]) (by rw [he]) (hw.acc hr.acc_low)
        · exact .of_match (by rw [he]; exact hc) (by rw [he]; exact seqCode_literalCode _ b)
            (by rw [he, hw.frame]; exact hi) (fun _ => by rw [he]; exact ⟨rfl, rfl⟩) (by rw [he]; exact nofun)

/-- `ENC.FINISH` at the end of the input (R96). -/
theorem ByteLoop.execEncFinish_of_end {s : State} (h : ByteLoop s) (hi : s.enc.ipos = s.inLen) :
    execEncFinish s = .next (setRunState .done (finishStream s)) := by
  rw [execEncFinish, if_pos hi, if_neg]
  cases hc : s.enc.curv with
  | false => simp
  | true => simp [codeFits_seqCode h.regs h.running (h.running.cur_code hc)]

/-- The byte loop as one operation is the run of its steps, and ends in DONE. -/
theorem ByteLoop.runs_encLoop {s : State} {k : Nat} (h : ByteLoop s) (hk : s.enc.ipos + k = s.inLen) :
    ∃ t, encLoop k s = .next t ∧ Runs (k + 1) s t ∧ t.stat.state = .done := by
  induction k generalizing s with
  | zero =>
    have hf := h.execEncFinish_of_end hk
    refine ⟨_, hf, .step ?_, rfl⟩
    have hsel : encSelect s = .finish := by rw [encSelect, if_neg (by omega)]
    rw [step_lzw_encode h.busy h.phase h.mode, hsel]
    exact hf
  | succ k ih =>
    obtain ⟨u, hs, hu, hw, hpos⟩ := h.step_byte (by omega)
    have hlen : u.inLen = s.inLen := by rw [hw.frame]
    obtain ⟨t, ht, hrun, hdone⟩ := ih hu (by omega)
    refine ⟨t, ?_, .head hs hrun, hdone⟩
    rw [encLoop, ← step_lzw_encode h.busy h.phase h.mode, hs]
    exact ht

end Sys2Proof.Machine
end

section
/-! PROOFS. An encode invocation (R127, R128): what START leaves, the predictor's pass, the command against the steps. -/

namespace Sys2Proof.Machine

/-- `HD.FWD` delivers a byte of `x` for each byte of its rows (R119). -/
theorem fwdAll_x_length {s : State} (hg : fwdGeometry s = true) : (fwdAll s).x.length = s.inLen := by
  have rows : ∀ n, ((List.range n).foldl (fun t r => fwdRow r t) (s.setX [])).x.length = n * s.cfg.roww ∧
      ((List.range n).foldl (fun t r => fwdRow r t) (s.setX [])).cfg = s.cfg := by
    intro n
    induction n with
    | zero => simp
    | succ n ih =>
      obtain ⟨hl, hc⟩ := ih
      rw [List.range_succ, List.foldl_append, List.foldl_cons, List.foldl_nil, fwdRow]
      simp [hl, hc, Nat.succ_mul]
  obtain ⟨-, hm⟩ : 0 < s.cfg.roww ∧ s.inLen % s.cfg.roww = 0 := by simpa [fwdGeometry] using hg
  exact (rows _).1.trans (Nat.div_mul_cancel (Nat.dvd_of_mod_eq_zero hm))

/-- A legal configuration passes START's checks (R127). -/
theorem configBad_of_legal {s : State} (h : LegalConfig s) : configBad s = false := by
  obtain ⟨hin, hexp, hpred⟩ := h
  simp only [configBad, Bool.or_eq_false_iff, Bool.and_eq_false_imp, beq_iff_eq, Bool.and_eq_true,
    decide_eq_false_iff_not, Nat.not_lt,
    Bool.not_eq_false', beq_eq_false_iff_ne]
  refine ⟨⟨⟨⟨hin, hexp⟩, fun hp => ?_⟩, fun ⟨hp, hm⟩ => ?_⟩, fun ⟨hp, hm⟩ => ?_⟩ <;>
    obtain ⟨hw, hfwd, hinv⟩ := hpred hp
  · exact hw
  · exact hfwd hm
  · exact hinv hm

/-- What START leaves of an encode before the operation is entered: a BUSY block with a fresh encoder (R127, R155). -/
structure EncStarted (s : State) : Prop where
  busy : s.stat.state = .busy
  mode : s.cfg.mode = .encode
  regs : EncRegs s
  running : EncRunning s
  ipos : s.enc.ipos = 0

theorem encStarted_encBegin {s : State} (hm : s.cfg.mode = .encode) : EncStarted (encBegin (clearStatus s)) where
  busy := rfl
  mode := hm
  regs := .of_session_start rfl rfl rfl rfl Nat.one_pos
  running := ⟨nofun, fun _ => ⟨rfl, rfl⟩, fun _ => ⟨rfl, rfl⟩, nofun, Nat.zero_le _⟩
  ipos := rfl

/-- With the whole `x` delivered a started encode is in its byte loop. -/
theorem EncStarted.deliver {s : State} (h : EncStarted s) {x : List Byte} (hx : x.length = s.inLen) :
    ByteLoop { s with x := x, phase := .lzw } where
  busy := h.busy
  mode := h.mode
  phase := rfl
  regs := h.regs.withMatch rfl rfl
  running := ⟨h.running.cur_code, h.running.fresh, h.running.not_emitted, h.running.emitted, h.running.ipos_le⟩
  delivered := hx

/-- Entering an operation writes `x` and the phase alone. -/
theorem enterPass_eq (s : State) : enterPass s = { s with x := (enterPass s).x, phase := (enterPass s).phase } := by
  cases hm : s.cfg.mode <;> cases hp : s.cfg.pred <;> simp only [enterPass, predIdentity, hm, hp] <;> rfl

/-- Where an encode with the predictor off begins: at its byte loop (R123, R128). -/
theorem enterPass_encode_none {s : State} (hm : s.cfg.mode = .encode) (hp : s.cfg.pred = .none) :
    enterPass s = { s with x := inBytes s, phase := .lzw } := by
  simp only [enterPass, hm, hp, predIdentity]; rfl

/-- Where an encode with the predictor on begins: at row 0, or at its byte loop when there is none (R128). -/
theorem enterPass_encode_horizontal {s : State} (hm : s.cfg.mode = .encode) (hp : s.cfg.pred = .horizontal) :
    enterPass s = { s with x := [], phase := if s.inLen = 0 then .lzw else .fwd 0 } := by
  simp only [enterPass, hm, hp]; rfl

/-- The steps of the forward pass of a started encode, none for an empty input, are `HD.FWD`. -/
theorem EncStarted.runs_fwdAll {s : State} (h : EncStarted s) (hp : s.cfg.pred = .horizontal)
    (hg : fwdGeometry (enterPass s) = true) :
    Runs (s.inLen / s.cfg.roww) (enterPass s) (fwdAll (enterPass s)) := by
  have ha := enterPass_encode_horizontal h.mode hp
  have hin : (enterPass s).inLen = s.inLen := by rw [ha]
  by_cases h0 : s.inLen = 0
  · have hnil : (fwdAll (enterPass s)).x = [] :=
      List.eq_nil_of_length_eq_zero ((fwdAll_x_length hg).trans (hin.trans h0))
    have hstay : fwdAll (enterPass s) = enterPass s := by rw [fwdAll_eq, hnil, ha, if_pos h0]
    rw [hstay, h0, Nat.zero_div]
    rfl
  · have hrun := Machine.runs_fwdAll (s := enterPass s) (by rw [ha]; exact h.busy) (by rw [ha]; exact if_neg h0)
      (by omega) hg
    rwa [hin, show (enterPass s).cfg = s.cfg by rw [ha]] at hrun

/-- The predictor's part of `ENCODE` is the run of the steps before the byte loop: none with the predictor off, a step a row
with it on (R128). -/
theorem EncStarted.runs_forwardPass {s : State} (h : EncStarted s)
    (hg : s.cfg.pred = .horizontal → fwdGeometry s = true) :
    ∃ x m, forwardPass (enterPass s) = .next { s with x := x, phase := .lzw } ∧ x.length = s.inLen ∧
      m ≤ s.inLen ∧ Runs m (enterPass s) { s with x := x, phase := .lzw } := by
  cases hp : s.cfg.pred with
  | none =>
    rw [enterPass_encode_none h.mode hp]
    refine ⟨inBytes s, 0, ?_, by simp [inBytes], Nat.zero_le _, rfl⟩
    simp only [forwardPass, hp, predIdentity, h.mode]
    rfl
  | horizontal =>
    have ha := enterPass_eq s
    have hga : fwdGeometry (enterPass s) = true := by rw [ha]; exact hg hp
    have hfwd : fwdAll (enterPass s) = { s with x := (fwdAll (enterPass s)).x, phase := .lzw } :=
      (fwdAll_eq _).trans (by rw [ha])
    refine ⟨_, s.inLen / s.cfg.roww, ?_, (fwdAll_x_length hga).trans (by rw [ha]), Nat.div_le_self _ _,
      hfwd ▸ h.runs_fwdAll hp hga⟩
    rw [forwardPass, show (enterPass s).cfg.pred = .horizontal by rw [ha]; exact hp, ← hfwd]
    exact if_pos hga

/-- START with a legal encode configuration (R127). -/
theorem execStart_of_legal_encode {s : State} (hb : s.stat.state ≠ .busy) (hm : s.cfg.mode = .encode)
    (hl : LegalConfig s) : execStart s = .next (enterPass (encBegin (clearStatus s))) := by
  have hr : invocationReset (clearStatus s) = encBegin (clearStatus s) := by
    rw [invocationReset, show (clearStatus s).cfg.mode = .encode from hm]
  obtain ⟨hb', -⟩ | ⟨-, hc, -⟩ | ⟨-, -, hs⟩ := execStart_cases s
  · exact absurd hb' hb
  · rw [configBad_of_legal hl] at hc; cases hc
  · rw [hs, hr]

/-- `ENCODE` once the predictor's pass is done (R128). -/
theorem execEncode_of_forwardPass {s u : State} (hb : s.stat.state = .busy) (hm : s.cfg.mode = .encode)
    (hf : forwardPass s = .next u) : execEncode s = encLoop (u.inLen - u.enc.ipos) u := by
  rw [execEncode, if_pos ⟨hm, hb⟩, hf]

/-- Settles O27: the predictor's pass is the run of its rows, the byte loop the run of its steps. -/
theorem encodeCommandIsTheRunOfSteps : Obligations.EncodeCommandIsTheRunOfSteps := by
  intro s hb hm hl
  have hs := encStarted_encBegin hm
  have hg : s.cfg.pred = .horizontal → fwdGeometry s = true := fun hp => by
    obtain ⟨-, -, hpred⟩ := hl
    obtain ⟨hw, hrows, -⟩ := hpred hp
    simp [fwdGeometry, Nat.pos_of_ne_zero hw, hrows hm]
  obtain ⟨x, m, hf, hx, hmle, hpass⟩ := hs.runs_forwardPass hg
  have hloop := hs.deliver hx
  obtain ⟨b, hb', hbytes, hdone⟩ := hloop.runs_encLoop (k := s.inLen) (by rw [hs.ipos, Nat.zero_add]; rfl)
  have hcmd := execEncode_of_forwardPass (by rw [enterPass_eq]; exact hs.busy) (by rw [enterPass_eq]; exact hs.mode) hf
  have hm' : m ≤ s.inLen := hmle
  exact ⟨_, b, m + (s.inLen + 1), execStart_of_legal_encode hb hm hl, hcmd.trans hb', by omega, hpass.trans hbytes,
    hdone⟩

end Sys2Proof.Machine
end

section
/-! PROOFS. The codes of the stream through the dispatch (R63, R64), and what a class arm can answer (R104). -/

namespace Sys2Proof.Machine

/-! ## Codes through the dispatch -/

theorem exec_lit (w : Width) (b : Byte) (s : State) : exec (Instr.lit w b) s = litArm b s := by
  cases w <;> rfl

theorem exec_clr (w : Width) (s : State) : exec (Instr.clr w) s = clrArm s := by
  cases w <;> rfl

theorem exec_eoi (w : Width) (s : State) : exec (Instr.eoi w) s = eoiArm s := by
  cases w <;> rfl

/-- The low bits of a code at a width, zero-extended again (R63). -/
def truncCode (w : Width) (c : Code) : Code := (c.setWidth w.bits).setWidth 12

theorem truncCode_w12 (c : Code) : truncCode .w12 c = c := by
  simp [truncCode, Width.bits]

theorem exec_dict (w : Width) (c : Code) (s : State) : exec (Instr.dict w c) s = dictArm (truncCode w c) s := by
  cases w
  case w12 => rw [truncCode_w12]; rfl
  all_goals rfl

theorem exec_kwk (w : Width) (c : Code) (s : State) : exec (Instr.kwk w c) s = kwkArm (truncCode w c) s := by
  cases w
  case w12 => rw [truncCode_w12]; rfl
  all_goals rfl

theorem exec_inv (w : Width) (c : Code) (s : State) : exec (Instr.inv w c) s = invArm (truncCode w c) s := by
  cases w
  case w12 => rw [truncCode_w12]; rfl
  all_goals rfl

/-- Every width keeps the byte of a literal. -/
theorem truncCode_byte (w : Width) (c : Code) : (truncCode w c).setWidth 8 = c.setWidth 8 := by
  have hw := (Width_bits_bounds w).1
  ext i hi
  simp only [truncCode, BitVec.getElem_setWidth, BitVec.getLsbD_setWidth]
  simp [show i < 12 by omega, show i < w.bits by omega]

/-- The instruction of a class runs the arm of that class, on the bits of the code that its width carries (R104). -/
theorem exec_instrOfClass (w : Width) (k : CodeClass) (c : Code) (s : State) :
    exec (instrOfClass w k c) s = runClass k (truncCode w c) s := by
  cases k with
  | clr => exact exec_clr w s
  | eoi => exact exec_eoi w s
  | inv => exact exec_inv w c s
  | lit => rw [runClass, truncCode_byte]; exact exec_lit w _ s
  | dict => exact exec_dict w c s
  | kwk => exact exec_kwk w c s

/-! ## What a class arm can answer -/

/-- The data codes and their sequences in a decoder state: a literal or a learned code with its entry (R111, R112), or the code
not yet inserted with the previous sequence and its first byte (R113). -/
def DataCode (s : State) (c : Code) (seq : List Byte) : Prop :=
  tableSeq s.dec.table c = some seq ∨
    (c = s.dec.nac ∧ s.dec.prevv = true ∧ ∃ b bs, s.dec.prevseq = b :: bs ∧ seq = b :: bs ++ [b])

theorem tableSeq_literalCode (t : List TableEntry) (b : Byte) : tableSeq t (literalCode b) = some [b] := by
  have hb := b.isLt
  rw [tableSeq, if_pos (by simp only [literalCode, BitVec.toNat_setWidth, Config.clear]; omega), literalCode,
    BitVec.setWidth_setWidth_of_le _ (by decide), BitVec.setWidth_eq]

/-- Everything a class arm can answer as a next state (R104): the decoder's reset, one of the two ends of the pass, the fault of
an invalid code, or `DATA` of a data code. -/
theorem runClass_next {k : CodeClass} {c : Code} {s t : State} (h : runClass k c s = .next t) :
    t = decReset s ∨
      (s.cfg.pred = .horizontal ∧ 0 < s.outLen ∧ t = s.setPhase (.inv 0)) ∨
      t = setRunState .done s ∨
      t = raiseFault .invalidCodeError s.dec.start s ∨
      ∃ c seq, DataCode s c seq ∧ dataTail c seq s = .next t := by
  cases k with
  | clr => cases h; exact .inl rfl
  | eoi =>
    obtain h | ⟨-, h⟩ := eoiArm_next h
    · exact .inr (.inl h)
    · exact .inr (.inr (.inl h))
  | inv => exact .inr (.inr (.inr (.inl (invArm_next h).2)))
  | lit => exact .inr (.inr (.inr (.inr ⟨_, _, .inl (tableSeq_literalCode _ _), h⟩)))
  | dict =>
    obtain ⟨-, -, seq, hs, h⟩ := dictArm_next h
    exact .inr (.inr (.inr (.inr ⟨_, seq, .inl hs, h⟩)))
  | kwk =>
    obtain ⟨hc, hv, b, bs, hs, h⟩ := kwkArm_next h
    exact .inr (.inr (.inr (.inr ⟨_, _, .inr ⟨hc, hv, b, bs, hs, rfl⟩, h⟩)))

end Sys2Proof.Machine
end

section
/-! PROOFS. The host's registers and buffer, which no step of a BUSY block writes (R42, R47). -/

namespace Sys2Proof.Machine

theorem SameHost.trans {s t u : State} (h : SameHost s t) (k : SameHost t u) : SameHost s u := by
  obtain ⟨h1, h2, h3, h4, h5⟩ := h
  obtain ⟨k1, k2, k3, k4, k5⟩ := k
  exact ⟨k1.trans h1, k2.trans h2, k3.trans h3, k4.trans h4, k5.trans h5⟩

theorem sameHost_raiseFault (k : ErrKind) (p : Nat) (s : State) : SameHost s (raiseFault k p s) :=
  ⟨rfl, rfl, rfl, rfl, rfl⟩

theorem sameHost_setRunState (r : RunState) (s : State) : SameHost s (setRunState r s) :=
  ⟨rfl, rfl, rfl, rfl, rfl⟩

/-! ## The encoder's steps -/

theorem WritesStream.toEncoderWrites {s t : State} (h : WritesStream s t) : EncoderWrites s t :=
  h.encoderWrites t.enc

/-- Any value may be written into the encoder's registers. -/
theorem EncoderWrites.setEnc {s t : State} (h : EncoderWrites s t) (e : Enc) : EncoderWrites s (t.setEnc e) :=
  WritesStream.withEnc (s := { s with enc := t.enc }) e h

theorem EncoderWrites.trans {s t u : State} (h : EncoderWrites s t) (k : EncoderWrites t u) : EncoderWrites s u :=
  WritesStream.trans (h.setEnc u.enc) k

theorem EncoderWrites.refl (s : State) : EncoderWrites s s := (WritesStream.refl s).toEncoderWrites

theorem EncoderWrites.sameHost {s t : State} (h : EncoderWrites s t) : SameHost s t := by
  rw [h.frame]
  exact ⟨rfl, rfl, rfl, rfl, rfl⟩

theorem emit_encoderWrites (c : Code) (s : State) : EncoderWrites s (emit c s) := by
  obtain ⟨t, n, em, hw, he, -⟩ := emit_cases c s
  rw [he]
  exact hw.encoderWrites _

theorem insertEntry_encoderWrites (p : Code) (b : Byte) (s : State) : EncoderWrites s (insertEntry p b s) := by
  obtain ⟨-, h⟩ | ⟨-, h⟩ := insertEntry_cases p b s <;> rw [h]
  · exact .refl s
  · exact (EncoderWrites.refl s).setEnc _

theorem finishStream_encoderWrites (s : State) : EncoderWrites s (finishStream s) := by
  have held : EncoderWrites s (if s.enc.curv then emit s.enc.cur s else s) := by
    split
    · exact emit_encoderWrites _ s
    · exact .refl s
  exact (held.trans (emit_encoderWrites _ _)).trans (flushBits_writes _).toEncoderWrites

/-- An encoder step writes the encoder's registers and uses the packer; `ENC.FINISH` sets DONE besides (R91 to R96). -/
theorem runEnc_next {o : EncOp} {s t : State} (h : runEnc o s = .next t) :
    ∃ u, EncoderWrites s u ∧ (t = u ∨ t = setRunState .done u) := by
  cases o with
  | first =>
    obtain ⟨-, -, b, -, rfl⟩ := execEncFirst_next h
    exact ⟨_, (EncoderWrites.refl s).setEnc _, .inl rfl⟩
  | hit =>
    obtain ⟨-, -, b, k, -, -, rfl⟩ := execEncHit_next h
    exact ⟨_, (EncoderWrites.refl s).setEnc _, .inl rfl⟩
  | miss =>
    obtain ⟨-, -, -, -, b, -, -, rfl⟩ := execEncMiss_next h
    exact ⟨_, ((emit_encoderWrites _ s).trans (insertEntry_encoderWrites _ b _)).setEnc _, .inl rfl⟩
  | missFull =>
    obtain ⟨-, -, -, -, b, -, -, rfl⟩ := execEncMissFull_next h
    have hw := ((emit_encoderWrites s.enc.cur s).trans (insertEntry_encoderWrites s.enc.cur b _)).trans
      (emit_encoderWrites (BitVec.ofNat 12 Config.clear) _)
    exact ⟨_, (hw.setEnc _).setEnc _, .inl rfl⟩
  | finish =>
    obtain ⟨-, -, rfl⟩ := execEncFinish_next h
    exact ⟨_, finishStream_encoderWrites s, .inr rfl⟩

theorem runEnc_sameHost {o : EncOp} {s t : State} (h : runEnc o s = .next t) : SameHost s t := by
  obtain ⟨u, hw, rfl | rfl⟩ := runEnc_next h
  · exact hw.sameHost
  · exact hw.sameHost.trans (sameHost_setRunState _ u)

/-! ## The decoder's steps -/

theorem dataTail_sameHost {c : Code} {seq : List Byte} {s t : State} (h : dataTail c seq s = .next t) :
    SameHost s t := by
  obtain ⟨-, -, rfl⟩ | ⟨-, -, rfl⟩ | ⟨-, -, ⟨-, b, bs, -, rfl⟩ | ⟨-, rfl⟩⟩ := dataTail_next h
  · exact sameHost_raiseFault _ _ s
  · exact sameHost_raiseFault _ _ s
  all_goals
    rw [outAppendAll_eq]
    exact ⟨rfl, rfl, rfl, rfl, rfl⟩

theorem runClass_sameHost {k : CodeClass} {c : Code} {s t : State} (h : runClass k c s = .next t) : SameHost s t := by
  obtain rfl | ⟨-, -, rfl⟩ | rfl | rfl | ⟨c', seq, -, h⟩ := runClass_next h
  · exact ⟨rfl, rfl, rfl, rfl, rfl⟩
  · exact ⟨rfl, rfl, rfl, rfl, rfl⟩
  · exact sameHost_setRunState _ s
  · exact sameHost_raiseFault _ _ s
  · exact dataTail_sameHost h

theorem decFetch_error_sameHost {s t : State} (h : decFetch s = .error t) : SameHost s t := by
  obtain ⟨-, hf⟩ | ⟨-, c, -, hf⟩ := decFetch_cases s <;> rw [hf] at h <;> cases h
  exact ⟨rfl, rfl, rfl, rfl, rfl⟩

theorem decFetch_ok_sameHost {c : Code} {s t : State} (h : decFetch s = .ok (c, t)) : SameHost s t := by
  obtain ⟨-, hf⟩ | ⟨-, c, -, hf⟩ := decFetch_cases s <;> rw [hf] at h <;> cases h
  exact ⟨rfl, rfl, rfl, rfl, rfl⟩

/-! ## The rows -/

theorem fwdStep_sameHost {r : Nat} {s t : State} (h : fwdStep r s = .next t) : SameHost s t := by
  obtain ⟨-, rfl⟩ := fwdStep_next h
  exact ⟨rfl, rfl, rfl, rfl, rfl⟩

theorem invStep_sameHost {r : Nat} {s t : State} (h : invStep r s = .next t) : SameHost s t := by
  obtain ⟨-, ⟨-, rfl⟩ | ⟨-, rfl⟩⟩ := invStep_next h <;> exact ⟨rfl, rfl, rfl, rfl, rfl⟩

/-- Settles O55, by the frame of each of the steps that a BUSY block can take. -/
theorem runningBlockKeepsItsInput : Obligations.RunningBlockKeepsItsInput := by
  intro s t hb h
  obtain ⟨hn, -⟩ | ⟨hn, -⟩ | ⟨-, r, -, h⟩ | ⟨-, r, -, h⟩ | ⟨-, -, -, h⟩ | ⟨-, -, -, h⟩ | ⟨-, -, -, c, u, hf, h⟩ :=
    step_next h
  · exact absurd hb hn
  · exact absurd hb hn
  · exact fwdStep_sameHost h
  · exact invStep_sameHost h
  · exact runEnc_sameHost (exec_encInstr _ s ▸ h)
  · exact decFetch_error_sameHost h
  · rw [decodeCode, exec_instrOfClass] at h
    exact (decFetch_ok_sameHost hf).trans (runClass_sameHost h)

end Sys2Proof.Machine
end
section
/-! PROOFS. The decoder's registers (R27 to R31, R40): what a data code's insertion and `D.reset` keep of their invariant. -/

namespace Sys2Proof.Machine

/-! ## The table -/

/-- A new code goes to the end of the table. -/
theorem tableSet_of_notMem {t : List TableEntry} {c : Code} (seq : List Byte) (h : ∀ e ∈ t, e.code ≠ c) :
    tableSet t c seq = t ++ [{ code := c, seq := seq }] := by
  rw [tableSet, List.filter_eq_self.2 fun e he => by simpa using h e he]

/-- `D.TABLE[c := seq]` leaves what every other code stands for. -/
theorem tableSeq_tableSet_ne (t : List TableEntry) {c k : Code} (seq : List Byte) (h : k ≠ c) :
    tableSeq (tableSet t c seq) k = tableSeq t k := by
  rw [tableSeq, tableSeq, tableFind_tableSet_ne t seq h]

/-- After `D.TABLE[c := seq]` a learned code `c` stands for `seq`. -/
theorem tableSeq_tableSet_self (t : List TableEntry) {c : Code} (seq : List Byte) (h : 258 ≤ c.toNat) :
    tableSeq (tableSet t c seq) c = some seq := by
  rw [tableSeq, if_neg (by simp only [Config.clear]; omega), tableFind_tableSet_self]

/-- The insertion under `D.NAC` keeps what the codes below it stand for. -/
theorem tableSeq_insertTable {s : State} (b : Byte) {c : Code} (hc : c.toNat < s.dec.nac.toNat) :
    tableSeq (insertTable b s).dec.table c = tableSeq s.dec.table c :=
  tableSeq_tableSet_ne _ _ fun heq => by rw [heq] at hc; exact Nat.lt_irrefl _ hc

/-! ## The registers' invariant -/

/-- The registers' invariant at the start of a session (R102). -/
theorem DecRegs.of_session_start {s : State} (ht : s.dec.table = []) (hn : s.dec.nac = 258) (hw : s.dec.width = .w9)
    (hv : s.dec.prevv = false) : DecRegs s := by
  constructor
  case width_eq => rw [hw, hn]; rfl
  all_goals simp [ht, hn, hv]

/-- The registers' invariant says nothing of the latch `start`. -/
theorem DecRegs.withStart {s t : State} {n : Nat} (h : DecRegs s) (hd : t.dec = { s.dec with start := n }) :
    DecRegs t := by
  obtain ⟨h1, h2, h3, h4, h5, h6, h7⟩ := h
  constructor <;> simpa only [hd]

section
variable {s : State} (h : DecRegs s)
include h

/-- Every code of the table is a learned code below `D.NAC` (R30). -/
theorem DecRegs.code_bounds {e : TableEntry} (he : e ∈ s.dec.table) :
    258 ≤ e.code.toNat ∧ e.code.toNat < s.dec.nac.toNat := by
  have hm : e.code.toNat ∈ List.range' 258 (s.dec.nac.toNat - 258) := h.table_codes ▸ List.mem_map_of_mem he
  rw [List.mem_range'_1] at hm
  have hlow := h.nac_low
  omega

/-- A code that stands for a sequence is below `D.NAC`. -/
theorem DecRegs.lt_nac_of_tableSeq {c : Code} {q : List Byte} (hq : tableSeq s.dec.table c = some q) :
    c.toNat < s.dec.nac.toNat := by
  have hlow := h.nac_low
  rw [tableSeq, Config.clear] at hq
  split at hq
  · omega
  · obtain ⟨e, he, -⟩ := Option.map_eq_some_iff.1 hq
    have hcode : e.code = c := by simpa using List.find?_some he
    exact hcode ▸ (h.code_bounds (List.mem_of_find?_eq_some he)).2

/-- The insertion of a data code keeps the registers' invariant while the table is not full (R40, R105, R114). -/
theorem decRegs_insertTable (b : Byte) (hv : s.dec.prevv = true) (hl : s.dec.nac.toNat ≠ 4094) :
    DecRegs (insertTable b s) := by
  have hlow := h.nac_low
  have hhigh := h.nac_high
  have hprev := h.prev_seq hv
  have hnac : (insertTable b s).dec.nac.toNat = s.dec.nac.toNat + 1 :=
    toNat_add_one (c := s.dec.nac) (by omega)
  have htable : (insertTable b s).dec.table =
      s.dec.table ++ [{ code := s.dec.nac, seq := s.dec.prevseq ++ [b] }] :=
    tableSet_of_notMem _ fun e he heq => Nat.lt_irrefl _ (heq ▸ (h.code_bounds he).2)
  constructor
  case nac_low => omega
  case nac_high => omega
  case width_eq => rfl
  case table_codes =>
    rw [htable, List.map_append, h.table_codes, hnac,
      show s.dec.nac.toNat + 1 - 258 = s.dec.nac.toNat - 258 + 1 by omega, List.range'_1_concat,
      Nat.add_sub_cancel' hlow]
    rfl
  case table_entries =>
    intro e he
    rw [htable] at he
    rcases List.mem_append.1 he with he | he
    · obtain ⟨p, q, b', hlt, hq, hseq⟩ := h.table_entries e he
      exact ⟨p, q, b', hlt, (tableSeq_insertTable b (h.lt_nac_of_tableSeq hq)).trans hq, hseq⟩
    · rw [List.mem_singleton.1 he]
      have hlt := h.lt_nac_of_tableSeq hprev
      exact ⟨s.dec.prev, s.dec.prevseq, b, hlt, (tableSeq_insertTable b hlt).trans hprev, rfl⟩
  case no_prev => exact fun hv' => absurd (hv.symm.trans hv') (by decide)
  case prev_seq => exact fun _ => (tableSeq_insertTable b (h.lt_nac_of_tableSeq hprev)).trans hprev

/-- A code becomes the previous code together with what it stands for (R105). -/
theorem decRegs_setPrev {c : Code} {seq : List Byte} (hc : tableSeq s.dec.table c = some seq) :
    DecRegs (setPrev c seq s) where
  nac_low := h.nac_low
  nac_high := h.nac_high
  width_eq := h.width_eq
  table_codes := h.table_codes
  table_entries := h.table_entries
  no_prev := nofun
  prev_seq := fun _ => hc

/-- Once a data code's insertion is made its own sequence is in the table: for a `KWK` it is the entry inserted (R113). -/
theorem DataCode.tableSeq_inserted {c : Code} {b : Byte} {bs : List Byte} (hc : DataCode s c (b :: bs)) :
    tableSeq (insertTable b s).dec.table c = some (b :: bs) := by
  rcases hc with hc | ⟨rfl, -, b', bs', hprev, hseq⟩
  · exact (tableSeq_insertTable b (h.lt_nac_of_tableSeq hc)).trans hc
  · obtain ⟨rfl, rfl⟩ := List.cons.inj hseq
    rw [insertTable, State.setDec_dec, tableSeq_tableSet_self _ _ h.nac_low, hprev]
    rfl

end

end Sys2Proof.Machine
end

section
/-! PROOFS. The parts of the invariant: the datapath, which holds whatever the block is doing, and what a BUSY invocation has.
The invariant at reset. -/

namespace Sys2Proof.Machine

/-! ## The datapath -/

/-- The part of the invariant that no status is needed for: the buffers and the registers of both datapaths (R39, R40). -/
structure Datapath (s : State) : Prop where
  in_wf : Memory.wf s.inBuf
  out_wf : Memory.wf s.outBuf
  enc : EncRegs s
  dec : DecRegs s

theorem Inv.datapath {s : State} (h : Inv s) : Datapath s := ⟨h.in_wf, h.out_wf, h.enc, h.dec⟩

/-- The datapath's invariant speaks of the buffers and of the registers alone. -/
theorem Datapath.of_eq {s t : State} (h : Datapath s) (hin : t.inBuf = s.inBuf) (hout : Memory.wf t.outBuf)
    (he : t.enc = s.enc) (hb : t.bw = s.bw) (hd : t.dec = s.dec) : Datapath t :=
  ⟨hin ▸ h.in_wf, hout, h.enc.withMatch he hb, h.dec.withStart hd⟩

/-- Of a block that is not BUSY the invariant asks the datapath and the status record alone. -/
theorem Datapath.inv {s : State} (h : Datapath s) (hb : s.stat.state ≠ .busy) (hs : StatOk s) : Inv s where
  in_wf := h.in_wf
  out_wf := h.out_wf
  stat := hs
  enc := h.enc
  dec := h.dec
  config := fun hb' => absurd hb' hb
  encode := fun hb' => absurd hb' hb
  decode := fun hb' => absurd hb' hb

/-- A fault leaves the invariant (R139). -/
theorem Datapath.inv_raiseFault {s : State} {k : ErrKind} (p : Nat) (h : Datapath s) (hk : k ≠ .none) :
    Inv (raiseFault k p s) :=
  (h.of_eq (t := raiseFault k p s) rfl (raiseFault_wf k p s) rfl rfl rfl).inv nofun
    ⟨fun _ => ⟨hk, rfl⟩, fun hn => absurd rfl hn⟩

/-- DONE without an error leaves the invariant (R109, R128, R131). -/
theorem Datapath.inv_done {s : State} (h : Datapath s) (herr : s.stat.err = .none ∧ s.stat.errpos = 0) :
    Inv (setRunState .done s) :=
  (h.of_eq (t := setRunState .done s) rfl h.out_wf rfl rfl rfl).inv nofun ⟨nofun, fun _ => herr⟩

/-- Of a BUSY block the invariant asks besides a legal configuration and what the operation of its mode has. -/
theorem Datapath.inv_busy {s : State} (h : Datapath s) (hb : s.stat.state = .busy)
    (herr : s.stat.err = .none ∧ s.stat.errpos = 0) (hl : LegalConfig s)
    (henc : s.cfg.mode = .encode → EncodeOk s) (hdec : s.cfg.mode = .decode → DecodeOk s) : Inv s where
  in_wf := h.in_wf
  out_wf := h.out_wf
  stat := ⟨fun he => absurd (hb.symm.trans he) (by decide), fun _ => herr⟩
  enc := h.enc
  dec := h.dec
  config := fun _ => hl
  encode := fun _ => henc
  decode := fun _ => hdec

/-! ## A BUSY invocation -/

theorem encodeOk_fwd {s : State} {r : Nat} (hp : s.phase = .fwd r) :
    EncodeOk s ↔ EncRunning s ∧ s.cfg.pred = .horizontal ∧ r * s.cfg.roww < s.inLen ∧ s.x.length = r * s.cfg.roww ∧
      s.enc.curv = false := by
  rw [EncodeOk, hp]

theorem encodeOk_lzw {s : State} (hp : s.phase = .lzw) :
    EncodeOk s ↔ EncRunning s ∧ s.x.length = s.inLen := by
  rw [EncodeOk, hp]

theorem not_encodeOk_inv {s : State} {r : Nat} (hp : s.phase = .inv r) : ¬ EncodeOk s := by
  rw [EncodeOk, hp]
  exact And.right

theorem not_decodeOk_fwd {s : State} {r : Nat} (hp : s.phase = .fwd r) : ¬ DecodeOk s := by
  rw [DecodeOk, hp]
  exact fun h => h.2.2

theorem decodeOk_lzw {s : State} (hp : s.phase = .lzw) :
    DecodeOk s ↔ s.brPos ≤ 8 * s.inLen ∧ s.outLen ≤ s.cfg.explen := by
  rw [DecodeOk, hp, and_true]

theorem decodeOk_inv {s : State} {r : Nat} (hp : s.phase = .inv r) :
    DecodeOk s ↔ s.brPos ≤ 8 * s.inLen ∧ s.outLen ≤ s.cfg.explen ∧ s.cfg.pred = .horizontal ∧
      r * s.cfg.roww < s.outLen := by
  rw [DecodeOk, hp]

/-- The running invariant speaks of the encoder's registers and of `IN_LEN` alone. -/
theorem EncRunning.of_eq {s t : State} (h : EncRunning s) (he : t.enc = s.enc) (hi : t.inLen = s.inLen) :
    EncRunning t := by
  obtain ⟨h1, h2, h3, h4, h5⟩ := h
  constructor <;> simpa only [he, hi]

/-- A configuration stays legal while the host's registers stay (R127). -/
theorem LegalConfig.of_sameHost {s t : State} (h : LegalConfig s) (hh : SameHost s t) : LegalConfig t := by
  obtain ⟨hmax, hcfg, hlen, -, -⟩ := hh
  rwa [LegalConfig, hmax, hcfg, hlen]

section
variable {s : State} (h : Inv s) (hb : s.stat.state = .busy)
include h hb

/-- A BUSY block has no error (R35). -/
theorem Inv.no_error : s.stat.err = .none ∧ s.stat.errpos = 0 :=
  h.stat.2 (by rw [hb]; decide)

/-- A BUSY block in the forward pass encodes. -/
theorem Inv.mode_of_fwd {r : Nat} (hp : s.phase = .fwd r) : s.cfg.mode = .encode := by
  cases hm : s.cfg.mode with
  | encode => rfl
  | decode => exact absurd (h.decode hb hm) (not_decodeOk_fwd hp)

/-- A BUSY block in the inverse pass decodes. -/
theorem Inv.mode_of_inv {r : Nat} (hp : s.phase = .inv r) : s.cfg.mode = .decode := by
  cases hm : s.cfg.mode with
  | encode => exact absurd (h.encode hb hm) (not_encodeOk_inv hp)
  | decode => rfl

/-- What a step that leaves the block BUSY has to show of its result. -/
theorem Inv.of_busy {t : State} (hh : SameHost s t) (hst : t.stat = s.stat) (hd : Datapath t)
    (henc : s.cfg.mode = .encode → EncodeOk t) (hdec : s.cfg.mode = .decode → DecodeOk t) : Inv t := by
  have hl := (h.config hb).of_sameHost hh
  obtain ⟨-, hcfg, -⟩ := hh
  exact hd.inv_busy (hst ▸ hb) (hst ▸ h.no_error hb) hl (hcfg ▸ henc) (hcfg ▸ hdec)

theorem Inv.of_encode {t : State} (hm : s.cfg.mode = .encode) (hh : SameHost s t) (hst : t.stat = s.stat)
    (hd : Datapath t) (hok : EncodeOk t) : Inv t :=
  h.of_busy hb hh hst hd (fun _ => hok) fun hm' => absurd (hm.symm.trans hm') (by decide)

theorem Inv.of_decode {t : State} (hm : s.cfg.mode = .decode) (hh : SameHost s t) (hst : t.stat = s.stat)
    (hd : Datapath t) (hok : DecodeOk t) : Inv t :=
  h.of_busy hb hh hst hd (fun hm' => absurd (hm.symm.trans hm') (by decide)) fun _ => hok

end

/-- Settles O53: both datapaths hold their session-start values (log 2). -/
theorem resetSatisfiesTheInvariant : Obligations.ResetSatisfiesTheInvariant := by
  have hd : Datapath State.reset :=
    ⟨nil_wf, nil_wf, .of_session_start rfl rfl rfl rfl Nat.one_pos, .of_session_start rfl rfl rfl rfl⟩
  exact hd.inv nofun ⟨nofun, fun _ => ⟨rfl, rfl⟩⟩

end Sys2Proof.Machine
end

section
/-! PROOFS. Every step keeps the invariant: the predictor's rows, the encoder, the decoder, the host's actions. -/

namespace Sys2Proof.Machine

/-! ## The rows -/

/-- The last of a whole number of rows ends the input (R119, R121). -/
theorem last_row_end {r w n : Nat} (hm : n % w = 0) (hlt : r * w < n) (hlast : n ≤ (r + 1) * w) : (r + 1) * w = n := by
  obtain ⟨k, rfl⟩ := Nat.dvd_of_mod_eq_zero hm
  rw [Nat.mul_comm w k] at hlt hlast ⊢
  have hrk : r < k := Nat.lt_of_mul_lt_mul_right hlt
  exact Nat.le_antisymm (Nat.mul_le_mul_right w hrk) hlast

theorem Inv.fwdStep {r : Nat} {s t : State} (h : Inv s) (hb : s.stat.state = .busy) (hp : s.phase = .fwd r)
    (hs : fwdStep r s = .next t) : Inv t := by
  have hm := h.mode_of_fwd hb hp
  have hh := fwdStep_sameHost hs
  obtain ⟨hrun, hpred, hlt, hx, hcv⟩ := (encodeOk_fwd hp).1 (h.encode hb hm)
  obtain ⟨hg, rfl⟩ := fwdStep_next hs
  obtain ⟨-, hmod⟩ : 0 < s.cfg.roww ∧ s.inLen % s.cfg.roww = 0 := by simpa [fwdGeometry] using hg
  have hx' : (fwdRow r s).x.length = (r + 1) * s.cfg.roww := by simp [fwdRow, hx, Nat.succ_mul]
  refine h.of_encode hb hm hh rfl (h.datapath.of_eq rfl h.out_wf rfl rfl rfl) ?_
  have hrun' : EncRunning (fwdRow r s) := hrun.of_eq rfl rfl
  split
  · next hnext => exact (encodeOk_fwd rfl).2 ⟨hrun'.of_eq rfl rfl, hpred, hnext, hx', hcv⟩
  · next hlast =>
    exact (encodeOk_lzw rfl).2
      ⟨hrun'.of_eq rfl rfl, hx'.trans (last_row_end hmod hlt (Nat.le_of_not_lt hlast))⟩

theorem Inv.invStep {r : Nat} {s t : State} (h : Inv s) (hb : s.stat.state = .busy) (hp : s.phase = .inv r)
    (hs : invStep r s = .next t) : Inv t := by
  have hm := h.mode_of_inv hb hp
  have hh := invStep_sameHost hs
  obtain ⟨hpos, hout, hpred, -⟩ := (decodeOk_inv hp).1 (h.decode hb hm)
  have hwf := (invRow_eq r s).2.2 h.out_wf
  obtain ⟨-, ⟨hnext, rfl⟩ | ⟨-, rfl⟩⟩ := invStep_next hs
  · exact h.of_decode hb hm hh rfl (h.datapath.of_eq rfl hwf rfl rfl rfl)
      ((decodeOk_inv rfl).2 ⟨hpos, hout, hpred, hnext⟩)
  · exact Datapath.inv_done (h.datapath.of_eq rfl hwf rfl rfl rfl) (h.no_error hb)

/-! ## The encoder -/

/-- The mirror at a count in range keeps the registers' invariant (R23, R89). -/
theorem EncRegs.withMirror {s t : State} {n : Code} {em : Bool} (h : EncRegs s) (hlow : 258 ≤ n.toNat)
    (hhigh : n.toNat ≤ 4094) (he : t.enc = { s.enc with dcnt := n, emitted := em, width := Wd n.toNat })
    (ha : t.bw.acc.toNat < 2 ^ t.bw.cnt.toNat) : EncRegs t := by
  obtain ⟨h1, h2, -, -, -, h6, h7, h8, -⟩ := h
  constructor
  case width_eq => rw [he]
  case acc_low => exact ha
  all_goals simpa only [he]

/-- The use of the packer keeps the registers' invariant (R26). -/
theorem EncRegs.of_writes {s t : State} (h : EncRegs s) (hw : WritesStream s t) : EncRegs t :=
  h.withMirror h.dcnt_low h.dcnt_high (em := s.enc.emitted) (by rw [hw.frame, ← h.width_eq]) (hw.acc h.acc_low)

/-- Emitting a data code that the encoder may hold keeps the registers' invariant. -/
theorem encRegs_emit_dataCode {c : Code} {s : State} (hr : EncRegs s) (hn : EncRunning s)
    (hc : SeqCode s.enc.nac.toNat c) : EncRegs (emit c s) := by
  obtain ⟨t, hw, he⟩ := emit_dataCode hr hn hc
  rw [he]
  exact hr.withMirror hr.nac_low hr.nac_high rfl (hw.acc hr.acc_low)

/-- Emitting a control code keeps the registers' invariant: the mirror does not advance. -/
theorem encRegs_emit_control {c : Code} {s : State} (hr : EncRegs s) (hc : c.toNat = 256 ∨ c.toNat = 257) :
    EncRegs (emit c s) := by
  obtain ⟨t, n, em, hw, he, ⟨-, rfl, -⟩ | ⟨hnc, -⟩⟩ := emit_cases c s
  · rw [he]
    exact hr.withMirror hr.dcnt_low hr.dcnt_high rfl (hw.acc hr.acc_low)
  · exact absurd hc hnc

theorem encRegs_finishStream {s : State} (hr : EncRegs s) (hn : EncRunning s) : EncRegs (finishStream s) := by
  have held : EncRegs (if s.enc.curv then emit s.enc.cur s else s) := by
    split
    · next hc => exact encRegs_emit_dataCode hr hn (hn.cur_code hc)
    · exact hr
  exact (encRegs_emit_control (c := BitVec.ofNat 12 Config.eoi) held (.inr rfl)).of_writes (flushBits_writes _)

theorem Inv.byteLoop {s : State} (h : Inv s) (hb : s.stat.state = .busy) (hp : s.phase = .lzw)
    (hm : s.cfg.mode = .encode) : ByteLoop s := by
  obtain ⟨hrun, hx⟩ := (encodeOk_lzw hp).1 (h.encode hb hm)
  exact ⟨hb, hm, hp, h.enc, hrun, hx⟩

/-- The datapath after the encoder has written. -/
theorem Datapath.of_encoderWrites {s t : State} (h : Datapath s) (hw : EncoderWrites s t) (hr : EncRegs t) :
    Datapath t where
  in_wf := by rw [hw.frame]; exact h.in_wf
  out_wf := WritesStream.wf hw h.out_wf
  enc := hr
  dec := h.dec.withStart (by rw [hw.frame])

theorem Inv.runEnc {s t : State} (h : Inv s) (hb : s.stat.state = .busy) (hp : s.phase = .lzw)
    (hm : s.cfg.mode = .encode) (hs : runEnc (encSelect s) s = .next t) : Inv t := by
  have hl := h.byteLoop hb hp hm
  rcases Nat.lt_or_eq_of_le hl.running.ipos_le with hi | hi
  · obtain ⟨u, hu, hlu, hw, -⟩ := hl.step_byte hi
    rw [step_lzw_encode hb hp hm, hs] at hu
    cases hu
    exact h.of_encode hb hm hw.sameHost (by rw [hw.frame]) (h.datapath.of_encoderWrites hw hlu.regs)
      ((encodeOk_lzw hlu.phase).2 ⟨hlu.running, hlu.delivered⟩)
  · have hsel : encSelect s = .finish := by rw [encSelect, if_neg (by omega)]
    rw [hsel, Machine.runEnc, hl.execEncFinish_of_end hi] at hs
    cases hs
    have hw := finishStream_encoderWrites s
    exact Datapath.inv_done (h.datapath.of_encoderWrites hw (encRegs_finishStream h.enc hl.running))
      (by rw [hw.frame]; exact h.no_error hb)

/-! ## The decoder -/

/-- A BUSY decode in its code loop with the invariant (R130). -/
structure CodeLoop (s : State) : Prop where
  inv : Inv s
  busy : s.stat.state = .busy
  mode : s.cfg.mode = .decode
  phase : s.phase = .lzw

section
variable {s : State} (h : CodeLoop s)
include h

theorem CodeLoop.bounds : s.brPos ≤ 8 * s.inLen ∧ s.outLen ≤ s.cfg.explen :=
  (decodeOk_lzw h.phase).1 (h.inv.decode h.busy h.mode)

theorem CodeLoop.decFetch_error {t : State} (hf : decFetch s = .error t) : Inv t := by
  obtain ⟨-, hf'⟩ | ⟨-, c, -, hf'⟩ := decFetch_cases s <;> rw [hf'] at hf <;> cases hf
  exact Datapath.inv_raiseFault _ ⟨h.inv.in_wf, h.inv.out_wf, h.inv.enc.withMatch rfl rfl, h.inv.dec.withStart rfl⟩
    (by decide)

theorem CodeLoop.decFetch_ok {c : Code} {t : State} (hf : decFetch s = .ok (c, t)) : CodeLoop t := by
  have hh := decFetch_ok_sameHost hf
  have ⟨hpos, hout⟩ := h.bounds
  obtain ⟨-, hf'⟩ | ⟨hlen, c', -, hf'⟩ := decFetch_cases s <;> rw [hf'] at hf <;> cases hf
  refine ⟨h.inv.of_decode h.busy h.mode hh rfl
    ⟨h.inv.in_wf, h.inv.out_wf, h.inv.enc.withMatch rfl rfl, h.inv.dec.withStart rfl⟩
    ((decodeOk_lzw (by exact h.phase)).2 ⟨?_, hout⟩), h.busy, h.mode, h.phase⟩
  show s.brPos + (decWidth s).bits ≤ 8 * s.inLen
  omega

/-- A sequence appended in room, and any decoder's registers that keep their invariant (R105). -/
theorem CodeLoop.inv_of_append {seq : List Byte} {d : Dec} (hroom : s.outLen + seq.length ≤ s.cfg.explen)
    (hd : DecRegs ((outAppendAll seq s).setDec d)) : Inv ((outAppendAll seq s).setDec d) := by
  have hwf := outAppendAll_wf seq s h.inv.out_wf
  rw [outAppendAll_eq] at hd hwf ⊢
  exact h.inv.of_decode h.busy h.mode ⟨rfl, rfl, rfl, rfl, rfl⟩ rfl
    ⟨h.inv.in_wf, hwf, h.inv.enc.withMatch rfl rfl, hd⟩ ((decodeOk_lzw (by exact h.phase)).2 ⟨h.bounds.1, hroom⟩)

theorem CodeLoop.dataTail {c : Code} {seq : List Byte} {t : State} (hc : DataCode s c seq)
    (hs : dataTail c seq s = .next t) : Inv t := by
  have hdec : (outAppendAll seq s).dec = s.dec := by rw [outAppendAll_eq]
  have hd : DecRegs (outAppendAll seq s) := h.inv.dec.withStart hdec
  obtain ⟨-, -, rfl⟩ | ⟨-, -, rfl⟩ | ⟨hfull, hroom, ⟨hv, b, bs, rfl, rfl⟩ | ⟨hv, rfl⟩⟩ := dataTail_next hs
  · exact h.inv.datapath.inv_raiseFault _ (by decide)
  · exact h.inv.datapath.inv_raiseFault _ (by decide)
  · have hc' : DataCode (outAppendAll (b :: bs) s) c (b :: bs) := by rwa [DataCode, hdec]
    have hins := decRegs_insertTable hd b (by rwa [hdec]) (by rw [hdec]; exact fun hl => hfull ⟨hv, hl⟩)
    exact h.inv_of_append hroom (decRegs_setPrev hins (DataCode.tableSeq_inserted hd hc'))
  · have hseq : tableSeq s.dec.table c = some seq :=
      hc.resolve_right fun ⟨_, hv', _⟩ => absurd (hv.symm.trans hv') (by decide)
    exact h.inv_of_append hroom (decRegs_setPrev hd (hdec ▸ hseq))

theorem CodeLoop.runClass {k : CodeClass} {c : Code} {t : State} (hs : runClass k c s = .next t) : Inv t := by
  have hh := runClass_sameHost hs
  have ⟨hpos, hout⟩ := h.bounds
  obtain rfl | ⟨hpred, hsome, rfl⟩ | rfl | rfl | ⟨c', seq, hc, hs⟩ := runClass_next hs
  · exact h.inv.of_decode h.busy h.mode hh rfl
      ⟨h.inv.in_wf, h.inv.out_wf, h.inv.enc.withMatch rfl rfl, .of_session_start rfl rfl rfl rfl⟩
      ((decodeOk_lzw (by exact h.phase)).2 ⟨hpos, hout⟩)
  · exact h.inv.of_decode h.busy h.mode hh rfl (h.inv.datapath.of_eq rfl h.inv.out_wf rfl rfl rfl)
      ((decodeOk_inv rfl).2 ⟨hpos, hout, hpred, by rw [Nat.zero_mul]; exact hsome⟩)
  · exact h.inv.datapath.inv_done (h.inv.no_error h.busy)
  · exact h.inv.datapath.inv_raiseFault _ (by decide)
  · exact h.dataTail hc hs

end

/-! ## The host's actions -/

/-- The configurations that pass START's checks are legal (R127). -/
theorem legal_of_configBad {s : State} (h : configBad s = false) : LegalConfig s := by
  simp only [configBad, Bool.or_eq_false_iff, Bool.and_eq_false_imp, beq_iff_eq, Bool.and_eq_true,
    decide_eq_false_iff_not, Nat.not_lt, Bool.not_eq_false', beq_eq_false_iff_ne] at h
  obtain ⟨⟨⟨⟨hin, hexp⟩, hw⟩, hfwd⟩, hinv⟩ := h
  exact ⟨hin, hexp, fun hp => ⟨hw hp, fun hm => hfwd ⟨hp, hm⟩, fun hm => hinv ⟨hp, hm⟩⟩⟩

theorem hostWrite_eq (a : HostAct) (s : State) :
    hostWrite a s =
      { s with cfg := (hostWrite a s).cfg, inLen := (hostWrite a s).inLen, inBuf := (hostWrite a s).inBuf } := by
  cases a <;> rfl

theorem hostWrite_in_wf (a : HostAct) {s : State} (h : Memory.wf s.inBuf) : Memory.wf (hostWrite a s).inBuf := by
  cases a with
  | writeIn i b => exact memWrite_wf i b h
  | _ => exact h

theorem Inv.hostWrite {s : State} (a : HostAct) (h : Inv s) (hb : s.stat.state ≠ .busy) : Inv (hostWrite a s) := by
  have hwf := hostWrite_in_wf a h.in_wf
  rw [hostWrite_eq] at hwf ⊢
  exact Datapath.inv ⟨hwf, h.out_wf, h.enc.withMatch rfl rfl, h.dec.withStart rfl⟩ hb h.stat

theorem invocationReset_encode {s : State} (hm : s.cfg.mode = .encode) :
    invocationReset (clearStatus s) = encBegin (clearStatus s) := by
  rw [invocationReset, show (clearStatus s).cfg.mode = .encode from hm]

theorem invocationReset_decode {s : State} (hm : s.cfg.mode = .decode) :
    invocationReset (clearStatus s) = decBegin (clearStatus s) := by
  rw [invocationReset, show (clearStatus s).cfg.mode = .decode from hm]

/-- The invocation reset keeps the datapath's invariant: one half begins a session, the other is not touched (R155). -/
theorem Datapath.invocationReset {s : State} (h : Datapath s) : Datapath (invocationReset (clearStatus s)) := by
  cases hm : s.cfg.mode with
  | encode =>
    rw [invocationReset_encode hm]
    exact ⟨h.in_wf, h.out_wf, (encStarted_encBegin hm).regs, h.dec.withStart rfl⟩
  | decode =>
    rw [invocationReset_decode hm]
    exact ⟨h.in_wf, h.out_wf, h.enc.withMatch rfl rfl, .of_session_start rfl rfl rfl rfl⟩

theorem invocationReset_stat (s : State) :
    (invocationReset (clearStatus s)).stat = { state := .busy, err := .none, errpos := 0 } := by
  rw [invocationReset]
  split <;> rfl

theorem sameHost_enterPass (s : State) : SameHost s (enterPass s) := by
  rw [enterPass_eq]
  exact ⟨rfl, rfl, rfl, rfl, rfl⟩

theorem enterPass_stat (s : State) : (enterPass s).stat = s.stat := by rw [enterPass_eq]

theorem Datapath.enterPass {s : State} (h : Datapath s) : Datapath (enterPass s) := by
  rw [enterPass_eq]
  exact h.of_eq rfl h.out_wf rfl rfl rfl

/-- Where an encode begins it has what a BUSY encode has (R128). -/
theorem EncStarted.encodeOk_enterPass {s : State} (h : EncStarted s) (hv : s.enc.curv = false) :
    EncodeOk (Machine.enterPass s) := by
  cases hp : s.cfg.pred with
  | none =>
    rw [enterPass_encode_none h.mode hp]
    exact (encodeOk_lzw rfl).2 ⟨h.running.of_eq rfl rfl, by simp [inBytes]⟩
  | horizontal =>
    rw [enterPass_encode_horizontal h.mode hp]
    split
    · next h0 => exact (encodeOk_lzw rfl).2 ⟨h.running.of_eq rfl rfl, h0.symm⟩
    · next h0 =>
      have hlt : 0 * s.cfg.roww < s.inLen := by rw [Nat.zero_mul]; exact Nat.pos_of_ne_zero h0
      exact (encodeOk_fwd rfl).2 ⟨h.running.of_eq rfl rfl, hp, hlt, (Nat.zero_mul _).symm, hv⟩

/-- A decode begins at its code loop (R130). -/
theorem enterPass_decode {s : State} (hm : s.cfg.mode = .decode) : enterPass s = s.setPhase .lzw := by
  simp only [enterPass, hm]

/-- Where a decode begins it has what a BUSY decode has (R130). -/
theorem decodeOk_enterPass {s : State} (hm : s.cfg.mode = .decode) (hpos : s.brPos = 0) (hout : s.outLen = 0) :
    DecodeOk (enterPass s) := by
  rw [enterPass_decode hm]
  exact (decodeOk_lzw rfl).2 ⟨by simp [hpos], by simp [hout]⟩

theorem Inv.execStart {s t : State} (h : Inv s) (hs : execStart s = .next t) : Inv t := by
  have hd := h.datapath.invocationReset
  obtain ⟨-, he⟩ | ⟨-, -, he⟩ | ⟨-, hc, he⟩ := execStart_cases s <;> rw [he] at hs <;> cases hs
  · exact hd.inv_raiseFault _ (by decide)
  · have hh : SameHost s (enterPass (invocationReset (clearStatus s))) :=
      SameHost.trans (invocationReset_host (clearStatus s)) (sameHost_enterPass _)
    have hst := (enterPass_stat _).trans (invocationReset_stat s)
    have ⟨_, hcfg, _⟩ := hh
    refine hd.enterPass.inv_busy (by rw [hst]) (by rw [hst]; exact ⟨rfl, rfl⟩) ((legal_of_configBad hc).of_sameHost hh)
      (fun hm => ?_) fun hm => ?_ <;> rw [hcfg] at hm
    · rw [invocationReset_encode hm]
      exact (encStarted_encBegin hm).encodeOk_enterPass rfl
    · rw [invocationReset_decode hm]
      exact decodeOk_enterPass hm rfl rfl

theorem Inv.hostAct {a : HostAct} {s t : State} (h : Inv s) (hs : hostAct a s = .next t) : Inv t := by
  obtain ⟨hb, ⟨-, hs⟩ | ⟨-, rfl⟩⟩ := hostAct_next hs
  · exact h.execStart hs
  · exact h.hostWrite a hb

/-- Settles O54, by the kinds of step (R11). -/
theorem stepKeepsTheInvariant : Obligations.StepKeepsTheInvariant := by
  intro s t h hs
  obtain ⟨-, -, rfl⟩ | ⟨hb, a, rest, -, hs⟩ | ⟨hb, r, hp, hs⟩ | ⟨hb, r, hp, hs⟩ | ⟨hb, hp, hm, hs⟩ |
    ⟨hb, hp, hm, hf⟩ | ⟨hb, hp, hm, c, u, hf, hs⟩ := step_next hs
  · exact h
  · exact Inv.hostAct (s := s.setHost rest) (Datapath.inv (h.datapath.of_eq rfl h.out_wf rfl rfl rfl) hb h.stat) hs
  · exact h.fwdStep hb hp hs
  · exact h.invStep hb hp hs
  · exact h.runEnc hb hp hm (exec_encInstr _ s ▸ hs)
  · exact CodeLoop.decFetch_error ⟨h, hb, hm, hp⟩ hf
  · rw [decodeCode, exec_instrOfClass] at hs
    exact (CodeLoop.decFetch_ok ⟨h, hb, hm, hp⟩ hf).runClass hs

end Sys2Proof.Machine
end

section
/-! PROOFS. The output buffer: what the host reads of it (R52, R132), and that the LZW pass only appends to it (R45). -/

namespace Sys2Proof.Machine

/-! ## The host's read -/

theorem hostResult_of_done {s : State} (h : s.stat.state = .done) : hostResult s = some (outBytes s) :=
  if_pos h

theorem hostResult_of_not_done {s : State} (h : s.stat.state ≠ .done) : hostResult s = none :=
  if_neg h

@[simp] theorem outBytes_length (s : State) : (outBytes s).length = s.outLen := by
  simp [outBytes]

/-- Byte `i` of the output bytes is the byte of `OUT` at `i`. -/
theorem outBytes_getElem? {s : State} {i : Nat} (h : i < s.outLen) : (outBytes s)[i]? = some (memRead s.outBuf i) := by
  simp [outBytes, h]

/-- Settles O50: what is read in DONE is `outBytes`, `OUT_LEN` bytes each read from `OUT`. -/
theorem resultOnlyWhenDone : Obligations.ResultOnlyWhenDone := by
  intro s
  exact ⟨hostResult_of_not_done, fun h =>
    ⟨outBytes s, hostResult_of_done h, outBytes_length s, fun _ hi => outBytes_getElem? hi⟩⟩

/-! ## Appending -/

/-- `OUT` is not shortened and no byte outside those appended is changed (R45). -/
def OnlyAppends (s t : State) : Prop :=
  s.outLen ≤ t.outLen ∧ SameOutOutside s t

/-- An operation that writes neither `OUT` nor `OUT_LEN` appends nothing. -/
theorem OnlyAppends.of_eq {s t : State} (hlen : t.outLen = s.outLen) (hbuf : t.outBuf = s.outBuf) : OnlyAppends s t :=
  ⟨hlen.ge, fun _ _ => by rw [hbuf]⟩

theorem OnlyAppends.trans {s t u : State} (h : OnlyAppends s t) (k : OnlyAppends t u) : OnlyAppends s u := by
  obtain ⟨hlen, hkept⟩ := h
  obtain ⟨klen, kkept⟩ := k
  exact ⟨hlen.trans klen, fun a ha => (kkept a (by omega)).trans (hkept a (by omega))⟩

/-- What the packer does to `OUT` is an append, whatever is written to `E.*`. -/
theorem EncoderWrites.onlyAppends {s t : State} (h : EncoderWrites s t) : OnlyAppends s t :=
  ⟨h.grows, h.kept⟩

theorem onlyAppends_outAppendAll (seq : List Byte) (s : State) : OnlyAppends s (outAppendAll seq s) := by
  rw [outAppendAll_eq]
  exact ⟨Nat.le_add_right _ _, fun a ha => memRead_memWriteList_outside _ _ _ ha⟩

/-! ## The steps of the LZW pass -/

theorem runEnc_onlyAppends {o : EncOp} {s t : State} (h : runEnc o s = .next t) : OnlyAppends s t := by
  obtain ⟨u, hw, rfl | rfl⟩ := runEnc_next h <;> exact hw.onlyAppends

/-- A fetch that reads a code writes nothing to `OUT`. -/
theorem decFetch_ok_onlyAppends {c : Code} {s t : State} (h : decFetch s = .ok (c, t)) : OnlyAppends s t := by
  obtain ⟨-, hf⟩ | ⟨-, c, -, hf⟩ := decFetch_cases s <;> rw [hf] at h <;> cases h
  exact .of_eq rfl rfl

/-- A fetch that reads no code ends in ERROR. -/
theorem decFetch_error_state {s t : State} (h : decFetch s = .error t) : t.stat.state = .error := by
  obtain ⟨-, hf⟩ | ⟨-, c, -, hf⟩ := decFetch_cases s <;> rw [hf] at h <;> cases h
  rfl

/-- `DATA` (R105) appends its sequence and nothing else, or it takes one of its two faults (R106, R107). -/
theorem dataTail_onlyAppends {c : Code} {seq : List Byte} {s t : State} (h : dataTail c seq s = .next t)
    (ht : t.stat.state ≠ .error) : OnlyAppends s t := by
  obtain ⟨-, -, rfl⟩ | ⟨-, -, rfl⟩ | ⟨-, -, ⟨-, b, bs, -, rfl⟩ | ⟨-, rfl⟩⟩ := dataTail_next h
  · exact absurd rfl ht
  · exact absurd rfl ht
  all_goals exact onlyAppends_outAppendAll seq s

theorem runClass_onlyAppends {k : CodeClass} {c : Code} {s t : State} (h : runClass k c s = .next t)
    (ht : t.stat.state ≠ .error) : OnlyAppends s t := by
  obtain rfl | ⟨-, -, rfl⟩ | rfl | rfl | ⟨c', seq, -, h⟩ := runClass_next h
  · exact .of_eq rfl rfl
  · exact .of_eq rfl rfl
  · exact .of_eq rfl rfl
  · exact absurd rfl ht
  · exact dataTail_onlyAppends h ht

/-- Settles O56, by the three kinds of step that the LZW pass can take: an encoder step, a fetch that faults, a fetch and the
arm of its code. -/
theorem outputIsAppendOnly : Obligations.OutputIsAppendOnly := by
  intro s t hb hp h ht
  obtain ⟨hn, -⟩ | ⟨hn, -⟩ | ⟨-, r, hr, -⟩ | ⟨-, r, hr, -⟩ | ⟨-, -, -, h⟩ | ⟨-, -, -, h⟩ | ⟨-, -, -, c, u, hf, h⟩ :=
    step_next h
  · exact absurd hb hn
  · exact absurd hb hn
  · cases hp.symm.trans hr
  · cases hp.symm.trans hr
  · exact runEnc_onlyAppends (exec_encInstr _ s ▸ h)
  · exact absurd (decFetch_error_state h) ht
  · rw [decodeCode, exec_instrOfClass] at h
    exact (decFetch_ok_onlyAppends hf).trans (runClass_onlyAppends h ht)

end Sys2Proof.Machine
end

section
/-! PROOFS. The bits of the stream (R48, R50, R63): the value of a code's bits, and the bits that packed bytes hold. -/

namespace Sys2Proof

/-! ## The value of a list of bits -/

theorem bitsVal_concat (bs : List Bool) (b : Bool) : bitsVal (bs ++ [b]) = Nat.bit b (bitsVal bs) := by
  rw [bitsVal, List.foldl_append, Nat.bit_val]
  rfl

/-- Bit `i` of the value is the `i`-th bit from the end (R63: the first bit is the most significant). -/
theorem testBit_bitsVal (bs : List Bool) (i : Nat) : (bitsVal bs).testBit i = bs.reverse.getD i false := by
  induction bs using List.reverseRecOn generalizing i with
  | nil => simp [bitsVal]
  | append_singleton bs b ih =>
    rw [bitsVal_concat, List.reverse_concat]
    cases i with
    | zero => exact Nat.testBit_bit_zero b _
    | succ i => rw [Nat.testBit_bit_succ, ih]; rfl

@[simp] theorem codeBits_length (w v : Nat) : (codeBits w v).length = w := by
  simp [codeBits]

theorem codeBits_reverse (w v : Nat) : (codeBits w v).reverse = (List.range w).map v.testBit := by
  apply List.ext_getElem
  · simp
  · intro i hi _
    have hi' : i < w := by simpa using hi
    simp only [codeBits, List.getElem_reverse, List.getElem_map, List.getElem_range, List.length_map, List.length_range]
    rw [show w - 1 - (w - 1 - i) = i by omega]

/-- The bits of a value that fits the width give it back. -/
theorem bitsVal_codeBits {w v : Nat} (h : v < 2 ^ w) : bitsVal (codeBits w v) = v := by
  apply Nat.eq_of_testBit_eq
  intro i
  rw [testBit_bitsVal, codeBits_reverse]
  by_cases hi : i < w
  · simp [hi]
  · have hpow : 2 ^ w ≤ 2 ^ i := Nat.pow_le_pow_right (by decide) (Nat.le_of_not_lt hi)
    simp [hi, Nat.testBit_lt_two_pow (h.trans_le hpow)]

/-! ## Packed bytes -/

@[simp] theorem packBits_length (bs : List Bool) : (packBits bs).length = (bs.length + 7) / 8 := by
  simp [packBits]

/-- Bit `7 - j` of byte `i` is bit `8 * i + j` of the list (R48). -/
theorem getLsbD_packBits {bs : List Bool} {i j : Nat} (hi : i < (bs.length + 7) / 8) (hj : j < 8) :
    ((packBits bs).getD i 0).getLsbD (7 - j) = bs.getD (8 * i + j) false := by
  have hbyte : (packBits bs).getD i 0 =
      BitVec.ofNat 8 (bitsVal ((List.range 8).map fun j => bs.getD (8 * i + j) false)) := by
    simp [packBits, hi]
  rw [hbyte, BitVec.getLsbD_ofNat, testBit_bitsVal, decide_eq_true (by omega), Bool.true_and,
    List.getD_eq_getElem _ _ (by simp; omega)]
  simp only [List.getElem_reverse, List.getElem_map, List.getElem_range, List.length_map, List.length_range]
  rw [show 8 - 1 - (7 - j) = j by omega]

/-- Bit `q` of the packed bytes is bit `q` of the list. -/
theorem streamBit_packBits {bs : List Bool} {q : Nat} (h : q < bs.length) :
    streamBit ((packBits bs).getD · 0) q = bs[q] := by
  rw [streamBit, getLsbD_packBits (by omega) (Nat.mod_lt q (by decide)), Nat.div_add_mod, List.getD_eq_getElem _ _ h]

/-- The bits packed after any others are read back at their position. -/
theorem streamBits_packBits (before bits after : List Bool) :
    streamBits ((packBits (before ++ bits ++ after)).getD · 0) before.length bits.length = bits := by
  apply List.ext_getElem
  · simp [streamBits]
  · intro j _ hj
    simp only [streamBits, List.getElem_map, List.getElem_range]
    rw [streamBit_packBits (by simp; omega), List.getElem_append_left (by simp; omega),
      List.getElem_append_right (Nat.le_add_right _ _)]
    simp

/-- The bits of a code packed after any others are read back as the code (R63). -/
theorem codeAt_packBits {w v : Nat} (before after : List Bool) (h : v < 2 ^ w) :
    codeAt ((packBits (before ++ codeBits w v ++ after)).getD · 0) before.length w = v := by
  have hbits := streamBits_packBits before (codeBits w v) after
  rw [codeBits_length] at hbits
  rw [codeAt, hbits, bitsVal_codeBits h]

end Sys2Proof
end

section
/-! PROOFS. The classes of codes (R64), and that the decoder and the encoder of codes agree (R61 to R65). -/

namespace Sys2Proof.Machine

/-! ## The classes -/

/-- The row of R64's table for a class: its condition on the code `c`, the table count `n` and `v = D.PREVV`. -/
def ClassRow (n : Nat) (v : Bool) (c : Nat) : CodeClass → Prop
  | .clr => c = 256
  | .eoi => c = 257
  | .inv => n < c ∨ (c = n ∧ v = false)
  | .lit => c ≤ 255
  | .dict => 258 ≤ c ∧ c < n
  | .kwk => c = n ∧ v = true

/-- The class chosen is one whose row holds. -/
theorem classRow_classify (n : Nat) (v : Bool) (c : Nat) : ClassRow n v c (classify n v c) := by
  rw [classify_eq]
  split_ifs with h1 h2 h3 h4 h5
  · exact h1
  · exact h2
  · exact h3
  · exact Nat.le_of_lt_succ h4
  · exact ⟨by omega, h5⟩
  · have hc : c = n := by omega
    exact ⟨hc, by simpa [hc] using h3⟩

/-- A class whose row holds is the one chosen: from a count of 258 on the rows are apart. -/
theorem classify_of_row {n c : Nat} {v : Bool} {k : CodeClass} (hn : 258 ≤ n) (h : ClassRow n v c k) :
    classify n v c = k := by
  rw [classify_eq]
  cases k with
  | clr => exact if_pos h
  | eoi => exact (if_neg (by rw [show c = 257 from h]; decide)).trans (if_pos h)
  | inv =>
    have hc : n ≤ c := h.elim Nat.le_of_lt fun ⟨hc, _⟩ => hc.ge
    rw [if_neg (by omega), if_neg (by omega)]
    exact if_pos h
  | lit =>
    have hc : c ≤ 255 := h
    rw [if_neg (by omega), if_neg (by omega), if_neg (by omega), if_pos (by omega)]
  | dict =>
    obtain ⟨hlow, hc⟩ := h
    rw [if_neg (by omega), if_neg (by omega), if_neg (by omega), if_neg (by omega), if_pos hc]
  | kwk =>
    obtain ⟨rfl, rfl⟩ := h
    rw [if_neg (by omega), if_neg (by omega), if_neg (by simp), if_neg (by omega), if_neg (Nat.lt_irrefl c)]

/-- R64: a class is chosen exactly when its row holds. -/
theorem classify_eq_iff {n c : Nat} {v : Bool} {k : CodeClass} (hn : 258 ≤ n) :
    classify n v c = k ↔ ClassRow n v c k :=
  ⟨fun h => h ▸ classRow_classify n v c, classify_of_row hn⟩

/-- Settles O4, row by row. -/
theorem classesFollowTheTable : Obligations.ClassesFollowTheTable := fun _ _ _ hn =>
  ⟨classify_eq_iff hn, classify_eq_iff hn, classify_eq_iff hn, classify_eq_iff hn, classify_eq_iff hn,
    classify_eq_iff hn⟩

/-! ## The code an instruction carries -/

theorem toNat_truncCode (w : Width) (c : Code) : (truncCode w c).toNat = c.toNat % 2 ^ w.bits := by
  have hmod : c.toNat % 2 ^ w.bits < 2 ^ 12 := (Nat.mod_le _ _).trans_lt c.isLt
  simp only [truncCode, BitVec.toNat_setWidth, Nat.mod_eq_of_lt hmod]

/-- A code that fits the width is carried whole. -/
theorem truncCode_of_lt {w : Width} {c : Code} (h : c.toNat < 2 ^ w.bits) : truncCode w c = c :=
  BitVec.eq_of_toNat_eq (by rw [toNat_truncCode, Nat.mod_eq_of_lt h])

/-- The code on the wire of the instruction that a code `c` of class `k` stands for at a width (R61, R65). -/
def carriedCode (w : Width) (c : Code) : CodeClass → Code
  | .clr => 256
  | .eoi => 257
  | .lit => literalCode (c.setWidth 8)
  | .inv | .dict | .kwk => truncCode w c

theorem encodeCode_instrOfClass (w : Width) (k : CodeClass) (c : Code) :
    encodeCode (instrOfClass w k c) = some (w, carriedCode w c k) := by
  cases k <;> cases w <;> rfl

theorem toNat_literalCode (b : Byte) : (literalCode b).toNat = b.toNat := by
  rw [literalCode, BitVec.toNat_setWidth, Nat.mod_eq_of_lt (b.isLt.trans (by decide))]

/-- The code carried fits the width. -/
theorem carriedCode_lt (w : Width) (c : Code) (k : CodeClass) : (carriedCode w c k).toNat < 2 ^ w.bits := by
  have h9 : 2 ^ 9 ≤ 2 ^ w.bits := Nat.pow_le_pow_right (by decide) (Width_bits_bounds w).1
  cases k with
  | clr => exact Nat.lt_of_lt_of_le (show 256 < 2 ^ 9 by decide) h9
  | eoi => exact Nat.lt_of_lt_of_le (show 257 < 2 ^ 9 by decide) h9
  | lit => rw [carriedCode, toNat_literalCode]; omega
  | inv | dict | kwk => rw [carriedCode, toNat_truncCode]; exact Nat.mod_lt _ (Nat.two_pow_pos _)

/-- No bit of a code of the class is dropped (R63). -/
theorem carriedCode_of_row {n : Nat} {v : Bool} {w : Width} {c : Code} {k : CodeClass} (hc : c.toNat < 2 ^ w.bits)
    (h : ClassRow n v c.toNat k) : carriedCode w c k = c := by
  cases k with
  | clr | eoi => exact BitVec.eq_of_toNat_eq (Eq.symm h)
  | lit =>
    have hlit : c.toNat ≤ 255 := h
    apply BitVec.eq_of_toNat_eq
    rw [carriedCode, toNat_literalCode, BitVec.toNat_setWidth, Nat.mod_eq_of_lt (by omega)]
  | inv | dict | kwk => exact truncCode_of_lt hc

/-- Every instruction with a code is one that the decoder gives for it. -/
theorem eq_instrOfClass_of_encodeCode {i : Instr} {w : Width} {c : Code} (h : encodeCode i = some (w, c)) :
    ∃ k, i = instrOfClass w k c := by
  cases i with
  | lit9 b | lit10 b | lit11 b | lit12 b =>
    cases h
    exact ⟨.lit, by simp [instrOfClass, Instr.lit]⟩
  | clr9 | clr10 | clr11 | clr12 => cases h; exact ⟨.clr, rfl⟩
  | eoi9 | eoi10 | eoi11 | eoi12 => cases h; exact ⟨.eoi, rfl⟩
  | dict9 c | dict10 c | dict11 c | dict12 c =>
    cases h
    exact ⟨.dict, by simp [instrOfClass, Instr.dict]⟩
  | kwk9 c | kwk10 c | kwk11 c | kwk12 c =>
    cases h
    exact ⟨.kwk, by simp [instrOfClass, Instr.kwk]⟩
  | inv9 c | inv10 c | inv11 c | inv12 c =>
    cases h
    exact ⟨.inv, by simp [instrOfClass, Instr.inv]⟩
  | _ => cases h

/-! ## Which instructions fit a state -/

theorem toNat_setWidth_bits (w : Width) (c : Code) : (c.setWidth w.bits).toNat = (truncCode w c).toNat := by
  rw [toNat_truncCode, BitVec.toNat_setWidth]

theorem dictFits_iff {m c : Nat} : dictFits m c = true ↔ 258 ≤ c ∧ c < m := by
  rw [dictFits, Bool.and_eq_true, decide_eq_true_iff, decide_eq_true_iff]
  rfl

theorem fits_dict (w : Width) (c : Code) (n : Nat) (v : Bool) :
    (Instr.dict w c).fits n v = (Wd n == w && dictFits n (truncCode w c).toNat) := by
  rw [← toNat_setWidth_bits]
  cases w <;> rfl

theorem fits_kwk (w : Width) (c : Code) (n : Nat) (v : Bool) :
    (Instr.kwk w c).fits n v = (Wd n == w && ((truncCode w c).toNat == n && v)) := by
  rw [← toNat_setWidth_bits]
  cases w <;> rfl

theorem fits_inv (w : Width) (c : Code) (n : Nat) (v : Bool) :
    (Instr.inv w c).fits n v =
      (Wd n == w && (decide (n < (truncCode w c).toNat) || (truncCode w c).toNat == n && !v)) := by
  rw [← toNat_setWidth_bits]
  cases w <;> rfl

theorem fits_of_no_operand {w : Width} {k : CodeClass} {n : Nat} {v : Bool} {c : Code}
    (hk : k = .clr ∨ k = .eoi ∨ k = .lit) : (instrOfClass w k c).fits n v = (Wd n == w) := by
  obtain rfl | rfl | rfl := hk <;> cases w <;> rfl

/-- An instruction fits a decoder state when it is of the state's width and the row of its class holds for its code. -/
theorem fits_instrOfClass {w : Width} {k : CodeClass} {n : Nat} {v : Bool} {c : Code} :
    (instrOfClass w k c).fits n v = true ↔ Wd n = w ∧ ClassRow n v (carriedCode w c k).toNat k := by
  cases k with
  | clr => rw [fits_of_no_operand (by simp)]; simp [ClassRow, carriedCode]
  | eoi => rw [fits_of_no_operand (by simp)]; simp [ClassRow, carriedCode]
  | lit =>
    have hb : (c.setWidth 8).toNat ≤ 255 := Nat.le_of_lt_succ (c.setWidth 8).isLt
    rw [fits_of_no_operand (by simp), carriedCode, toNat_literalCode]
    simpa [ClassRow] using fun _ => hb
  | inv => simp [instrOfClass, fits_inv, ClassRow, carriedCode]
  | dict => simp [instrOfClass, fits_dict, dictFits_iff, ClassRow, carriedCode]
  | kwk => simp [instrOfClass, fits_kwk, ClassRow, carriedCode]

/-- The codes of an instruction that fits a decoder state decode to it in that state. -/
theorem decodeCode_of_fits {i : Instr} {n : Nat} {v : Bool} {w : Width} {c : Code} (hn : 258 ≤ n)
    (hf : i.fits n v = true) (he : encodeCode i = some (w, c)) :
    w = Wd n ∧ c.toNat < 2 ^ w.bits ∧ decodeCode w n v c = i := by
  obtain ⟨k, rfl⟩ := eq_instrOfClass_of_encodeCode he
  rw [encodeCode_instrOfClass] at he
  have hc : carriedCode w c k = c := by simpa using he
  obtain ⟨hw, hrow⟩ := fits_instrOfClass.1 hf
  rw [hc] at hrow
  exact ⟨hw.symm, hc ▸ carriedCode_lt w c k, by rw [decodeCode, classify_of_row hn hrow]⟩

/-- Settles O2: the bits are read back as the code (R63), and the code decodes to the instruction (R64). -/
theorem encodedCodesDecodeBack : Obligations.EncodedCodesDecodeBack := by
  intro i n v before bits after hn _ hf he
  obtain ⟨⟨w, c⟩, hc, rfl⟩ := Option.map_eq_some_iff.1 he
  obtain ⟨rfl, hlt, hi⟩ := decodeCode_of_fits hn hf hc
  have henough : ¬ 8 * (packBits (before ++ codeBits (Wd n).bits c.toNat ++ after)).length - before.length <
      (Wd n).bits := by
    simp only [packBits_length, List.length_append, codeBits_length]
    omega
  rw [decodeStream, if_neg henough, codeAt_packBits before after hlt, BitVec.ofNat_toNat, BitVec.setWidth_eq, hi,
    codeBits_length]

/-! ## Well-formedness -/

/-- A table count from 258 to 4094 lies in the range that its width is for (R9). -/
theorem Wd_count_bounds {n : Nat} (hlow : 258 ≤ n) (hhigh : n ≤ 4094) :
    (Wd n).minCount ≤ n ∧ n ≤ 2 ^ (Wd n).bits - 2 := by
  obtain ⟨h, hw⟩ | ⟨h, h', hw⟩ | ⟨h, h', hw⟩ | ⟨h, hw⟩ := Wd_cases n <;>
    simp only [hw, Width.minCount, Width.bits, Config.firstLearned] <;> omega

theorem wf_dict (w : Width) (c : Code) : (Instr.dict w c).wf = dictFits (2 ^ w.bits - 2) (truncCode w c).toNat := by
  rw [← toNat_setWidth_bits]
  cases w <;> rfl

theorem wf_kwk (w : Width) (c : Code) :
    (Instr.kwk w c).wf = kwkFits w.minCount (2 ^ w.bits - 2) (truncCode w c).toNat := by
  rw [← toNat_setWidth_bits]
  cases w <;> rfl

theorem wf_inv (w : Width) (c : Code) : (Instr.inv w c).wf = invFits w.minCount (truncCode w c).toNat := by
  rw [← toNat_setWidth_bits]
  cases w <;> rfl

/-- What a decoder can read in a state with a table count from 258 to 4094 is well formed. -/
theorem wf_instrOfClass_of_row {n : Nat} {v : Bool} {c : Code} {k : CodeClass} (hlow : 258 ≤ n) (hhigh : n ≤ 4094)
    (hc : c.toNat < 2 ^ (Wd n).bits) (h : ClassRow n v c.toNat k) : (instrOfClass (Wd n) k c).wf = true := by
  obtain ⟨hmin, hmax⟩ := Wd_count_bounds hlow hhigh
  cases k with
  | clr | eoi | lit => cases Wd n <;> rfl
  | inv =>
    rw [instrOfClass, wf_inv, truncCode_of_lt hc, invFits, decide_eq_true_iff]
    exact h.elim (fun hc => by omega) fun ⟨hc, _⟩ => by omega
  | dict =>
    obtain ⟨h258, hlt⟩ := h
    rw [instrOfClass, wf_dict, truncCode_of_lt hc, dictFits_iff]
    exact ⟨h258, by omega⟩
  | kwk =>
    obtain ⟨heq, -⟩ := h
    rw [instrOfClass, wf_kwk, truncCode_of_lt hc, kwkFits, Bool.and_eq_true, decide_eq_true_iff, decide_eq_true_iff]
    exact ⟨by omega, by omega⟩

/-- Settles O3: the row of the code's class holds (R64), so the instruction fits, and it carries the code whole. -/
theorem decodedCodesEncodeBack : Obligations.DecodedCodesEncodeBack := by
  intro n v c hlow hhigh hc
  have hrow := classRow_classify n v c.toNat
  have hcarried := carriedCode_of_row hc hrow
  refine ⟨fits_instrOfClass.2 ⟨rfl, by rwa [hcarried]⟩, wf_instrOfClass_of_row hlow hhigh hc hrow, ?_⟩
  rw [decodeCode, encodeCode_instrOfClass, hcarried]

/-- Settles O1, by running the decoder on the words. -/
theorem writtenWordsDecode : Obligations.WrittenWordsDecode :=
  ⟨rfl, rfl, rfl, rfl, rfl, rfl, rfl⟩

end Sys2Proof.Machine
end

section
/-! PROOFS. A decoder step reads the bits of its own code alone (R72, R117). -/

namespace Sys2Proof.Machine

/-! ## What `DATA` answers (R105) -/

section
variable {c : Code} {seq : List Byte} {s : State}

/-- The table is full (R107). -/
theorem dataTail_of_overflow (hv : s.dec.prevv = true) (hn : s.dec.nac.toNat = 4094) :
    dataTail c seq s = .next (raiseFault .dictionaryOverflowWithoutClear s.dec.start s) :=
  if_pos (by simp [hv, hn])

section
variable (hfull : ¬ (s.dec.prevv = true ∧ s.dec.nac.toNat = 4094))
include hfull

theorem not_overflow : ¬ (s.dec.prevv && s.dec.nac.toNat == Config.nacLimit) = true := by
  simpa using hfull

/-- The output has no room (R106). -/
theorem dataTail_of_overrun (hover : s.cfg.explen < s.outLen + seq.length) :
    dataTail c seq s = .next (raiseFault .outputOverrun s.dec.start s) := by
  unfold dataTail
  rw [if_neg (not_overflow hfull), if_pos hover]

/-- The sequence is appended and, with a previous code, an entry inserted (R114). -/
theorem dataTail_of_insert {b : Byte} {bs : List Byte} (hroom : s.outLen + (b :: bs).length ≤ s.cfg.explen)
    (hv : s.dec.prevv = true) :
    dataTail c (b :: bs) s = .next (setPrev c (b :: bs) (insertTable b (outAppendAll (b :: bs) s))) := by
  unfold dataTail
  rw [if_neg (not_overflow hfull), if_neg (Nat.not_lt.2 hroom), if_pos hv]

end

/-- The sequence is appended and nothing is inserted without a previous code. -/
theorem dataTail_of_no_prev (hroom : s.outLen + seq.length ≤ s.cfg.explen) (hv : s.dec.prevv = false) :
    dataTail c seq s = .next (setPrev c seq (outAppendAll seq s)) := by
  unfold dataTail
  rw [if_neg (not_overflow (by simp [hv])), if_neg (Nat.not_lt.2 hroom), if_neg (by simp [hv])]

end

/-! ## Operations that do not look at the input -/

/-- The state with another input in place. -/
def withInput (m : Memory) (len : Nat) (s : State) : State := { s with inBuf := m, inLen := len }

/-- An operation that does not look at the input: it takes the same step on any other. -/
def IgnoresInput (f : State → Host.Outcome State Fault Refusal) : Prop :=
  ∀ m len s t, f s = .next t → f (withInput m len s) = .next (withInput m len t)

theorem outAppendAll_withInput (m : Memory) (len : Nat) (seq : List Byte) (s : State) :
    outAppendAll seq (withInput m len s) = withInput m len (outAppendAll seq s) := by
  rw [outAppendAll_eq, outAppendAll_eq]
  rfl

/-- `DATA` does not look at the input: its faults, its append and its insertion are chosen by other registers (R105). -/
theorem dataTail_ignoresInput (c : Code) (seq : List Byte) : IgnoresInput (dataTail c seq) := by
  intro m len s t h
  obtain ⟨hv, hn, rfl⟩ | ⟨hfull, hover, rfl⟩ | ⟨hfull, hroom, ⟨hv, b, bs, rfl, rfl⟩ | ⟨hv, rfl⟩⟩ := dataTail_next h
  · exact dataTail_of_overflow (s := withInput m len s) hv hn
  · exact dataTail_of_overrun (s := withInput m len s) hfull hover
  · rw [dataTail_of_insert (s := withInput m len s) hfull hroom hv, outAppendAll_withInput]
    rfl
  · rw [dataTail_of_no_prev (s := withInput m len s) hroom hv, outAppendAll_withInput]
    rfl

/-- No class arm looks at the input (R72, R104). -/
theorem runClass_ignoresInput (k : CodeClass) (c : Code) : IgnoresInput (runClass k c) := by
  intro m len s t h
  cases k with
  | clr => cases h; rfl
  | eoi =>
    obtain ⟨hp, ho, rfl⟩ | ⟨hn, rfl⟩ := eoiArm_next h
    · exact if_pos ⟨hp, ho⟩
    · exact if_neg hn
  | inv =>
    obtain ⟨hc, rfl⟩ := invArm_next h
    exact if_pos hc
  | lit => exact dataTail_ignoresInput _ _ m len s t h
  | dict =>
    obtain ⟨hlow, hlt, seq, hseq, h⟩ := dictArm_next h
    have hsel : dictArm c (withInput m len s) = dataTail c seq (withInput m len s) := by
      rw [dictArm, if_pos ⟨hlow, hlt⟩, show tableSeq (withInput m len s).dec.table c = some seq from hseq]
    exact hsel.trans (dataTail_ignoresInput _ _ m len s t h)
  | kwk =>
    obtain ⟨hc, hv, b, bs, hprev, h⟩ := kwkArm_next h
    have hsel : kwkArm c (withInput m len s) = dataTail c (b :: bs ++ [b]) (withInput m len s) := by
      rw [kwkArm, if_pos ⟨hc, hv⟩, show (withInput m len s).dec.prevseq = b :: bs from hprev]
    exact hsel.trans (dataTail_ignoresInput _ _ m len s t h)

/-! ## The fetch -/

/-- The value of a code depends on its bits alone. -/
theorem codeAt_congr {f g : Nat → Byte} {pos w : Nat}
    (h : ∀ q, pos ≤ q → q < pos + w → streamBit f q = streamBit g q) : codeAt f pos w = codeAt g pos w := by
  refine congrArg bitsVal (List.map_congr_left fun j hj => ?_)
  have hlt := List.mem_range.1 hj
  exact h (pos + j) (by omega) (by omega)

/-- A fetch that has the bits of its code (R103). -/
theorem decFetch_of_enough {s : State} (h : (decWidth s).bits ≤ 8 * s.inLen - s.brPos) :
    ∃ c : Code, c = BitVec.ofNat 12 (codeAt (memRead s.inBuf) s.brPos (decWidth s).bits) ∧
      decFetch s = .ok (c, { s with
        dec := { s.dec with start := s.brPos }, brPos := s.brPos + (decWidth s).bits, ret := .code c }) :=
  (decFetch_cases s).elim (fun ⟨hshort, _⟩ => absurd hshort (Nat.not_lt.2 h)) And.right

/-- A step of a BUSY decode that reads a code runs the arm of the code's class (R104). -/
theorem step_of_decFetch {s u : State} {c : Code} (hb : s.stat.state = .busy) (hp : s.phase = .lzw)
    (hm : s.cfg.mode = .decode) (hf : decFetch s = .ok (c, u)) :
    step s = runClass (classify s.dec.nac.toNat s.dec.prevv c.toNat) (truncCode (decWidth s) c) u := by
  simp only [step, hb, busyStep, hp, hm, hf, decodeCode, exec_instrOfClass]

/-- Settles O42: the fetch gives the same code, and no class arm looks at the input. -/
theorem decoderReadsOnlyItsBits : Obligations.DecoderReadsOnlyItsBits := by
  intro s t m len hb hp hm hs hlen hbits h
  obtain ⟨c, hc, hf⟩ := decFetch_of_enough (s := s) hs
  obtain ⟨c', hc', hf'⟩ := decFetch_of_enough (s := withInput m len s) hlen
  obtain rfl : c' = c := by
    rw [hc', hc]
    exact congrArg _ (codeAt_congr hbits)
  rw [step_of_decFetch hb hp hm hf] at h
  exact (step_of_decFetch (s := withInput m len s) hb hp hm hf').trans (runClass_ignoresInput _ _ m len _ t h)

end Sys2Proof.Machine
end

section
/-! PROOFS. An operation outside its selection condition is refused by name (log 10). -/

namespace Sys2Proof.Machine

/-! ## The class arms -/

theorem exec_dict_of_not_selected {w : Width} {c : Code} {s : State} (hc : c.toNat < 2 ^ w.bits)
    (h : ¬ (258 ≤ c.toNat ∧ c.toNat < s.dec.nac.toNat)) :
    exec (Instr.dict w c) s = .refused (.notSelected "DICT") := by
  rw [exec_dict, truncCode_of_lt hc]
  exact if_neg h

theorem exec_kwk_of_not_selected {w : Width} {c : Code} {s : State} (hc : c.toNat < 2 ^ w.bits)
    (h : ¬ (c = s.dec.nac ∧ s.dec.prevv = true)) : exec (Instr.kwk w c) s = .refused (.notSelected "KWK") := by
  rw [exec_kwk, truncCode_of_lt hc]
  exact if_neg h

/-- The class of invalid codes (R64), whatever the table count. -/
theorem classify_eq_inv_iff {n c : Nat} {v : Bool} :
    classify n v c = .inv ↔ c ≠ 256 ∧ c ≠ 257 ∧ (n < c ∨ (c = n ∧ v = false)) := by
  rw [classify_eq]
  split_ifs <;> simp [*]

theorem exec_inv_of_not_selected {w : Width} {c : Code} {s : State} (hc : c.toNat < 2 ^ w.bits)
    (h : c.toNat = 256 ∨ c.toNat = 257 ∨ ¬ (s.dec.nac.toNat < c.toNat ∨ (c = s.dec.nac ∧ s.dec.prevv = false))) :
    exec (Instr.inv w c) s = .refused (.notSelected "INV") := by
  rw [exec_inv, truncCode_of_lt hc]
  refine if_neg fun hinv => ?_
  obtain ⟨h256, h257, hrow⟩ := classify_eq_inv_iff.1 hinv
  rw [← BitVec.toNat_inj] at h
  exact h.elim h256 fun h => h.elim h257 fun h => h hrow

/-! ## The encoder's steps -/

theorem byteStep_of_past {s : State} (h : s.inLen ≤ s.enc.ipos) (name : String)
    (f : Byte → Host.Outcome State Fault Refusal) : byteStep name s f = .refused (.notSelected name) :=
  if_neg (Nat.not_lt.2 h)

section
variable {s : State} {b : Byte} (hi : s.enc.ipos < s.inLen) (hx : inputByte s = some b)
include hi hx

theorem execEncFirst_of_match (h : s.enc.curv = true) : execEncFirst s = .refused (.notSelected "ENC.FIRST") := by
  rw [execEncFirst, byteStep_of_byte hi hx, if_pos h]

theorem execEncHit_of_not_hit (h : s.enc.curv = false ∨ dictFind s.enc.dict s.enc.cur b = none) :
    execEncHit s = .refused (.notSelected "ENC.HIT") := by
  rw [execEncHit, byteStep_of_byte hi hx]
  rcases h with h | h
  · rw [h]
  · rw [h]; cases s.enc.curv <;> rfl

theorem execEncMiss_of_not_miss
    (h : s.enc.curv = false ∨ (∃ k, dictFind s.enc.dict s.enc.cur b = some k) ∨ 4094 ≤ s.enc.nac.toNat) :
    execEncMiss s = .refused (.notSelected "ENC.MISS") := by
  rw [execEncMiss, byteStep_of_byte hi hx]
  rcases h with h | ⟨k, h⟩ | h
  · rw [h]
  · rw [h]; cases s.enc.curv <;> rfl
  · rw [if_neg (show ¬ s.enc.nac.toNat < Config.nacLimit from Nat.not_lt.2 h)]
    split <;> rfl

theorem execEncMissFull_of_not_full
    (h : s.enc.curv = false ∨ (∃ k, dictFind s.enc.dict s.enc.cur b = some k) ∨ s.enc.nac.toNat ≠ 4094) :
    execEncMissFull s = .refused (.notSelected "ENC.MISS_FULL") := by
  rw [execEncMissFull, byteStep_of_byte hi hx]
  rcases h with h | ⟨k, h⟩ | h
  · rw [h]
  · rw [h]; cases s.enc.curv <;> rfl
  · rw [if_neg (by simpa [dictFull] using h)]
    split <;> rfl

end

/-! ## The commands -/

theorem execEncode_of_not_selected {s : State} (h : s.cfg.mode = .decode ∨ s.stat.state ≠ .busy) :
    execEncode s = .refused (.notSelected "ENCODE") :=
  if_neg fun ⟨hm, hb⟩ => h.elim (fun hd => absurd (hm.symm.trans hd) (by decide)) fun hn => hn hb

theorem execDecode_of_not_selected {s : State} (h : s.cfg.mode = .encode ∨ s.stat.state ≠ .busy) :
    execDecode s = .refused (.notSelected "DECODE") :=
  if_neg fun ⟨hm, hb⟩ => h.elim (fun hd => absurd (hm.symm.trans hd) (by decide)) fun hn => hn hb

/-- Settles O38, operation by operation. -/
theorem unselectedOperationsAreRefused : Obligations.UnselectedOperationsAreRefused := fun _ =>
  ⟨fun _ _ => exec_dict_of_not_selected, fun _ _ => exec_kwk_of_not_selected, fun _ _ => exec_inv_of_not_selected,
    fun h => ⟨byteStep_of_past h _ _, byteStep_of_past h _ _, byteStep_of_past h _ _, byteStep_of_past h _ _⟩,
    fun _ hi hx => ⟨execEncFirst_of_match hi hx, execEncHit_of_not_hit hi hx, execEncMiss_of_not_miss hi hx,
      execEncMissFull_of_not_full hi hx⟩,
    fun h => if_neg h, execEncode_of_not_selected, execDecode_of_not_selected⟩

end Sys2Proof.Machine
end

section
/-! PROOFS. The bits of the stream in parts: codes by bits, streams by bytes, values as weighted sums (R48, R63). -/

namespace Sys2Proof

/-! ## The bits of a code -/

theorem codeBits_concat (w v : Nat) (b : Bool) : codeBits (w + 1) (v * 2 + b.toNat) = codeBits w v ++ [b] := by
  rw [Nat.mul_comm, ← Nat.bit_val]
  refine List.reverse_injective ?_
  rw [List.reverse_concat, codeBits_reverse, codeBits_reverse, List.range_succ_eq_map, List.map_cons, List.map_map,
    Nat.testBit_bit_zero]
  exact congrArg (b :: ·) (List.map_congr_left fun i _ => Nat.testBit_bit_succ i b v)

/-- A value shifted left ends in zero bits. -/
theorem codeBits_mul_two_pow (w k v : Nat) : codeBits (w + k) (v * 2 ^ k) = codeBits w v ++ List.replicate k false := by
  induction k with
  | zero => simp
  | succ k ih =>
    have := codeBits_concat (w + k) (v * 2 ^ k) false
    rw [ih, List.append_assoc, ← List.replicate_succ'] at this
    rw [← this, Nat.pow_succ, ← Nat.mul_assoc]
    rfl

/-- The bits past the width do not matter. -/
theorem codeBits_mod_two_pow {w m : Nat} (v : Nat) (h : w ≤ m) : codeBits w (v % 2 ^ m) = codeBits w v := by
  refine List.map_congr_left fun j hj => ?_
  have hlt := List.mem_range.1 hj
  rw [Nat.testBit_mod_two_pow, decide_eq_true (by omega), Bool.true_and]

/-! ## The bits of a stream -/

theorem streamBits_add (f : Nat → Byte) (pos m n : Nat) :
    streamBits f pos (m + n) = streamBits f pos m ++ streamBits f (pos + m) n := by
  simp only [streamBits, List.range_add, List.map_append, List.map_map, Function.comp_def, Nat.add_assoc]

@[simp] theorem streamBits_length (f : Nat → Byte) (pos w : Nat) : (streamBits f pos w).length = w := by
  simp [streamBits]

/-- The eight bits of a byte of the stream (R48). -/
theorem streamBits_byte (f : Nat → Byte) (n : Nat) : streamBits f (8 * n) 8 = codeBits 8 (f n).toNat := by
  refine List.map_congr_left fun j hj => ?_
  have hlt := List.mem_range.1 hj
  rw [streamBit, show (8 * n + j) / 8 = n by omega, show 7 - (8 * n + j) % 8 = 8 - 1 - j by omega]
  rfl

/-- Whole bytes of the stream depend on those bytes alone. -/
theorem streamBits_congr {f g : Nat → Byte} {n : Nat} (h : ∀ a, a < n → f a = g a) :
    streamBits f 0 (8 * n) = streamBits g 0 (8 * n) := by
  refine List.map_congr_left fun j hj => ?_
  have hlt := List.mem_range.1 hj
  rw [streamBit, streamBit, h _ (by omega)]

/-- The bits of a stream between two parts of it. -/
theorem streamBits_of_append {f : Nat → Byte} {n : Nat} {before bits after : List Bool}
    (h : streamBits f 0 n = before ++ bits ++ after) : streamBits f before.length bits.length = bits := by
  have hn : n = before.length + bits.length + after.length := by
    simpa [Nat.add_assoc] using congrArg List.length h
  rw [hn, streamBits_add, streamBits_add, Nat.zero_add] at h
  exact (List.append_inj (List.append_inj h (by simp)).1 (by simp)).2

/-! ## The value of bits -/

theorem bitsVal_lt_two_pow (bs : List Bool) : bitsVal bs < 2 ^ bs.length := by
  refine Nat.lt_pow_two_of_testBit _ fun i hi => ?_
  rw [testBit_bitsVal, List.getD_eq_default _ _ (by simpa using hi)]

/-- The value is the sum of the bits, each at its weight, the first the most significant (R63). -/
theorem bitsVal_map_range (w : Nat) (f : Nat → Bool) :
    bitsVal ((List.range w).map f) = ((List.range w).map fun j => (f j).toNat * 2 ^ (w - 1 - j)).sum := by
  induction w with
  | zero => rfl
  | succ w ih =>
    have weights : ∀ j ∈ List.range w, (f j).toNat * 2 ^ (w + 1 - 1 - j) = 2 * ((f j).toNat * 2 ^ (w - 1 - j)) := by
      intro j hj
      have hlt := List.mem_range.1 hj
      rw [show w + 1 - 1 - j = w - 1 - j + 1 by omega, Nat.pow_succ]
      ring
    rw [List.range_succ, List.map_append, List.map_append, List.sum_append, List.map_congr_left weights,
      List.sum_map_mul_left, ← ih, List.map_singleton, bitsVal_concat, Nat.bit_val]
    simp

end Sys2Proof
end

section
/-! PROOFS. The packer and the unpacker (R79 to R84): the stream after each write; what is written is read back. -/

namespace Sys2Proof.Machine

/-! ## The packer -/

theorem outBits_length (s : State) : (outBits s).length = 8 * s.outLen + s.bw.cnt.toNat := by
  rw [outBits, List.length_append, streamBits_length, codeBits_length]

/-- A byte appended to `OUT` ends its whole bytes. -/
theorem streamBits_memWrite {m : Memory} (n : Nat) (b : Byte) (h : Memory.wf m) :
    streamBits (memRead (memWrite m n b)) 0 (8 * (n + 1)) = streamBits (memRead m) 0 (8 * n) ++ codeBits 8 b.toNat := by
  rw [Nat.mul_succ, streamBits_add, Nat.zero_add, streamBits_byte, memRead_memWrite_self n b h,
    streamBits_congr fun a ha => memRead_memWrite_ne m b (Nat.ne_of_lt ha)]

/-- The stream after a byte leaves the writer's buffer. -/
theorem outBits_outAppend (b : Byte) {s : State} (h : Memory.wf s.outBuf) :
    outBits ((outAppend b s).setBw { acc := 0, cnt := 0 }) =
      streamBits (memRead s.outBuf) 0 (8 * s.outLen) ++ codeBits 8 b.toNat :=
  (List.append_nil _).trans (streamBits_memWrite s.outLen b h)

/-- A bit written is the next bit of the stream (R79): it ends the pending bits, or completes their byte. -/
theorem outBits_writeBit (b : Bool) {s : State} (h : Memory.wf s.outBuf) :
    outBits (writeBit s b) = outBits s ++ [b] := by
  have pending : outBits s ++ [b] = streamBits (memRead s.outBuf) 0 (8 * s.outLen) ++
      codeBits (s.bw.cnt.toNat + 1) (s.bw.acc.toNat * 2 + b.toNat) := by
    rw [outBits, List.append_assoc, codeBits_concat]
  rw [pending, writeBit]
  split
  · next hfull => rw [outBits_outAppend _ h, BitVec.toNat_ofNat, codeBits_mod_two_pow _ le_rfl, hfull]
  · next hpart =>
    have hcnt : (s.bw.cnt + 1).toNat = s.bw.cnt.toNat + 1 := by bv_omega
    have hle : s.bw.cnt.toNat + 1 ≤ 7 := by have := s.bw.cnt.isLt; omega
    simp only [outBits, State.setBw_outBuf, State.setBw_outLen, State.setBw_bw, BitVec.toNat_ofNat, hcnt,
      codeBits_mod_two_pow _ hle]

/-- The stream after a code (R79). -/
theorem outBits_writeCodeBits (v : Code) (w : Width) {s : State} (h : Memory.wf s.outBuf) :
    outBits (writeCodeBits v w s) = outBits s ++ codeBits w.bits v.toNat := by
  unfold writeCodeBits
  generalize codeBits w.bits v.toNat = bs
  induction bs generalizing s with
  | nil => simp
  | cons b bs ih =>
    rw [List.foldl_cons, ih ((writeBit_writes s b).wf h), outBits_writeBit b h, List.append_assoc,
      List.singleton_append]

/-- Settles O11: the number of bits in the stream gives `OUT_LEN` and `BW.CNT`, the packer's frame the rest. -/
theorem writeCodeAppendsItsBits : Obligations.WriteCodeAppendsItsBits := by
  intro v w s hv hwf
  have hw := writeCodeBits_writes v w s
  have hbits := outBits_writeCodeBits v w hwf
  have hlen := congrArg List.length hbits
  rw [List.length_append, outBits_length, outBits_length, codeBits_length] at hlen
  have hs := s.bw.cnt.isLt
  have ht := (writeCodeBits v w s).bw.cnt.isLt
  have hwidth := Width_bits_bounds w
  exact ⟨writeCodeBits v w s, if_pos (decide_eq_true hv), hbits, by omega, by omega, by omega, hw.kept, hw.frame⟩

/-- Settles O12. -/
theorem writeCodeRefusesWideCodes : Obligations.WriteCodeRefusesWideCodes := fun _ _ _ hv =>
  if_neg (by simpa [codeFits] using hv)

theorem flushBits_of_empty {s : State} (h : s.bw.cnt.toNat = 0) : flushBits s = s :=
  if_neg (by omega)

theorem flushBits_of_pending {s : State} (h : 0 < s.bw.cnt.toNat) :
    flushBits s =
      (outAppend (BitVec.ofNat 8 (s.bw.acc.toNat * 2 ^ (8 - s.bw.cnt.toNat))) s).setBw { acc := 0, cnt := 0 } :=
  if_pos h

/-- The stream after a flush (R81). -/
theorem outBits_flushBits {s : State} (h : 0 < s.bw.cnt.toNat) (hwf : Memory.wf s.outBuf) :
    outBits (flushBits s) = outBits s ++ List.replicate (8 - s.bw.cnt.toNat) false := by
  have hpad := codeBits_mul_two_pow s.bw.cnt.toNat (8 - s.bw.cnt.toNat) s.bw.acc.toNat
  rw [Nat.add_sub_cancel' (by have := s.bw.cnt.isLt; omega)] at hpad
  rw [flushBits_of_pending h, outBits_outAppend _ hwf, BitVec.toNat_ofNat, codeBits_mod_two_pow _ le_rfl, hpad, outBits,
    List.append_assoc]

/-- Settles O13. -/
theorem flushPadsWithZeros : Obligations.FlushPadsWithZeros := fun s =>
  ⟨fun h => congrArg Host.Outcome.next (flushBits_of_empty h), fun h hwf =>
    ⟨flushBits s, rfl, outBits_flushBits h hwf, congrArg State.outLen (flushBits_of_pending h),
      congrArg State.bw (flushBits_of_pending h), (flushBits_writes s).kept, (flushBits_writes s).frame⟩⟩

/-! ## The unpacker -/

/-- A code of a width is a 12-bit value. -/
theorem toNat_ofNat_codeAt (f : Nat → Byte) (pos : Nat) (w : Width) :
    (BitVec.ofNat 12 (codeAt f pos w.bits)).toNat = codeAt f pos w.bits := by
  have hlt := bitsVal_lt_two_pow (streamBits f pos w.bits)
  rw [streamBits_length, ← codeAt] at hlt
  rw [BitVec.toNat_ofNat, Nat.mod_eq_of_lt (hlt.trans_le (Nat.pow_le_pow_right (by decide) (Width_bits_bounds w).2))]

/-- `readCode` with the bits of its code left (R83). -/
theorem exec_readCode_of_enough {w : Width} {s : State} (h : w.bits ≤ 8 * s.inLen - s.brPos) :
    exec (.readCode w) s =
      .next { s with
        brPos := s.brPos + w.bits, ret := .code (BitVec.ofNat 12 (codeAt (memRead s.inBuf) s.brPos w.bits)) } := by
  obtain ⟨-, c, rfl, hread⟩ := (readBits_cases w s).resolve_left fun hshort => absurd hshort.1 (Nat.not_lt.2 h)
  show execReadCode w s = _
  rw [execReadCode, hread]

/-- `readCode` with fewer bits left than its width (R83). -/
theorem exec_readCode_of_short {w : Width} {s : State} (h : 8 * s.inLen - s.brPos < w.bits) :
    exec (.readCode w) s = .next (raiseFault .unexpectedEndOfStream s.brPos s) := by
  obtain ⟨-, hfault⟩ := (readBits_cases w s).resolve_right fun henough => absurd h (Nat.not_lt.2 henough.1)
  show execReadCode w s = _
  rw [execReadCode, hfault]

/-- The registers after a fault (R139). -/
theorem faulted_raiseFault (k : ErrKind) (p : Nat) (s : State) : Faulted k p s (raiseFault k p s) :=
  ⟨rfl, rfl, rfl, ⟨rfl, rfl, rfl, rfl, rfl⟩, ⟨rfl, rfl, rfl⟩, ⟨rfl, rfl⟩, rfl⟩

/-- Settles O14. -/
theorem readCodeReadsOrFaults : Obligations.ReadCodeReadsOrFaults := by
  refine fun w s => ⟨fun h => ⟨_, ?_, exec_readCode_of_enough h⟩,
    fun h => ⟨_, exec_readCode_of_short h, faulted_raiseFault _ _ s⟩⟩
  rw [toNat_ofNat_codeAt]
  exact bitsVal_map_range w.bits _

/-! ## Codes written, then read -/

/-- `writeCode` of each code of a list, in order. -/
def writeCodes (cs : List (Code × Width)) (s : State) : State :=
  cs.foldl (fun u p => writeCodeBits p.1 p.2 u) s

/-- The bits of the codes of a list, one after the other (R80). -/
def listBits (cs : List (Code × Width)) : List Bool :=
  cs.flatMap fun p => codeBits p.2.bits p.1.toNat

@[simp] theorem listBits_length (cs : List (Code × Width)) : (listBits cs).length = (cs.map (·.2.bits)).sum := by
  simp [listBits, List.length_flatMap]

/-- The bits of a list around those of its code `k`. -/
theorem listBits_split {cs : List (Code × Width)} {k : Nat} (hk : k < cs.length) :
    listBits cs = listBits (cs.take k) ++ codeBits cs[k].2.bits cs[k].1.toNat ++ listBits (cs.drop (k + 1)) := by
  conv_lhs => rw [← List.take_append_drop k cs, List.drop_eq_getElem_cons hk]
  simp only [listBits, List.flatMap_append, List.flatMap_cons, List.append_assoc]

theorem writeCodes_writes (cs : List (Code × Width)) (s : State) : WritesStream s (writeCodes cs s) := by
  induction cs generalizing s with
  | nil => exact .refl s
  | cons p cs ih => exact (writeCodeBits_writes p.1 p.2 s).trans (ih _)

theorem outBits_writeCodes (cs : List (Code × Width)) {s : State} (h : Memory.wf s.outBuf) :
    outBits (writeCodes cs s) = outBits s ++ listBits cs := by
  induction cs generalizing s with
  | nil => simp [writeCodes, listBits]
  | cons p cs ih =>
    have := ih ((writeCodeBits_writes p.1 p.2 s).wf h)
    rw [outBits_writeCodeBits p.1 p.2 h, List.append_assoc] at this
    exact this

/-- A flushed writer holds whole bytes: the stream before, then fewer than 8 zero bits. -/
theorem streamBits_flushBits {s : State} (h : Memory.wf s.outBuf) :
    ∃ k, k < 8 ∧ streamBits (memRead (flushBits s).outBuf) 0 (8 * (flushBits s).outLen) =
      outBits s ++ List.replicate k false := by
  obtain hc | hc := Nat.eq_zero_or_pos s.bw.cnt.toNat
  · refine ⟨0, by decide, ?_⟩
    rw [flushBits_of_empty hc, outBits, hc, List.replicate_zero, List.append_nil]
    exact (List.append_nil _).symm
  · refine ⟨8 - s.bw.cnt.toNat, by omega, ?_⟩
    rw [← outBits_flushBits hc h, outBits, flushBits_of_pending hc]
    exact (List.append_nil _).symm

/-- `OUT` after codes are written to an empty writer and flushed (R80, R81). -/
theorem streamBits_flushed_codes {s : State} (cs : List (Code × Width)) (hlen : s.outLen = 0) (hcnt : s.bw.cnt = 0)
    (hwf : Memory.wf s.outBuf) :
    ∃ k, k < 8 ∧
      streamBits (memRead (flushBits (writeCodes cs s)).outBuf) 0 (8 * (flushBits (writeCodes cs s)).outLen) =
        listBits cs ++ List.replicate k false := by
  have hempty : outBits s = [] := by rw [outBits, hlen, hcnt]; rfl
  have := streamBits_flushBits ((writeCodes_writes cs s).wf hwf)
  rwa [outBits_writeCodes cs hwf, hempty, List.nil_append] at this

/-- A code of a list is read where it stands in the stream. -/
theorem exec_readCode_of_listBits {cs : List (Code × Width)} {after : List Bool} {u : State} {k : Nat}
    (hk : k < cs.length) (hfit : cs[k].1.toNat < 2 ^ cs[k].2.bits)
    (hin : streamBits (memRead u.inBuf) 0 (8 * u.inLen) = listBits cs ++ after)
    (hpos : u.brPos = ((cs.take k).map (·.2.bits)).sum) :
    exec (.readCode cs[k].2) u =
      .next { u with brPos := ((cs.take (k + 1)).map (·.2.bits)).sum, ret := .code cs[k].1 } := by
  have hnext : u.brPos + cs[k].2.bits = ((cs.take (k + 1)).map (·.2.bits)).sum := by
    rw [List.take_succ_eq_append_getElem hk, List.map_append, List.sum_append, hpos]
    simp
  rw [listBits_split hk, List.append_assoc] at hin
  have hcode := streamBits_of_append hin
  rw [listBits_length, codeBits_length, ← hpos] at hcode
  have hlen := congrArg List.length hin
  simp only [streamBits_length, List.length_append, listBits_length, codeBits_length, ← hpos] at hlen
  rw [exec_readCode_of_enough (by omega), codeAt, hcode, bitsVal_codeBits hfit, BitVec.ofNat_toNat, BitVec.setWidth_eq,
    hnext]

/-- Settles O15: the output holds the codes' bits one after the other, so each is read where it was written. -/
theorem writtenCodesReadBack : Obligations.WrittenCodesReadBack := by
  rintro s t cs hlen hcnt hwf hfit rfl
  obtain ⟨n, hn, hout⟩ := streamBits_flushed_codes cs hlen hcnt hwf
  have htotal := congrArg List.length hout
  rw [streamBits_length, List.length_append, listBits_length, List.length_replicate] at htotal
  refine ⟨?_, fun u k hk hu hin hpos => ?_⟩
  · show (flushBits (writeCodes cs s)).outLen = _
    omega
  · refine exec_readCode_of_listBits hk (hfit _ (List.getElem_mem hk)) (after := List.replicate n false) ?_ hpos
    rw [hu, streamBits_congr hin]
    exact hout

end Sys2Proof.Machine
end

section
/-! PROOFS. The operations of the encoder's dictionary (R86 to R88): reset, lookup, insert. -/

namespace Sys2Proof.Machine

/-- Settles O16: `reset()` writes the values of a session's start, and `Wd` of the first learned code is 9 bits. -/
theorem encoderResetEmptiesTheDictionary : Obligations.EncoderResetEmptiesTheDictionary := fun _ => rfl

/-! ## lookup -/

/-- Among distinct keys an entry's key gives its code (R24). -/
theorem dictFind_of_mem {d : List DictEntry} {p : Code} {b : Byte} {k : Code}
    (hd : (d.map fun e => (e.pre, e.byte)).Nodup) (h : { pre := p, byte := b, code := k : DictEntry } ∈ d) :
    dictFind d p b = some k := by
  cases hf : dictFind d p b with
  | none => exact absurd (List.mem_map_of_mem h) (key_notMem_of_miss hf)
  | some k' =>
    have same := List.inj_on_of_nodup_map hd (mem_of_dictFind hf) h rfl
    exact congrArg (some ·.code) same

/-- A key with no entry is not found. -/
theorem dictFind_eq_none {d : List DictEntry} {p : Code} {b : Byte}
    (h : ∀ k, { pre := p, byte := b, code := k : DictEntry } ∉ d) : dictFind d p b = none :=
  Option.eq_none_iff_forall_ne_some.2 fun k hk => h k (mem_of_dictFind hk)

theorem exec_lookup (p : Code) (b : Byte) (s : State) :
    exec (.lookup p b) s = .next { s with ret := lookupRet s.enc.dict p b } := rfl

theorem lookupRet_of_hit {d : List DictEntry} {p : Code} {b : Byte} {k : Code} (h : dictFind d p b = some k) :
    lookupRet d p b = .hit k := by
  rw [lookupRet, h]

theorem lookupRet_of_miss {d : List DictEntry} {p : Code} {b : Byte} (h : dictFind d p b = none) :
    lookupRet d p b = .miss := by
  rw [lookupRet, h]

/-- Settles O17: the keys of the dictionary are distinct, and its codes are learned codes below `E.NAC`. -/
theorem lookupFindsTheAssignedCode : Obligations.LookupFindsTheAssignedCode := by
  refine fun p b s hr => ⟨fun k hk => ⟨?_, hr.code_bounds hk⟩, fun hk => ?_⟩
  · rw [exec_lookup, lookupRet_of_hit (dictFind_of_mem hr.dict_keys hk)]
  · rw [exec_lookup, lookupRet_of_miss (dictFind_eq_none hk)]

/-! ## insert -/

theorem dictFull_iff {s : State} : dictFull s = true ↔ s.enc.nac.toNat = 4094 := by
  simp [dictFull]

theorem exec_insert_of_full (p : Code) (b : Byte) {s : State} (h : s.enc.nac.toNat = 4094) :
    exec (.insert p b) s = .next { s with ret := .full } := by
  have hfull := dictFull_iff.2 h
  show Host.Outcome.next ((insertEntry p b s).setRet (insertRet s)) = _
  rw [insertEntry, insertRet, if_pos hfull, if_pos hfull]
  rfl

theorem exec_insert_of_room (p : Code) (b : Byte) {s : State} (h : s.enc.nac.toNat ≠ 4094) :
    exec (.insert p b) s =
      .next { s with
        enc := { s.enc with dict := dictSet s.enc.dict p b s.enc.nac, nac := s.enc.nac + 1 },
        ret := .assigned s.enc.nac } := by
  have hroom := mt dictFull_iff.1 h
  show Host.Outcome.next ((insertEntry p b s).setRet (insertRet s)) = _
  rw [insertEntry, insertRet, if_neg hroom, if_neg hroom]
  rfl

/-- Settles O18, by the two answers of `insert` and what the updated map gives at each key. -/
theorem insertAssignsTheNextCode : Obligations.InsertAssignsTheNextCode := fun p b s _ _ =>
  ⟨exec_insert_of_full p b, fun hlt =>
    ⟨_, _, exec_insert_of_room p b (Nat.ne_of_lt hlt), toNat_add_one (by omega), dictFind_dictSet_self _ p b _,
      fun _ _ => dictFind_dictSet_ne _ _⟩⟩

end Sys2Proof.Machine
end

section
/-! PROOFS. What the encoder writes to the stream (R89, R93, R94, R96): the bits of each code and the mirror after it. -/

namespace Sys2Proof.Machine

/-! ## emitCode -/

/-- The stream after a code is emitted (R89): its bits at the width in force before it. -/
theorem outBits_emit (c : Code) {s : State} (h : Memory.wf s.outBuf) :
    outBits (emit c s) = outBits s ++ codeBits (encWidth s).bits c.toNat := by
  obtain ⟨n, em, hm, -⟩ := advanceMirror_cases c (writeCodeBits c (encWidth s) s)
  rw [← outBits_writeCodeBits c (encWidth s) h, emit, hm]
  rfl

theorem emit_wf (c : Code) {s : State} (h : Memory.wf s.outBuf) : Memory.wf (emit c s).outBuf :=
  WritesStream.wf (emit_encoderWrites c s) h

/-- `emitCode` writes the mirror's registers alone of `E.*` (R89). -/
theorem emit_enc (c : Code) (s : State) :
    (emit c s).enc =
      { s.enc with
        dcnt := (emit c s).enc.dcnt, emitted := (emit c s).enc.emitted, width := (emit c s).enc.width } := by
  obtain ⟨t, n, em, -, he, -⟩ := emit_cases c s
  rw [he]

/-- A control code leaves the mirror (R89). -/
theorem emit_enc_of_control {c : Code} (s : State) (hc : c.toNat = 256 ∨ c.toNat = 257) :
    (emit c s).enc = { s.enc with width := Wd s.enc.dcnt.toNat } := by
  obtain ⟨t, n, em, -, he, ⟨-, rfl, rfl⟩ | ⟨hdata, -⟩⟩ := emit_cases c s
  · rw [he]
  · exact absurd hc hdata

/-- A data code advances the mirror (R89). -/
theorem mirrorAdvanced_emit {c : Code} {s : State} (hd : s.enc.dcnt.toNat ≤ 4094)
    (hc : ¬ (c.toNat = 256 ∨ c.toNat = 257)) : MirrorAdvanced s (emit c s) := by
  obtain ⟨t, n, em, -, he, ⟨hctl, -⟩ | ⟨-, rfl, ⟨hem, rfl⟩ | ⟨hem, rfl⟩⟩⟩ := emit_cases c s
  · exact absurd hctl hc
  · rw [MirrorAdvanced, he, hem]
    exact ⟨rfl, toNat_add_one (by omega), rfl⟩
  · rw [MirrorAdvanced, he, hem]
    exact ⟨rfl, rfl, rfl⟩

/-- Settles O19. -/
theorem emitCodeWritesAtTheCurrentWidth : Obligations.EmitCodeWritesAtTheCurrentWidth := by
  intro c s _ hhigh hfit hwf
  have hw := emit_encoderWrites c s
  exact ⟨emit c s, if_pos (decide_eq_true hfit), outBits_emit c hwf, emit_enc_of_control s,
    fun h256 h257 => mirrorAdvanced_emit hhigh (not_or.2 ⟨h256, h257⟩), emit_enc c s, hw.kept, hw.frame⟩

/-- Once the match is emitted the width in force is that of `E.NAC` (R90). -/
theorem encWidth_emit_dataCode {c : Code} {s : State} (hr : EncRegs s) (hn : EncRunning s)
    (hc : SeqCode s.enc.nac.toNat c) : encWidth (emit c s) = Wd s.enc.nac.toNat := by
  obtain ⟨t, -, he⟩ := emit_dataCode hr hn hc
  rw [encWidth, he]

/-- Where the mirror has caught up with `E.NAC` it has advanced by the data code just written (R89). -/
theorem EncRunning.mirrorAdvanced {s t : State} (hn : EncRunning s) (hd : t.enc.dcnt = s.enc.nac)
    (hem : t.enc.emitted = true) (hw : t.enc.width = Wd s.enc.nac.toNat) : MirrorAdvanced s t := by
  refine ⟨hem, ?_, by rw [hw, hd]⟩
  rw [hd]
  cases hs : s.enc.emitted with
  | true => exact (hn.emitted hs).symm
  | false =>
    obtain ⟨hdcnt, hnac⟩ := hn.not_emitted hs
    rw [hdcnt, hnac]
    rfl

/-! ## The byte steps -/

/-- The stream is not in the encoder's registers. -/
theorem outBits_setEnc (s : State) (e : Enc) : outBits (s.setEnc e) = outBits s := rfl

/-- Learning an entry writes nothing to the stream (R88). -/
theorem outBits_insertEntry (p : Code) (b : Byte) (s : State) : outBits (insertEntry p b s) = outBits s := by
  obtain ⟨-, h⟩ | ⟨-, h⟩ := insertEntry_cases p b s <;> rw [h]
  rfl

/-- Learning an entry leaves the width of the next code (R88). -/
theorem encWidth_insertEntry (p : Code) (b : Byte) (s : State) : encWidth (insertEntry p b s) = encWidth s := by
  obtain ⟨-, h⟩ | ⟨-, h⟩ := insertEntry_cases p b s <;> rw [h]
  rfl

/-- The stream after `ENC.MISS` (R93). -/
theorem outBits_of_execEncMiss {s t : State} (h : execEncMiss s = .next t) (hwf : Memory.wf s.outBuf) :
    outBits t = outBits s ++ codeBits (encWidth s).bits s.enc.cur.toNat := by
  obtain ⟨-, -, -, -, b, -, -, rfl⟩ := execEncMiss_next h
  exact (outBits_insertEntry _ _ _).trans (outBits_emit _ hwf)

/-- The stream after `ENC.MISS_FULL` (R94): the `CLR` has the width of the full table. -/
theorem outBits_of_execEncMissFull {s t : State} (h : execEncMissFull s = .next t) (hr : EncRegs s)
    (hn : EncRunning s) (hwf : Memory.wf s.outBuf) :
    outBits t = outBits s ++ codeBits (encWidth s).bits s.enc.cur.toNat ++ codeBits 12 256 := by
  obtain ⟨-, hc, hfull, -, b, -, -, rfl⟩ := execEncMissFull_next h
  have hwidth : encWidth (insertEntry s.enc.cur b (emit s.enc.cur s)) = .w12 := by
    rw [encWidth_insertEntry, encWidth_emit_dataCode hr hn (hn.cur_code hc), hfull]
    rfl
  have hwf' := WritesStream.wf (insertEntry_encoderWrites s.enc.cur b _) (emit_wf s.enc.cur hwf)
  rw [advanceMatch, encReset, outBits_setEnc, outBits_setEnc, outBits_emit _ hwf', outBits_insertEntry,
    outBits_emit _ hwf, hwidth]
  rfl

/-- Settles O20. -/
theorem encFirstTakesTheFirstByte : Obligations.EncFirstTakesTheFirstByte :=
  fun _ _ hc hi hx => execEncFirst_of_first hi hx hc

/-- Settles O21. -/
theorem encHitExtendsTheMatch : Obligations.EncHitExtendsTheMatch :=
  fun _ _ _ hc hi hx hk => execEncHit_of_hit hi hx hc hk

/-- Settles O22: the step's registers give the dictionary and the mirror, its two writes the stream. -/
theorem encMissEmitsThenInserts : Obligations.EncMissEmitsThenInserts := by
  intro s b hr hn hwf hc hi hx hk hl
  obtain ⟨t, ht, hw, he⟩ := execEncMiss_of_miss hi hx hr hn hc hk hl
  have hdict : t.enc.dict = dictSet s.enc.dict s.enc.cur b s.enc.nac := by rw [he, dictSet_of_miss _ hk]
  refine ⟨t, ht, outBits_of_execEncMiss ht hwf, ?_, fun q c hne => ?_, ?_, ?_, ?_, ?_, ?_, hw.kept, hw.frame⟩
  · rw [hdict, dictFind_dictSet_self]
  · rw [hdict, dictFind_dictSet_ne _ _ hne]
  · rw [he]; exact toNat_add_one (by omega)
  · exact hn.mirrorAdvanced (by rw [he]) (by rw [he]) (by rw [he])
  · rw [he]; rfl
  · rw [he]; exact hc
  · rw [he]

/-- Settles O23. -/
theorem encMissFullEmitsAClear : Obligations.EncMissFullEmitsAClear := by
  intro s b hr hn hwf hc hi hx hk hl
  obtain ⟨t, ht, hw, he⟩ := execEncMissFull_of_full hi hx hr hn hc hk hl
  exact ⟨t, ht, outBits_of_execEncMissFull ht hr hn hwf, by rw [he, ← hc]; rfl, hw.kept, hw.frame⟩

/-! ## The finish -/

/-- A flush leaves the writer empty (R81), where no bit stands above those pending (R26). -/
theorem flushBits_bw {s : State} (h : s.bw.acc.toNat < 2 ^ s.bw.cnt.toNat) :
    (flushBits s).bw = { acc := 0, cnt := 0 } := by
  obtain hc | hc := Nat.eq_zero_or_pos s.bw.cnt.toNat
  · have hacc : s.bw.acc = 0 := BitVec.eq_of_toNat_eq (by rw [hc] at h; simpa using h)
    have hcnt : s.bw.cnt = 0 := BitVec.eq_of_toNat_eq hc
    rw [flushBits_of_empty hc, ← hacc, ← hcnt]
  · rw [flushBits_of_pending hc]; rfl

/-- A flush pads with at most 7 zero bits (R81). -/
theorem outBits_flushBits_le {s : State} (h : Memory.wf s.outBuf) :
    ∃ n ≤ 7, outBits (flushBits s) = outBits s ++ List.replicate n false := by
  obtain hc | hc := Nat.eq_zero_or_pos s.bw.cnt.toNat
  · exact ⟨0, by decide, by simp [flushBits_of_empty hc]⟩
  · exact ⟨_, by omega, outBits_flushBits hc h⟩

/-- The first part of `ENC.FINISH` (R96): the code of whatever match is held. -/
def emitHeld (s : State) : State := if s.enc.curv then emit s.enc.cur s else s

theorem finishStream_eq (s : State) :
    finishStream s = flushBits (emit (BitVec.ofNat 12 Config.eoi) (emitHeld s)) := rfl

theorem emitHeld_of_match {s : State} (h : s.enc.curv = true) : emitHeld s = emit s.enc.cur s := if_pos h

theorem emitHeld_of_none {s : State} (h : s.enc.curv = false) : emitHeld s = s := if_neg (by simp [h])

theorem emitHeld_encoderWrites (s : State) : EncoderWrites s (emitHeld s) := by
  unfold emitHeld
  split
  · exact emit_encoderWrites _ s
  · exact .refl s

theorem outBits_emitHeld {s : State} (h : Memory.wf s.outBuf) :
    outBits (emitHeld s) = outBits s ++ (if s.enc.curv then codeBits (encWidth s).bits s.enc.cur.toNat else []) := by
  unfold emitHeld
  split
  · exact outBits_emit _ h
  · exact (List.append_nil _).symm

section
variable {s : State} (hr : EncRegs s) (hn : EncRunning s)
include hr hn

/-- `EOI` has the width of `E.NAC` (R90): the mirror has caught up, or the session has written nothing. -/
theorem encWidth_emitHeld : encWidth (emitHeld s) = Wd s.enc.nac.toNat := by
  cases hc : s.enc.curv with
  | true => rw [emitHeld_of_match hc, encWidth_emit_dataCode hr hn (hn.cur_code hc)]
  | false =>
    obtain ⟨-, hem⟩ := hn.fresh hc
    obtain ⟨hd, hnac⟩ := hn.not_emitted hem
    rw [emitHeld_of_none hc, encWidth, hd, hnac]

/-- The stream after the last codes of an encode (R96). -/
theorem outBits_finishStream (hwf : Memory.wf s.outBuf) :
    ∃ n ≤ 7, outBits (finishStream s) =
      outBits s ++ (if s.enc.curv then codeBits (encWidth s).bits s.enc.cur.toNat else []) ++
        codeBits (Wd s.enc.nac.toNat).bits 257 ++ List.replicate n false := by
  have hheld := WritesStream.wf (emitHeld_encoderWrites s) hwf
  obtain ⟨n, hn7, hpad⟩ := outBits_flushBits_le (emit_wf (BitVec.ofNat 12 Config.eoi) hheld)
  rw [outBits_emit _ hheld, outBits_emitHeld hwf, encWidth_emitHeld hr hn] at hpad
  exact ⟨n, hn7, hpad⟩

/-- The mirror after the last codes: it has caught up with `E.NAC` when a match was held, and is kept otherwise. -/
theorem finishStream_enc :
    (finishStream s).enc =
      if s.enc.curv then { s.enc with dcnt := s.enc.nac, emitted := true, width := Wd s.enc.nac.toNat } else s.enc := by
  have heoi : (finishStream s).enc = { (emitHeld s).enc with width := Wd (emitHeld s).enc.dcnt.toNat } := by
    rw [finishStream_eq, (flushBits_writes _).frame]
    exact emit_enc_of_control _ (.inr rfl)
  rw [heoi]
  cases hc : s.enc.curv with
  | true =>
    obtain ⟨t, -, he⟩ := emit_dataCode hr hn (hn.cur_code hc)
    rw [emitHeld_of_match hc, he]
    rfl
  | false =>
    rw [emitHeld_of_none hc, ← hr.width_eq]
    rfl

/-- `ENC.FINISH` at the end of the input, BUSY or not (R96, log 10). -/
theorem execEncFinish_of_end (hi : s.enc.ipos = s.inLen) :
    execEncFinish s = .next (setRunState .done (finishStream s)) := by
  rw [execEncFinish, if_pos hi, if_neg]
  cases hc : s.enc.curv with
  | false => simp
  | true => simp [codeFits_seqCode hr hn (hn.cur_code hc)]

end

/-- The last codes leave the writer empty (R81, R96). -/
theorem finishStream_bw {s : State} (hr : EncRegs s) : (finishStream s).bw = { acc := 0, cnt := 0 } :=
  flushBits_bw (WritesStream.acc ((emitHeld_encoderWrites s).trans (emit_encoderWrites _ _)) hr.acc_low)

/-- Setting the run state after the encoder has written. -/
theorem EncoderWrites.setRunState_frame {s t : State} (r : RunState) (h : EncoderWrites s t) :
    setRunState r t = { s with
      enc := t.enc, bw := t.bw, outBuf := t.outBuf, outLen := t.outLen, stat := { s.stat with state := r } } := by
  rw [setRunState_eq, h.frame]

/-- Settles O24: the bits are those of the last codes, the registers those the mirror ends with. -/
theorem encFinishWritesTheEnd : Obligations.EncFinishWritesTheEnd := by
  intro s hr hn hwf hi
  obtain ⟨n, hn7, hbits⟩ := outBits_finishStream hr hn hwf
  have hw := finishStream_encoderWrites s
  have he := finishStream_enc hr hn
  refine ⟨_, n, execEncFinish_of_end hr hn hi, hn7, hbits, finishStream_bw hr,
    by rw [hw.setRunState_frame], ?enc, fun hc => ?held, fun hc => ?none, hw.kept, by rw [hw.setRunState_frame]⟩
  case enc =>
    show (finishStream s).enc = { s.enc with
      dcnt := (finishStream s).enc.dcnt, emitted := (finishStream s).enc.emitted, width := (finishStream s).enc.width }
    rw [he]
    split <;> rfl
  case held =>
    rw [if_pos hc] at he
    exact hn.mirrorAdvanced (congrArg Enc.dcnt he) (congrArg Enc.emitted he) (congrArg Enc.width he)
  case none => exact he.trans (if_neg (by simp [hc]))

end Sys2Proof.Machine
end

section
/-! PROOFS. Which operation a running encode runs (R91 to R96), and that it always answers (R97). -/

namespace Sys2Proof.Machine

/-! ## The operation selected -/

/-- The finish is selected exactly past the input (R96). -/
theorem encSelect_eq_finish_iff {s : State} : encSelect s = .finish ↔ s.inLen ≤ s.enc.ipos := by
  unfold encSelect
  split
  · next hi =>
    refine iff_of_false ?_ (Nat.not_le.2 hi)
    split
    · split
      · exact nofun
      · split <;> exact nofun
    · exact nofun
  · next hi => exact iff_of_true rfl (Nat.not_lt.1 hi)

section
variable {s : State} {b : Byte} (hi : s.enc.ipos < s.inLen)
include hi

theorem encSelect_of_first (hc : s.enc.curv = false) : encSelect s = .first := by
  simp [encSelect, hi, hc]

theorem encSelect_of_hit {k : Code} (hc : s.enc.curv = true) (hx : inputByte s = some b)
    (hk : dictFind s.enc.dict s.enc.cur b = some k) : encSelect s = .hit := by
  simp [encSelect, hi, hc, hx, hk]

theorem encSelect_of_unknown (hc : s.enc.curv = true) (hx : inputByte s = some b)
    (hk : dictFind s.enc.dict s.enc.cur b = none) :
    encSelect s = if dictFull s then .missFull else .miss := by
  simp [encSelect, hi, hc, hx, hk]

end

/-- An operation that answers a next state is the one selected: its own condition is the one that the selection tests. -/
theorem eq_encSelect_of_next {o : EncOp} {s t : State} (h : runEnc o s = .next t) : o = encSelect s := by
  cases o with
  | first =>
    obtain ⟨hi, hc, -⟩ := execEncFirst_next h
    exact (encSelect_of_first hi hc).symm
  | hit =>
    obtain ⟨hi, hc, b, k, hx, hk, -⟩ := execEncHit_next h
    exact (encSelect_of_hit hi hc hx hk).symm
  | miss =>
    obtain ⟨hi, hc, hl, -, b, hx, hk, -⟩ := execEncMiss_next h
    rw [encSelect_of_unknown hi hc hx hk, if_neg (mt dictFull_iff.1 (Nat.ne_of_lt hl))]
  | missFull =>
    obtain ⟨hi, hc, hl, -, b, hx, hk, -⟩ := execEncMissFull_next h
    rw [encSelect_of_unknown hi hc hx hk, if_pos (dictFull_iff.2 hl)]
  | finish =>
    obtain ⟨hi, -⟩ := execEncFinish_next h
    exact (encSelect_eq_finish_iff.2 hi.ge).symm

/-- The selected operation answers a next state: a byte step, or the finish at the end of the input (R97). -/
theorem ByteLoop.runEnc_selected {s : State} (h : ByteLoop s) :
    ∃ t, runEnc (encSelect s) s = .next t ∧ t.stat.err = s.stat.err ∧
      (s.enc.ipos < s.inLen ∧ t.enc.ipos = s.enc.ipos + 1 ∧ t.stat.state = .busy ∨
        s.enc.ipos = s.inLen ∧ t.stat.state = .done) := by
  rcases Nat.lt_or_eq_of_le h.running.ipos_le with hi | hi
  · obtain ⟨t, hs, ht, hw, hpos⟩ := h.step_byte hi
    exact ⟨t, step_lzw_encode h.busy h.phase h.mode ▸ hs, by rw [hw.frame], .inl ⟨hi, hpos, ht.busy⟩⟩
  · rw [encSelect_eq_finish_iff.2 hi.ge]
    exact ⟨_, h.execEncFinish_of_end hi, by rw [(finishStream_encoderWrites s).setRunState_frame], .inr ⟨hi, rfl⟩⟩

/-- Settles O7: the selected operation answers, and an operation that answers is the selected one. -/
theorem exactlyOneEncoderStepIsSelected : Obligations.ExactlyOneEncoderStepIsSelected := by
  refine fun s hb hp hm => ⟨by rw [exec_encInstr, step_lzw_encode hb hp hm], fun h => ?_⟩
  have hl := h.byteLoop hb hp hm
  refine ⟨fun o => ?_, encSelect_eq_finish_iff.trans hl.running.ipos_le.ge_iff_eq⟩
  rw [exec_encInstr]
  constructor
  · rintro ⟨t, ht⟩
    exact eq_encSelect_of_next ht
  · rintro rfl
    obtain ⟨t, ht, -⟩ := hl.runEnc_selected
    exact ⟨t, ht⟩

/-! ## Every step of a running encode answers -/

/-- A legal encode configuration has whole rows (R119, R127). -/
theorem LegalConfig.fwdGeometry {s : State} (h : LegalConfig s) (hm : s.cfg.mode = .encode)
    (hp : s.cfg.pred = .horizontal) : fwdGeometry s = true := by
  obtain ⟨-, -, hpred⟩ := h
  obtain ⟨hw, hrows, -⟩ := hpred hp
  simp [Machine.fwdGeometry, Nat.pos_of_ne_zero hw, hrows hm]

/-- Settles O25, by the phase: a row of the predictor, or the operation that the byte loop selects. -/
theorem encoderNeverFaults : Obligations.EncoderNeverFaults := by
  intro s h hb hm
  obtain ⟨herr, -⟩ := h.no_error hb
  cases hp : s.phase with
  | fwd r =>
    obtain ⟨-, hpred, -⟩ := (encodeOk_fwd hp).1 (h.encode hb hm)
    rw [step_fwd hb hp, fwdStep, if_pos ((h.config hb).fwdGeometry hm hpred)]
    exact ⟨_, rfl, herr, .inl hb, nofun⟩
  | lzw =>
    rw [step_lzw_encode hb hp hm]
    obtain ⟨t, ht, hterr, ⟨hi, hpos, hbusy⟩ | ⟨hi, hdone⟩⟩ := (h.byteLoop hb hp hm).runEnc_selected
    · exact ⟨t, ht, hterr.trans herr, .inl hbusy, fun _ _ => ⟨hpos, hbusy⟩⟩
    · exact ⟨t, ht, hterr.trans herr, .inr hdone, fun _ hlt => absurd hi (Nat.ne_of_lt hlt)⟩
  | inv r => exact absurd (h.encode hb hm) (not_encodeOk_inv hp)

end Sys2Proof.Machine
end

section
/-! PROOFS. The decoder's operations one by one (R102 to R114): the reset, the fetch, `DATA`, and the class arms at each width. -/

namespace Sys2Proof.Machine

/-! ## The reset (R102, R108) -/

/-- Settles O28: `Wd` of the first learned code is 9 bits. -/
theorem decoderResetSeedsTheTable : Obligations.DecoderResetSeedsTheTable := fun s =>
  ⟨Config.freeCode s.free, Config.freeBytes s.free, s.free + 1, rfl⟩

/-- Settles O35: `CLR` is `D.reset()`. -/
theorem clearCodesResetTheDecoder : Obligations.ClearCodesResetTheDecoder := fun w s => by
  rw [exec_clr]
  exact decoderResetSeedsTheTable s

/-! ## The fetch (R103) -/

/-- A fetch with fewer bits left than the width of a code. -/
theorem decFetch_of_short {s : State} (h : 8 * s.inLen - s.brPos < (decWidth s).bits) :
    decFetch s =
      .error (raiseFault .unexpectedEndOfStream s.brPos { s with dec := { s.dec with start := s.brPos } }) :=
  (decFetch_cases s).elim And.right fun ⟨henough, _⟩ => absurd h (Nat.not_lt.2 henough)

/-- Settles O29. -/
theorem fetchReadsAtTheTableWidth : Obligations.FetchReadsAtTheTableWidth := by
  refine fun s => ⟨fun h => ?_, fun h => ⟨_, ?_, faulted_raiseFault _ _ _⟩⟩
  · obtain ⟨c, rfl, hf⟩ := decFetch_of_enough (s := s) h
    refine ⟨_, toNat_ofNat_codeAt _ _ _, ?_⟩
    show execDecFetch s = _
    rw [execDecFetch, hf]
    rfl
  · show execDecFetch s = _
    rw [execDecFetch, decFetch_of_short h]

/-- A fetch that reads a code writes the latch `start`, the cursor and the code returned alone (R103). -/
theorem decFetch_ok_eq {s t : State} {c : Code} (h : decFetch s = .ok (c, t)) :
    t = { s with
      dec := { s.dec with start := s.brPos }, brPos := s.brPos + (decWidth s).bits, ret := .code c } := by
  obtain ⟨-, hf⟩ | ⟨-, c', -, hf⟩ := decFetch_cases s <;> rw [hf] at h <;> cases h
  rfl

/-- The code that a fetch gives fits the width it was read at. -/
theorem decFetch_ok_lt {s t : State} {c : Code} (h : decFetch s = .ok (c, t)) : c.toNat < 2 ^ (decWidth s).bits := by
  obtain ⟨-, hf⟩ | ⟨-, c', rfl, hf⟩ := decFetch_cases s <;> rw [hf] at h <;> cases h
  rw [toNat_ofNat_codeAt]
  exact (bitsVal_lt_two_pow _).trans_eq (by rw [streamBits_length])

theorem inBytes_getD {s : State} {i : Nat} (h : i < s.inLen) : (inBytes s).getD i 0 = memRead s.inBuf i := by
  simp [inBytes, h]

/-- A code inside `IN` has the same value in the input's bytes as in the buffer. -/
theorem codeAt_inBytes {s : State} {pos w : Nat} (h : pos + w ≤ 8 * s.inLen) :
    codeAt ((inBytes s).getD · 0) pos w = codeAt (memRead s.inBuf) pos w :=
  codeAt_congr fun q _ hq => by rw [streamBit, streamBit, inBytes_getD (by omega)]

/-- The instruction decoded from a code that fits the width carries the code whole. -/
theorem encodeCode_decodeCode {w : Width} {n : Nat} {v : Bool} {c : Code} (h : c.toNat < 2 ^ w.bits) :
    encodeCode (decodeCode w n v c) = some (w, c) := by
  rw [decodeCode, encodeCode_instrOfClass, carriedCode_of_row h (classRow_classify n v _)]

/-- Settles O6: the decoder of streams and the fetch read the same code, and the instruction carries it whole (R63). -/
theorem stepRunsTheFetchedCode : Obligations.StepRunsTheFetchedCode := by
  intro s i p hb hp hm h
  unfold decodeStream at h
  split at h
  · cases h
  next hlen =>
    simp only [inBytes, List.length_map, List.length_range, Nat.not_lt] at hlen
    have hpos := (Width_bits_bounds (Wd s.dec.nac.toNat)).1
    rw [codeAt_inBytes (by omega)] at h
    cases h
    obtain ⟨c, rfl, hf⟩ := decFetch_of_enough (s := s) hlen
    refine ⟨_, encodeCode_decodeCode (decFetch_ok_lt hf), ?_⟩
    simp only [step, hb, busyStep, hp, hm, hf]
    rfl

/-! ## `DATA` (R105 to R107, R114) -/

/-- A sequence appended with any table, count and width that keep or extend the old ones as R114 says. -/
theorem dataDone_of_append {c : Code} {seq : List Byte} {s : State} {d : Dec} (hwf : Memory.wf s.outBuf)
    (hstart : d.start = s.dec.start)
    (hkept : s.dec.prevv = false → d.table = s.dec.table ∧ d.nac = s.dec.nac ∧ d.width = s.dec.width)
    (hnew : s.dec.prevv = true →
      tableFind d.table s.dec.nac = some (s.dec.prevseq ++ seq.take 1) ∧
        (∀ k, k ≠ s.dec.nac → tableFind d.table k = tableFind s.dec.table k) ∧
        d.nac.toNat = s.dec.nac.toNat + 1 ∧ d.width = Wd (s.dec.nac.toNat + 1)) :
    DataDone c seq s (setPrev c seq ((outAppendAll seq s).setDec d)) := by
  have hbytes := outBytes_outAppendAll seq s hwf
  obtain ⟨-, hout⟩ := onlyAppends_outAppendAll seq s
  rw [outAppendAll_eq] at hbytes hout ⊢
  exact ⟨hbytes, rfl, hout, rfl, rfl, rfl, hstart, rfl, hkept, hnew, ⟨rfl, rfl, rfl, rfl, rfl⟩, ⟨rfl, rfl, rfl⟩,
    ⟨rfl, rfl⟩, ⟨rfl, rfl⟩⟩

/-- Settles O30, by whether there is a previous code. -/
theorem dataAppendsThenInserts : Obligations.DataAppendsThenInserts := by
  intro c seq s ⟨hlow, hhigh, hfull, hroom⟩ hne hwf
  have hdec : (outAppendAll seq s).dec = s.dec := by rw [outAppendAll_eq]
  show ∃ t, dataTail c seq s = .next t ∧ _
  cases hv : s.dec.prevv with
  | false =>
    refine ⟨_, dataTail_of_no_prev hroom hv, ?_⟩
    exact dataDone_of_append (d := (outAppendAll seq s).dec) hwf (by rw [hdec]) (fun _ => by simp [hdec])
      fun hv' => absurd (hv.symm.trans hv') (by decide)
  | true =>
    obtain ⟨b, bs, rfl⟩ := List.exists_cons_of_ne_nil hne
    have hnotfull : s.dec.nac.toNat ≠ 4094 := fun hn => hfull ⟨hv, hn⟩
    have hnac : (s.dec.nac + 1).toNat = s.dec.nac.toNat + 1 := toNat_add_one (by omega)
    refine ⟨_, dataTail_of_insert hfull hroom hv, dataDone_of_append hwf (by rw [hdec])
      (fun hv' => absurd (hv.symm.trans hv') (by decide)) fun _ => ?_⟩
    rw [hdec]
    exact ⟨tableFind_tableSet_self _ _ _, fun k hk => tableFind_tableSet_ne _ _ hk, hnac, congrArg Wd hnac⟩

/-- The entry that a data code leaves at `D.NAC` (R114). -/
theorem DataDone.entry {c : Code} {seq : List Byte} {s t : State} (h : DataDone c seq s t) (hv : s.dec.prevv = true) :
    tableFind t.dec.table s.dec.nac = some (s.dec.prevseq ++ seq.take 1) := by
  obtain ⟨-, -, -, -, -, -, -, -, -, hins, -⟩ := h
  obtain ⟨hentry, -⟩ := hins hv
  exact hentry

/-- Settles O31: the check of the table comes before that of the output (R142). -/
theorem dataFaultsInOrder : Obligations.DataFaultsInOrder := fun _ _ s =>
  ⟨fun hv hn => ⟨_, dataTail_of_overflow hv hn, faulted_raiseFault _ _ s⟩,
    fun hfull hover => ⟨_, dataTail_of_overrun hfull hover, faulted_raiseFault _ _ s⟩⟩

/-! ## The table's sequences (R29, R30, R40) -/

/-- What a learned code stands for is its entry. -/
theorem tableSeq_of_learned {t : List TableEntry} {c : Code} (h : 258 ≤ c.toNat) : tableSeq t c = tableFind t c :=
  if_neg (by simp only [Config.clear]; omega)

section
variable {s : State} (h : DecRegs s)
include h

/-- Every learned code below `D.NAC` has an entry (R40). -/
theorem DecRegs.exists_tableFind {c : Code} (hlow : 258 ≤ c.toNat) (hlt : c.toNat < s.dec.nac.toNat) :
    ∃ seq, tableFind s.dec.table c = some seq := by
  have hmem : c.toNat ∈ s.dec.table.map (·.code.toNat) := by
    rw [h.table_codes, List.mem_range'_1]
    omega
  obtain ⟨e, he, hcode⟩ := List.mem_map.1 hmem
  have hfound : (s.dec.table.find? (·.code == c)).isSome :=
    List.find?_isSome.2 ⟨e, he, beq_iff_eq.2 (BitVec.eq_of_toNat_eq hcode)⟩
  obtain ⟨e', he'⟩ := Option.isSome_iff_exists.1 hfound
  exact ⟨e'.seq, by rw [tableFind, he', Option.map_some]⟩

/-- An entry is a code's sequence and one byte more (R30). -/
theorem DecRegs.eq_concat_of_tableFind {c : Code} {seq : List Byte} (hc : tableFind s.dec.table c = some seq) :
    ∃ p q b, tableSeq s.dec.table p = some q ∧ seq = q ++ [b] := by
  obtain ⟨e, he, rfl⟩ := Option.map_eq_some_iff.1 hc
  obtain ⟨p, q, b, -, hq, hseq⟩ := h.table_entries e (List.mem_of_find?_eq_some he)
  exact ⟨p, q, b, hq, hseq⟩

/-- No code stands for the empty sequence. -/
theorem DecRegs.ne_nil_of_tableSeq {c : Code} {seq : List Byte} (hc : tableSeq s.dec.table c = some seq) :
    seq ≠ [] := by
  unfold tableSeq at hc
  split at hc
  · cases hc; simp
  · obtain ⟨p, q, b, -, rfl⟩ := h.eq_concat_of_tableFind hc
    simp

/-- A learned entry has two bytes or more. -/
theorem DecRegs.two_le_length {c : Code} {seq : List Byte} (hc : tableFind s.dec.table c = some seq) :
    2 ≤ seq.length := by
  obtain ⟨p, q, b, hq, rfl⟩ := h.eq_concat_of_tableFind hc
  have hpos := List.length_pos_of_ne_nil (h.ne_nil_of_tableSeq hq)
  rw [List.length_append, List.length_singleton]
  omega

end

/-! ## The class arms (R109 to R113) -/

theorem dictArm_of_entry {c : Code} {seq : List Byte} {s : State} (hlow : 258 ≤ c.toNat)
    (hlt : c.toNat < s.dec.nac.toNat) (hc : tableSeq s.dec.table c = some seq) : dictArm c s = dataTail c seq s := by
  rw [dictArm, if_pos ⟨hlow, hlt⟩, hc]

theorem kwkArm_of_prev {c : Code} {b : Byte} {bs : List Byte} {s : State} (hc : c = s.dec.nac)
    (hv : s.dec.prevv = true) (hprev : s.dec.prevseq = b :: bs) : kwkArm c s = dataTail c (b :: bs ++ [b]) s := by
  rw [kwkArm, if_pos ⟨hc, hv⟩, hprev]

/-- Settles O32. -/
theorem literalCodesAppendTheirByte : Obligations.LiteralCodesAppendTheirByte := by
  intro w b s
  have hlit : exec (Instr.lit w b) s = exec (.data (b.setWidth 12) [b]) s := exec_lit w b s
  refine ⟨hlit, fun hroom hwf => ?_⟩
  rw [hlit]
  exact dataAppendsThenInserts _ _ s hroom (List.cons_ne_nil _ _) hwf

/-- Settles O33: the table has the code's entry, of two bytes or more. -/
theorem dictCodesAppendTheirSequence : Obligations.DictCodesAppendTheirSequence := by
  intro w c s h hc hlow hlt
  obtain ⟨seq, hseq⟩ := h.exists_tableFind hlow hlt
  have hdict : exec (Instr.dict w c) s = exec (.data c seq) s := by
    rw [exec_dict, truncCode_of_lt hc]
    exact dictArm_of_entry hlow hlt ((tableSeq_of_learned hlow).trans hseq)
  refine ⟨seq, hseq, h.two_le_length hseq, hdict, fun hroom hwf => ?_⟩
  rw [hdict]
  exact dataAppendsThenInserts c seq s hroom (h.ne_nil_of_tableSeq ((tableSeq_of_learned hlow).trans hseq)) hwf

/-- Settles O34: the entry that R114 inserts is the sequence itself. -/
theorem kwkCodesRepeatTheFirstByte : Obligations.KwkCodesRepeatTheFirstByte := by
  intro w c b bs s hlt hc hv hprev
  have hkwk : exec (Instr.kwk w c) s = exec (.data c (b :: bs ++ [b])) s := by
    rw [exec_kwk, truncCode_of_lt hlt]
    exact kwkArm_of_prev hc hv hprev
  rw [hkwk]
  refine ⟨rfl, fun hroom hwf => ?_, fun hn => (dataFaultsInOrder c _ s).1 hv (hc ▸ hn)⟩
  obtain ⟨t, ht, hdone⟩ := dataAppendsThenInserts c _ s hroom (List.cons_ne_nil _ _) hwf
  exact ⟨t, ht, hdone, by rw [hc, hdone.entry hv, hprev]; rfl⟩

/-- Settles O36. -/
theorem endCodesEndThePass : Obligations.EndCodesEndThePass := by
  intro w s
  rw [exec_eoi]
  refine ⟨fun h => if_neg fun ⟨hp, ho⟩ => ?_, fun hp ho => if_pos ⟨hp, Nat.pos_of_ne_zero ho⟩⟩
  rcases h with h | h
  · cases hp.symm.trans h
  · exact absurd h (Nat.ne_of_gt ho)

/-- Settles O37: the code's class is that of the invalid codes (R64). -/
theorem invalidCodesFault : Obligations.InvalidCodesFault := by
  intro w c s hlt h256 h257 hc
  rw [← BitVec.toNat_inj] at hc
  rw [exec_inv, truncCode_of_lt hlt]
  exact ⟨_, if_pos (classify_eq_inv_iff.2 ⟨h256, h257, hc⟩), faulted_raiseFault _ _ s⟩

end Sys2Proof.Machine
end

section
/-! PROOFS. A decode as one command (R130) against its steps (R103, R104): the code loop runs one code a step to an end of the
LZW pass, `HD.INV` one row a step to DONE (R131). -/

namespace Sys2Proof.Machine

/-- The invariant holds after every run. -/
theorem Inv.of_runs {n : Nat} {s t : State} (h : Inv s) (hr : Runs n s t) : Inv t := by
  induction n generalizing s with
  | zero => cases hr; exact h
  | succ n ih =>
    simp only [Runs, Host.Core.run] at hr
    split at hr
    · next u hu => exact ih (stepKeepsTheInvariant s u h hu) hr
    · cases hr
    · cases hr

/-! ## Every code is answered -/

/-- `DATA` of a sequence that is not empty answers a next state (R105). -/
theorem exists_dataTail {seq : List Byte} (c : Code) (s : State) (h : seq ≠ []) : ∃ t, dataTail c seq s = .next t := by
  obtain ⟨b, bs, rfl⟩ := List.exists_cons_of_ne_nil h
  by_cases hfull : s.dec.prevv = true ∧ s.dec.nac.toNat = 4094
  · exact ⟨_, dataTail_of_overflow hfull.1 hfull.2⟩
  · by_cases hover : s.cfg.explen < s.outLen + (b :: bs).length
    · exact ⟨_, dataTail_of_overrun hfull hover⟩
    · cases hv : s.dec.prevv with
      | false => exact ⟨_, dataTail_of_no_prev (Nat.le_of_not_lt hover) hv⟩
      | true => exact ⟨_, dataTail_of_insert hfull (Nat.le_of_not_lt hover) hv⟩

/-- The arm of a code's own class answers a next state: a learned code has its entry, a previous sequence is not empty (R40). -/
theorem DecRegs.exists_runClass {s : State} (h : DecRegs s) (c : Code) :
    ∃ t, runClass (classify s.dec.nac.toNat s.dec.prevv c.toNat) c s = .next t := by
  have hrow := classRow_classify s.dec.nac.toNat s.dec.prevv c.toNat
  cases hk : classify s.dec.nac.toNat s.dec.prevv c.toNat with
  | clr => exact ⟨_, rfl⟩
  | eoi =>
    by_cases hinv : s.cfg.pred = .horizontal ∧ 0 < s.outLen
    · exact ⟨_, if_pos hinv⟩
    · exact ⟨_, if_neg hinv⟩
  | inv => exact ⟨_, if_pos hk⟩
  | lit => exact exists_dataTail _ s (List.cons_ne_nil _ _)
  | dict =>
    rw [hk] at hrow
    obtain ⟨hlow, hlt⟩ := hrow
    obtain ⟨seq, hseq⟩ := h.exists_tableFind hlow hlt
    rw [← tableSeq_of_learned hlow] at hseq
    rw [runClass, dictArm_of_entry hlow hlt hseq]
    exact exists_dataTail c s (h.ne_nil_of_tableSeq hseq)
  | kwk =>
    rw [hk] at hrow
    obtain ⟨hc, hv⟩ := hrow
    obtain ⟨b, bs, hprev⟩ := List.exists_cons_of_ne_nil (h.ne_nil_of_tableSeq (h.prev_seq hv))
    rw [runClass, kwkArm_of_prev (BitVec.eq_of_toNat_eq hc) hv hprev]
    exact exists_dataTail c s (List.cons_ne_nil _ _)

/-! ## What a decode keeps -/

/-- What every part of a decode leaves: the host's registers and the encoder's datapath as they were, the cursor inside `IN`, the
output inside `CFG.EXPLEN` (R130). -/
structure DecodeKeeps (s t : State) : Prop where
  host : SameHost s t
  encoder : SameEncoder s t
  pos_le : t.brPos ≤ 8 * t.inLen
  out_le : t.outLen ≤ t.cfg.explen

theorem SameEncoder.trans {s t u : State} (h : SameEncoder s t) (k : SameEncoder t u) : SameEncoder s u := by
  obtain ⟨h1, h2, h3⟩ := h
  obtain ⟨k1, k2, k3⟩ := k
  exact ⟨k1.trans h1, k2.trans h2, k3.trans h3⟩

theorem DecodeKeeps.trans {s t u : State} (h : DecodeKeeps s t) (k : DecodeKeeps t u) : DecodeKeeps s u :=
  ⟨h.host.trans k.host, h.encoder.trans k.encoder, k.pos_le, k.out_le⟩

/-- The LZW pass of a decode is over: DONE or ERROR, or the inverse pass begins (R109, R131). -/
def PassEnded (t : State) : Prop :=
  t.phase = .lzw ∧ (t.stat.state = .done ∨ t.stat.state = .error) ∨ t.phase = .inv 0 ∧ t.stat.state = .busy

theorem PassEnded.not_decRunning {t : State} (h : PassEnded t) : decRunning t = false := by
  obtain ⟨hp, hs | hs⟩ | ⟨hp, hs⟩ := h <;> simp [decRunning, hp, hs]

section
variable {s : State} (h : CodeLoop s)
include h

theorem CodeLoop.decRunning : decRunning s = true := by
  simp [Machine.decRunning, h.busy, h.phase]

/-- A fault of a running decode ends the pass where the cursor stands. -/
theorem CodeLoop.raiseFault_keeps {k : ErrKind} {p : Nat} {t : State} (ht : t = raiseFault k p s) :
    DecodeKeeps s t ∧ t.brPos = s.brPos ∧ (CodeLoop t ∨ PassEnded t) := by
  obtain ⟨hpos, -⟩ := h.bounds
  rw [ht]
  exact ⟨⟨sameHost_raiseFault k p s, ⟨rfl, rfl, rfl⟩, hpos, Nat.zero_le _⟩, rfl, .inr (.inl ⟨h.phase, .inr rfl⟩)⟩

/-- `DATA` in the code loop: the cursor stays, and the loop goes on or a fault ends it. -/
theorem CodeLoop.dataTail_keeps {c : Code} {seq : List Byte} {t : State} (hc : DataCode s c seq)
    (hs : Machine.dataTail c seq s = .next t) :
    DecodeKeeps s t ∧ t.brPos = s.brPos ∧ (CodeLoop t ∨ PassEnded t) := by
  have hinv := h.dataTail hc hs
  obtain ⟨hpos, -⟩ := h.bounds
  obtain ⟨-, -, ht⟩ | ⟨-, -, ht⟩ | ⟨-, hroom, ⟨-, b, bs, -, rfl⟩ | ⟨-, rfl⟩⟩ := dataTail_next hs
  · exact h.raiseFault_keeps ht
  · exact h.raiseFault_keeps ht
  all_goals
    rw [outAppendAll_eq] at hinv ⊢
    exact ⟨⟨⟨rfl, rfl, rfl, rfl, rfl⟩, ⟨rfl, rfl, rfl⟩, hpos, hroom⟩, rfl, .inl ⟨hinv, h.busy, h.mode, h.phase⟩⟩

/-- A class arm in the code loop: the cursor stays, and the loop goes on or is over (R104, R115). -/
theorem CodeLoop.runClass_keeps {k : CodeClass} {c : Code} {t : State} (hs : Machine.runClass k c s = .next t) :
    DecodeKeeps s t ∧ t.brPos = s.brPos ∧ (CodeLoop t ∨ PassEnded t) := by
  have hinv := h.runClass hs
  have hh := runClass_sameHost hs
  have ⟨hpos, hout⟩ := h.bounds
  obtain rfl | ⟨-, -, rfl⟩ | rfl | ht | ⟨c', seq, hc, hs⟩ := runClass_next hs
  · exact ⟨⟨hh, ⟨rfl, rfl, rfl⟩, hpos, hout⟩, rfl, .inl ⟨hinv, h.busy, h.mode, h.phase⟩⟩
  · exact ⟨⟨hh, ⟨rfl, rfl, rfl⟩, hpos, hout⟩, rfl, .inr (.inr ⟨rfl, h.busy⟩)⟩
  · exact ⟨⟨hh, ⟨rfl, rfl, rfl⟩, hpos, hout⟩, rfl, .inr (.inl ⟨h.phase, .inl rfl⟩)⟩
  · exact h.raiseFault_keeps ht
  · exact h.dataTail_keeps hc hs

/-! ## The code loop -/

/-- A step of the machine is the decoder's step: the instruction carries the code whole (R63). -/
theorem CodeLoop.step_eq_decStep : step s = decStep s := by
  rcases hf : decFetch s with t | ⟨c, t⟩
  · simp only [step, h.busy, busyStep, h.phase, h.mode, decStep, hf]
  · rw [step_of_decFetch h.busy h.phase h.mode hf, truncCode_of_lt (decFetch_ok_lt hf)]
    simp only [decStep, hf]

/-- A fetch that reads no code ends the pass (R103). -/
theorem CodeLoop.decFetch_error_keeps {t : State} (hf : decFetch s = .error t) : DecodeKeeps s t ∧ PassEnded t := by
  obtain ⟨-, hf'⟩ | ⟨-, c, -, hf'⟩ := decFetch_cases s <;> rw [hf'] at hf <;> cases hf
  exact ⟨⟨⟨rfl, rfl, rfl, rfl, rfl⟩, ⟨rfl, rfl, rfl⟩, h.bounds.1, Nat.zero_le _⟩, .inl ⟨h.phase, .inr rfl⟩⟩

/-- A fetch that reads a code moves the cursor past its 9 bits or more (R103). -/
theorem CodeLoop.decFetch_ok_keeps {c : Code} {t : State} (hf : decFetch s = .ok (c, t)) :
    DecodeKeeps s t ∧ s.brPos + 9 ≤ t.brPos := by
  obtain ⟨hpos, hout⟩ := (h.decFetch_ok hf).bounds
  have hh := decFetch_ok_sameHost hf
  obtain rfl := decFetch_ok_eq hf
  exact ⟨⟨hh, ⟨rfl, rfl, rfl⟩, hpos, hout⟩, Nat.add_le_add_left (Width_bits_bounds (decWidth s)).1 _⟩

/-- A decoder step answers a next state, past a code of at least 9 bits unless the pass is over. -/
theorem CodeLoop.exists_decStep :
    ∃ t, decStep s = .next t ∧ DecodeKeeps s t ∧ (CodeLoop t ∧ s.brPos + 9 ≤ t.brPos ∨ PassEnded t) := by
  rcases hf : decFetch s with u | ⟨c, u⟩
  · obtain ⟨hkeep, hend⟩ := h.decFetch_error_keeps hf
    exact ⟨u, by simp only [decStep, hf], hkeep, .inr hend⟩
  · obtain ⟨hkeep, hpos⟩ := h.decFetch_ok_keeps hf
    have hu := h.decFetch_ok hf
    obtain ⟨t, ht⟩ := hu.inv.dec.exists_runClass c
    obtain ⟨hkeep', hcur, hend⟩ := hu.runClass_keeps ht
    refine ⟨t, ?_, hkeep.trans hkeep', hend.imp_left fun hl => ⟨hl, hcur ▸ hpos⟩⟩
    have hdec : u.dec = { s.dec with start := s.brPos } := by rw [decFetch_ok_eq hf]
    rw [hdec] at ht
    simpa only [decStep, hf] using ht

end

/-- The code loop runs one code a step to the end of the pass, when there are fetches enough for the bits left (R115). -/
theorem CodeLoop.runs_decLoop {s : State} {k : Nat} (h : CodeLoop s) (hk : 8 * s.inLen < s.brPos + 9 * k) :
    ∃ n t, n ≤ k ∧ decLoop k s = .next t ∧ Runs n s t ∧ DecodeKeeps s t ∧ PassEnded t := by
  induction k generalizing s with
  | zero => exact absurd h.bounds.1 (Nat.not_le.2 hk)
  | succ k ih =>
    obtain ⟨t, ht, hkeep, ⟨hl, hpos⟩ | hend⟩ := h.exists_decStep
    · have ⟨_, _, hlen, _⟩ := hkeep.host
      obtain ⟨n, u, hn, hu, hr, hkeep', hend⟩ := ih hl (by omega)
      refine ⟨n + 1, u, Nat.succ_le_succ hn, ?_, .head (h.step_eq_decStep.trans ht) hr, hkeep.trans hkeep', hend⟩
      simp only [decLoop, ht, hl.decRunning, if_true, hu]
    · refine ⟨1, t, Nat.succ_pos k, ?_, .step (h.step_eq_decStep.trans ht), hkeep, hend⟩
      simp [decLoop, ht, hend.not_decRunning]

/-! ## The completion (R131) -/

/-- No more rows than output bytes. -/
theorem invRows_le {s : State} (hw : 0 < s.cfg.roww) : invRows s ≤ s.outLen :=
  (ceilDiv_le_iff_le_mul hw).2 (Nat.le_mul_of_pos_left _ hw)

/-- The inverse pass still to come runs one row a step to DONE. -/
theorem PassEnded.runs_decodeFinish {s : State} (h : PassEnded s) (hi : Inv s) (hpos : s.brPos ≤ 8 * s.inLen)
    (hout : s.outLen ≤ s.cfg.explen) :
    ∃ n t, n ≤ s.cfg.explen ∧ decodeFinish s = .next t ∧ Runs n s t ∧ DecodeKeeps s t ∧
      (t.stat.state = .done ∨ t.stat.state = .error) := by
  obtain ⟨hp, hst⟩ | ⟨hp, hb⟩ := h
  · exact ⟨0, s, Nat.zero_le _, by simp only [decodeFinish, hp], rfl,
      ⟨⟨rfl, rfl, rfl, rfl, rfl⟩, ⟨rfl, rfl, rfl⟩, hpos, hout⟩, hst⟩
  · obtain ⟨-, -, hpred, hsome⟩ := (decodeOk_inv hp).1 (hi.decode hb (hi.mode_of_inv hb hp))
    obtain ⟨-, -, hgeom⟩ := hi.config hb
    obtain ⟨hw, -⟩ := hgeom hpred
    have hw := Nat.pos_of_ne_zero hw
    refine ⟨invRows s, _, (invRows_le hw).trans hout, by simp only [decodeFinish, hp, if_pos hw],
      runs_invAll hb hp hw (by omega), ?_, .inl rfl⟩
    rw [invAll_eq]
    exact ⟨⟨rfl, rfl, rfl, rfl, rfl⟩, ⟨rfl, rfl, rfl⟩, hpos, hout⟩

/-! ## The command -/

section
variable {s : State} (h : Inv s) (hb : s.stat.state = .busy) (hm : s.cfg.mode = .decode)
include h hb hm

/-- From the decoder's reset (R102, R130) the code loop begins with the invariant. -/
theorem Inv.codeLoop_decBegin : CodeLoop ((decBegin s).setPhase .lzw) := by
  obtain ⟨-, hout, -⟩ := h.decode hb hm
  exact ⟨h.of_decode hb hm ⟨rfl, rfl, rfl, rfl, rfl⟩ rfl
    ⟨h.in_wf, h.out_wf, h.enc.withMatch rfl rfl, .of_session_start rfl rfl rfl rfl⟩
    ((decodeOk_lzw rfl).2 ⟨Nat.zero_le _, hout⟩), hb, hm, rfl⟩

/-- `DECODE` is the run of the steps from the decoder's reset, to DONE or ERROR. -/
theorem Inv.runs_execDecode :
    ∃ n t, n ≤ maxFetches s + s.cfg.explen ∧ execDecode s = .next t ∧ Runs n ((decBegin s).setPhase .lzw) t ∧
      DecodeKeeps s t ∧ Inv t ∧ (t.stat.state = .done ∨ t.stat.state = .error) := by
  have hl := h.codeLoop_decBegin hb hm
  have hbits : 8 * s.inLen < 0 + 9 * maxFetches s := by unfold maxFetches; omega
  obtain ⟨m, u, hmle, hu, hru, hku, hend⟩ := hl.runs_decLoop hbits
  obtain ⟨n, t, hnle, ht, hrt, hkt, hst⟩ := hend.runs_decodeFinish (hl.inv.of_runs hru) hku.pos_le hku.out_le
  have ⟨_, hcfg, _⟩ := hku.host
  rw [hcfg] at hnle
  have hrun := hru.trans hrt
  have hkeep := hku.trans hkt
  refine ⟨m + n, t, Nat.add_le_add hmle hnle, ?_, hrun, ⟨hkeep.host, hkeep.encoder, hkeep.pos_le, hkeep.out_le⟩,
    hl.inv.of_runs hrun, hst⟩
  simp only [execDecode, hm, hb, and_self, if_true, hu, ht]

end

/-- Settles O40: in the LZW pass the reset leaves the phase. -/
theorem decodeCommandIsTheRunOfSteps : Obligations.DecodeCommandIsTheRunOfSteps := by
  intro s h hb hm hp
  obtain ⟨n, t, hn, ht, hr, -, -, hst⟩ := h.runs_execDecode hb hm
  have hphase : (decBegin s).setPhase .lzw = decBegin s := by rw [← hp]; rfl
  exact ⟨n, t, ht, hphase ▸ hr, hst, hn⟩

/-- Settles O39: the end state has the invariant, which gives the status record in DONE and the output length in ERROR. -/
theorem decodeCommandEnds : Obligations.DecodeCommandEnds := by
  intro s h hb hm
  obtain ⟨n, t, -, ht, -, hkeep, ⟨-, -, ⟨herror, hok⟩, -⟩, hst⟩ := h.runs_execDecode hb hm
  refine ⟨t, ht, ?_, hkeep.out_le, hkeep.pos_le, hkeep.host, hkeep.encoder⟩
  rcases hst with hd | he
  · obtain ⟨herr, hpos⟩ := hok (by rw [hd]; decide)
    exact .inl (by rw [← hd, ← herr, ← hpos])
  · exact .inr ⟨he, (herror he).2⟩

end Sys2Proof.Machine
end

section
/-! PROOFS. The predictor byte by byte: what a whole pass leaves at each address (R119, R122), the inverse (R124) and the
identity (R123). -/

namespace Sys2Proof.Machine

/-! ## One row -/

/-- A difference is taken from the original sample before it (R119). -/
theorem getElem_diffFrom (p : Byte) (bs : List Byte) (i : Nat) (h : i < bs.length) :
    (diffFrom p bs)[i]'(by simpa using h) = bs[i] - (p :: bs)[i]'(Nat.lt_succ_of_lt h) := by
  induction bs generalizing p i with
  | nil => simp at h
  | cons b bs ih =>
    cases i with
    | zero => rfl
    | succ i => exact ih b i (Nat.lt_of_succ_lt_succ h)

/-- A sum uses the reconstructed sample before it (R122). -/
theorem getElem_sumFrom (p : Byte) (ds : List Byte) (i : Nat) (h : i < ds.length) :
    (sumFrom p ds)[i]'(by simpa using h) =
      (p :: sumFrom p ds)[i]'(by simpa using Nat.lt_succ_of_lt h) + ds[i] := by
  induction ds generalizing p i with
  | nil => simp at h
  | cons d ds ih =>
    cases i with
    | zero => rfl
    | succ i => exact ih (p + d) i (Nat.lt_of_succ_lt_succ h)

/-- Sample 0 of a differenced row is unchanged. -/
theorem getElem_diffRow_zero {bs : List Byte} (h : 0 < (diffRow bs).length) :
    (diffRow bs)[0] = bs[0]'(by simpa using h) := by
  cases bs with
  | nil => simp at h
  | cons b bs => rfl

theorem getElem_diffRow_succ {bs : List Byte} {i : Nat} (h : i + 1 < (diffRow bs).length) :
    (diffRow bs)[i + 1] =
      bs[i + 1]'(by simpa using h) - bs[i]'(by simpa using Nat.lt_of_succ_lt h) := by
  cases bs with
  | nil => simp at h
  | cons b bs => exact getElem_diffFrom b bs i (by simpa [diffRow] using h)

/-- Sample 0 of a summed row is unchanged. -/
theorem getElem_sumRow_zero {ds : List Byte} (h : 0 < (sumRow ds).length) :
    (sumRow ds)[0] = ds[0]'(by simpa using h) := by
  cases ds with
  | nil => simp at h
  | cons d ds => rfl

theorem getElem_sumRow_succ {ds : List Byte} {i : Nat} (h : i + 1 < (sumRow ds).length) :
    (sumRow ds)[i + 1] = (sumRow ds)[i]'(Nat.lt_of_succ_lt h) + ds[i + 1]'(by simpa using h) := by
  cases ds with
  | nil => simp at h
  | cons d ds => exact getElem_sumFrom d ds i (by simpa [sumRow] using h)

/-! ## The byte at an address -/

/-- The byte `HD.FWD` delivers for address `i` of the bytes `f`, in rows of `w` (R119). -/
def diffAt (w : Nat) (f : Nat → Byte) (i : Nat) : Byte :=
  if i % w = 0 then f i else f i - f (i - 1)

/-- The byte `HD.INV` leaves at an address of the bytes `f`, in rows of `w` (R122). -/
def sumAt (w : Nat) (f : Nat → Byte) : Nat → Byte
  | 0 => f 0
  | i + 1 => if (i + 1) % w = 0 then f (i + 1) else sumAt w f i + f (i + 1)

theorem sumAt_eq (w : Nat) (f : Nat → Byte) (i : Nat) :
    sumAt w f i = if i % w = 0 then f i else sumAt w f (i - 1) + f i := by
  cases i with
  | zero => simp [sumAt]
  | succ i => rfl

/-- The first sample of a row is delivered as it is (R119). -/
theorem diffAt_rowStart (w : Nat) (f : Nat → Byte) (r : Nat) : diffAt w f (r * w) = f (r * w) := by
  rw [diffAt, Nat.mul_mod_left, if_pos rfl]

theorem sumAt_rowStart (w : Nat) (f : Nat → Byte) (r : Nat) : sumAt w f (r * w) = f (r * w) := by
  rw [sumAt_eq, Nat.mul_mod_left, if_pos rfl]

/-- Past the first sample of a row the address is no row's start. -/
theorem rowOffset_mod_ne_zero {r w j : Nat} (h : j + 1 < w) : (r * w + (j + 1)) % w ≠ 0 := by
  rw [Nat.mul_add_mod_self_right, Nat.mod_eq_of_lt h]
  exact Nat.succ_ne_zero j

theorem diffAt_rowOffset_succ {w j : Nat} (f : Nat → Byte) (r : Nat) (h : j + 1 < w) :
    diffAt w f (r * w + (j + 1)) = f (r * w + (j + 1)) - f (r * w + j) := by
  rw [diffAt, if_neg (rowOffset_mod_ne_zero h)]
  rfl

theorem sumAt_rowOffset_succ {w j : Nat} (f : Nat → Byte) (r : Nat) (h : j + 1 < w) :
    sumAt w f (r * w + (j + 1)) = sumAt w f (r * w + j) + f (r * w + (j + 1)) := by
  rw [sumAt_eq, if_neg (rowOffset_mod_ne_zero h)]
  rfl

/-- A row (or a prefix of one) differenced is `diffAt` at each of its addresses. -/
theorem diffRow_eq_diffAt {w n : Nat} (f : Nat → Byte) (r : Nat) (hn : n ≤ w) :
    diffRow ((List.range n).map fun j => f (r * w + j)) = (List.range n).map fun j => diffAt w f (r * w + j) := by
  refine List.ext_getElem (by simp) fun i _ h => ?_
  have hi : i < w := (show i < n by simpa using h).trans_le hn
  cases i with
  | zero => simp [getElem_diffRow_zero, diffAt_rowStart]
  | succ i => simp [getElem_diffRow_succ, diffAt_rowOffset_succ f r hi]

/-- A row (or a prefix of one) summed is `sumAt` at each of its addresses. -/
theorem sumRow_eq_sumAt {w n : Nat} (f : Nat → Byte) (r : Nat) (hn : n ≤ w) :
    sumRow ((List.range n).map fun j => f (r * w + j)) = (List.range n).map fun j => sumAt w f (r * w + j) := by
  refine List.ext_getElem (by simp) fun i hs h => ?_
  have hi : i < w := (show i < n by simpa using h).trans_le hn
  induction i with
  | zero => simp [getElem_sumRow_zero, sumAt_rowStart]
  | succ i ih =>
    rw [getElem_sumRow_succ, ih (Nat.lt_of_succ_lt hs) (Nat.lt_of_succ_lt h) (Nat.lt_of_succ_lt hi)]
    simp [sumAt_rowOffset_succ f r hi]

/-- Summing undoes differencing, address by address (R124). -/
theorem sumAt_eq_of_diffAt {w n : Nat} {f g : Nat → Byte} (h : ∀ i, i < n → f i = diffAt w g i) {i : Nat}
    (hi : i < n) : sumAt w f i = g i := by
  induction i with
  | zero => simp [sumAt, h 0 hi, diffAt]
  | succ i ih =>
    rw [sumAt, h _ hi, diffAt, ih (by omega)]
    split
    · rfl
    · exact add_sub_cancel (g i) (g (i + 1))

/-! ## HD.FWD -/

/-- The first `n` rows of the forward pass are `diffAt` at their addresses. -/
theorem foldl_fwdRow_eq_diffAt (s : State) (n : Nat) :
    (List.range n).foldl (fun t r => fwdRow r t) (s.setX []) =
      { s with x := (List.range (n * s.cfg.roww)).map (diffAt s.cfg.roww (memRead s.inBuf)) } := by
  induction n with
  | zero => simp [State.setX]
  | succ n ih =>
    rw [List.range_succ, List.foldl_append, ih, List.foldl_cons, List.foldl_nil, Nat.succ_mul, List.range_add,
      List.map_append, List.map_map, fwdRow, rowBytes, diffRow_eq_diffAt _ n le_rfl, List.take_of_length_le (by simp)]
    rfl

/-- `HD.FWD` on whole rows (R119). -/
theorem exec_hdFwd_eq_diffAt {s : State} (hw : 0 < s.cfg.roww) (hm : s.inLen % s.cfg.roww = 0) :
    exec .hdFwd s =
      .next { s with
        x := (List.range s.inLen).map (diffAt s.cfg.roww (memRead s.inBuf))
        phase := .lzw } := by
  have hg : fwdGeometry s = true := by simp [fwdGeometry, hw, hm]
  show execHdFwd s = _
  rw [execHdFwd, if_pos hg, fwdAll, foldl_fwdRow_eq_diffAt, Nat.div_mul_cancel (Nat.dvd_of_mod_eq_zero hm)]
  rfl

/-- Settles O43: the delivered bytes are `diffAt` at each address of `IN`. -/
theorem forwardDifferencesEachRow : Obligations.ForwardDifferencesEachRow := by
  intro s hw hm
  refine ⟨_, exec_hdFwd_eq_diffAt hw hm, by simp, fun i hi => ?_⟩
  simp [hi, diffAt]

/-! ## HD.INV -/

/-- `m` holds the bytes `f`, summed in rows of `w` at the addresses below `k`. -/
def SummedBelow (w : Nat) (f : Nat → Byte) (k : Nat) (m : Memory) : Prop :=
  Memory.wf m ∧ ∀ a, memRead m a = if a < k then sumAt w f a else f a

/-- A row of the inverse pass sums its addresses inside `OUT[0..OUT_LEN)` (R122). -/
theorem SummedBelow.nextRow {f : Nat → Byte} {r : Nat} {s : State}
    (h : SummedBelow s.cfg.roww f (min (r * s.cfg.roww) s.outLen) s.outBuf) :
    SummedBelow s.cfg.roww f (min ((r + 1) * s.cfg.roww) s.outLen) (invRow r s).outBuf := by
  obtain ⟨hwf, hread⟩ := h
  set w := s.cfg.roww
  set n := min w (s.outLen - r * w) with hn
  have hrow : rowBytes s.outBuf (r * w) n = (List.range n).map fun j => f (r * w + j) :=
    List.map_congr_left fun j _ => by rw [hread, if_neg (by omega)]
  have hout : (invRow r s).outBuf =
      memWriteList s.outBuf (r * w) ((List.range n).map fun j => sumAt w f (r * w + j)) := by
    rw [← sumRow_eq_sumAt f r (Nat.min_le_left ..), ← hrow]
    rfl
  refine ⟨(invRow_eq r s).2.2 hwf, fun a => ?_⟩
  rw [hout, Nat.succ_mul]
  by_cases ha : r * w ≤ a ∧ a < r * w + n
  · obtain ⟨j, rfl⟩ := Nat.exists_eq_add_of_le ha.1
    rw [memRead_memWriteList_inside _ _ hwf (by simp; omega), if_pos (by omega)]
    simp
  · rw [memRead_memWriteList_outside _ _ _ (by simp; omega), hread]
    exact if_congr (by omega) rfl rfl

/-- The first `n` rows of the inverse pass. -/
theorem foldl_invRow_summedBelow {s : State} (hwf : Memory.wf s.outBuf) (n : Nat) :
    ∃ m, (List.range n).foldl (fun t r => invRow r t) s = { s with outBuf := m } ∧
      SummedBelow s.cfg.roww (memRead s.outBuf) (min (n * s.cfg.roww) s.outLen) m := by
  induction n with
  | zero => exact ⟨s.outBuf, rfl, hwf, by simp⟩
  | succ n ih =>
    obtain ⟨m, hm, h⟩ := ih
    refine ⟨(invRow n { s with outBuf := m }).outBuf, ?_, h.nextRow (s := { s with outBuf := m })⟩
    rw [List.range_succ, List.foldl_append, hm]
    rfl

/-- The rows of the inverse pass reach the end of the output. -/
theorem outLen_le_invRows_mul {s : State} (hw : 0 < s.cfg.roww) : s.outLen ≤ invRows s * s.cfg.roww := by
  rw [Nat.mul_comm]
  exact (ceilDiv_le_iff_le_mul hw).1 (le_refl (invRows s))

/-- `HD.INV` on any output (R122). -/
theorem exec_hdInv_summedBelow {s : State} (hw : 0 < s.cfg.roww) (hwf : Memory.wf s.outBuf) :
    ∃ m, exec .hdInv s = .next { s with outBuf := m } ∧
      SummedBelow s.cfg.roww (memRead s.outBuf) s.outLen m := by
  obtain ⟨m, hm, h⟩ := foldl_invRow_summedBelow hwf (invRows s)
  rw [Nat.min_eq_right (outLen_le_invRows_mul hw)] at h
  refine ⟨m, ?_, h⟩
  show execHdInv s = _
  rw [execHdInv, if_pos hw, invAll, hm]

/-- Settles O44: the output is `sumAt` below `OUT_LEN`, which satisfies R122's recurrence, and unchanged from there. -/
theorem inverseSumsEachRow : Obligations.InverseSumsEachRow := by
  intro s hw hwf
  obtain ⟨m, hm, -, hread⟩ := exec_hdInv_summedBelow hw hwf
  refine ⟨m, hm, fun i hi => ?_, fun a ha => by rw [hread, if_neg (Nat.not_lt.2 ha)]⟩
  rw [hread i, hread (i - 1), if_pos hi, if_pos (Nat.lt_of_le_of_lt (Nat.sub_le i 1) hi)]
  exact sumAt_eq ..

/-- Settles O45: the output `HD.INV` reads is `diffAt` of `IN`, which `sumAt` undoes. -/
theorem inverseUndoesForward : Obligations.InverseUndoesForward := by
  intro s t u v hw hm ht hroww hlen hwf hbytes hv
  rw [exec_hdFwd_eq_diffAt hw hm] at ht
  obtain ⟨m, hinv, -, hread⟩ := exec_hdInv_summedBelow (hroww ▸ hw) hwf
  rw [hinv] at hv
  cases ht
  cases hv
  rw [outBytes, hlen] at hbytes
  have hdiff : ∀ i, i < s.inLen → memRead u.outBuf i = diffAt u.cfg.roww (memRead s.inBuf) i := fun i hi =>
    hroww ▸ List.map_inj_left.1 hbytes i (List.mem_range.2 hi)
  simp only [outBytes, inBytes, hlen]
  refine List.map_congr_left fun i hi => ?_
  have hi := List.mem_range.1 hi
  rw [hread, if_pos (hlen.symm ▸ hi), sumAt_eq_of_diffAt hdiff hi]

/-! ## PRED.NONE -/

/-- The encoder consumes `x = IN` (R123). -/
theorem predIdentity_encode {s : State} (h : s.cfg.mode = .encode) : predIdentity s = { s with x := inBytes s } := by
  rw [predIdentity, h]
  rfl

/-- The decoder's output is delivered as it is (R123). -/
theorem predIdentity_decode {s : State} (h : s.cfg.mode = .decode) : predIdentity s = s := by
  rw [predIdentity, h]

/-- Settles O46: `PRED.NONE` in each mode. -/
theorem predictorOffIsIdentity : Obligations.PredictorOffIsIdentity :=
  fun _ => ⟨fun h => congrArg Host.Outcome.next (predIdentity_encode h),
    fun h => congrArg Host.Outcome.next (predIdentity_decode h)⟩

end Sys2Proof.Machine
end

section
/-! PROOFS. The host's interface (R126, R127): `START` on legal and illegal configurations, the host's actions one a step. -/

namespace Sys2Proof.Machine

/-! ## START -/

/-- START with a legal configuration (R127): the invocation reset, then the operation is entered. -/
theorem execStart_of_legal {s : State} (hb : s.stat.state ≠ .busy) (hl : LegalConfig s) :
    execStart s = .next (enterPass (invocationReset (clearStatus s))) := by
  obtain ⟨hb', -⟩ | ⟨-, hc, -⟩ | ⟨-, -, hs⟩ := execStart_cases s
  · exact absurd hb' hb
  · rw [configBad_of_legal hl] at hc; cases hc
  · exact hs

/-- An encode as START leaves it, register by register (R127, R155): the predictor has delivered `x`, and `p` comes next. -/
def startedEncode (s : State) (x : List Byte) (p : Phase) : State :=
  { s with
    stat := { state := .busy, err := .none, errpos := 0 }, outLen := 0
    enc :=
      { curv := false, cur := Config.freeCode s.free, nac := 258, dcnt := 258, emitted := false, width := .w9,
        dict := [], ipos := 0 }
    bw := { acc := 0, cnt := 0 }, x := x, phase := p, free := s.free + 1 }

/-- A decode as START leaves it, register by register (R127, R155). -/
def startedDecode (s : State) : State :=
  { s with
    stat := { state := .busy, err := .none, errpos := 0 }, outLen := 0
    dec :=
      { nac := 258, width := .w9, table := [], prevv := false, prev := Config.freeCode s.free,
        prevseq := Config.freeBytes s.free, start := s.dec.start }
    brPos := 0, phase := .lzw, free := s.free + 1 }

theorem encBegin_clearStatus (s : State) : encBegin (clearStatus s) = startedEncode s s.x s.phase := rfl

theorem decBegin_clearStatus (s : State) : decBegin (clearStatus s) = (startedDecode s).setPhase s.phase := rfl

section
variable {s : State} (hb : s.stat.state ≠ .busy) (hl : LegalConfig s)
include hb hl

/-- START with the predictor off (R123, R127). -/
theorem execStart_encode_none (hm : s.cfg.mode = .encode) (hp : s.cfg.pred = .none) :
    execStart s = .next (startedEncode s (inBytes s) .lzw) := by
  rw [execStart_of_legal_encode hb hm hl, enterPass_encode_none (s := encBegin (clearStatus s)) hm hp,
    encBegin_clearStatus]
  rfl

/-- START with the predictor on: the rows come first, if there is any (R127, R128). -/
theorem execStart_encode_horizontal (hm : s.cfg.mode = .encode) (hp : s.cfg.pred = .horizontal) :
    execStart s = .next (startedEncode s [] (if s.inLen = 0 then .lzw else .fwd 0)) := by
  rw [execStart_of_legal_encode hb hm hl, enterPass_encode_horizontal (s := encBegin (clearStatus s)) hm hp,
    encBegin_clearStatus]
  rfl

/-- START of a decode (R127, R130). -/
theorem execStart_decode (hm : s.cfg.mode = .decode) : execStart s = .next (startedDecode s) := by
  rw [execStart_of_legal hb hl, invocationReset_decode hm, enterPass_decode (s := decBegin (clearStatus s)) hm]
  rfl

end

/-- START with an illegal configuration (R127). -/
theorem execStart_of_illegal {s : State} (hb : s.stat.state ≠ .busy) (hl : ¬ LegalConfig s) :
    execStart s = .next (raiseFault .configError 0 (invocationReset (clearStatus s))) := by
  obtain ⟨hb', -⟩ | ⟨-, -, hs⟩ | ⟨-, hc, -⟩ := execStart_cases s
  · exact absurd hb' hb
  · exact hs
  · exact absurd (legal_of_configBad hc) hl

/-- Settles O48, by the mode and the predictor setting that the operation is entered with. -/
theorem startClearsAndResets : Obligations.StartClearsAndResets := by
  intro s hb hl
  cases hm : s.cfg.mode with
  | encode =>
    cases hp : s.cfg.pred with
    | none =>
      exact ⟨_, execStart_encode_none hb hl hm hp, rfl, rfl, ⟨rfl, rfl, rfl, rfl, rfl⟩, fun _ => rfl, rfl,
        fun _ => ⟨rfl, rfl, ⟨rfl, rfl⟩, fun _ => ⟨rfl, rfl⟩, nofun⟩, nofun⟩
    | horizontal =>
      exact ⟨_, execStart_encode_horizontal hb hl hm hp, rfl, rfl, ⟨rfl, rfl, rfl, rfl, rfl⟩, fun _ => rfl, rfl,
        fun _ => ⟨rfl, rfl, ⟨rfl, rfl⟩, nofun, fun _ => ⟨rfl, rfl⟩⟩, nofun⟩
  | decode =>
    exact ⟨_, execStart_decode hb hl hm, rfl, rfl, ⟨rfl, rfl, rfl, rfl, rfl⟩, fun _ => rfl, rfl, nofun,
      fun _ => ⟨rfl, rfl, ⟨rfl, rfl, rfl⟩, rfl⟩⟩

/-- Settles O49. -/
theorem startRejectsIllegalConfigurations : Obligations.StartRejectsIllegalConfigurations := by
  intro s hb hl
  exact ⟨_, execStart_of_illegal hb hl, rfl, rfl,
    SameHost.trans (invocationReset_host (clearStatus s)) (sameHost_raiseFault _ _ _)⟩

/-! ## The host's actions -/

/-- A step of a block that is not BUSY takes the next host action (R126). -/
theorem step_of_hostAct {s : State} {a : HostAct} {rest : List HostAct} (hb : s.stat.state ≠ .busy)
    (hh : s.host = a :: rest) : step s = hostAct a (s.setHost rest) := by
  rw [step_of_not_busy hb, hostStep, hh]

/-- A host action other than START is a host write, refused while BUSY (R33, R126). -/
theorem hostAct_of_ne_start {a : HostAct} (s : State) (ha : a ≠ .start) :
    hostAct a s =
      if s.stat.state = .busy then .refused .hostWriteWhileBusy else .next (hostWrite a s) := by
  cases a with
  | start => exact absurd rfl ha
  | _ => rfl

/-- A step that takes a host write. -/
theorem step_of_hostWrite {s : State} {a : HostAct} {rest : List HostAct} (hb : s.stat.state ≠ .busy)
    (ha : a ≠ .start) (hh : s.host = a :: rest) : step s = .next (hostWrite a (s.setHost rest)) := by
  rw [step_of_hostAct hb hh, hostAct_of_ne_start _ ha]
  exact if_neg hb

/-- Settles O9, action by action. -/
theorem hostActionsAreTakenOneAStep : Obligations.HostActionsAreTakenOneAStep := fun s rest hb =>
  have write {a : HostAct} (ha : a ≠ .start) (hh : s.host = a :: rest) := step_of_hostWrite hb ha hh
  ⟨fun _ => write nofun, fun _ => write nofun, fun _ => write nofun, fun _ => write nofun, fun _ => write nofun,
    fun i b hh hwf => ⟨memWrite s.inBuf i b, write (a := .writeIn i b) nofun hh, fun a => memRead_memWrite i a b hwf⟩,
    step_of_hostAct hb⟩

/-- Settles O10. -/
theorem busyBlockRefusesTheHost : Obligations.BusyBlockRefusesTheHost := fun s hb =>
  ⟨if_pos hb, fun _ ha => (hostAct_of_ne_start s ha).trans (if_pos hb)⟩

end Sys2Proof.Machine
end

section
/-! PROOFS. ENCODE as one command from any state of a running encode (R128, R129). -/

namespace Sys2Proof.Machine

/-- The byte loop takes every byte left, writing through the packer alone, and then finishes (R95). -/
theorem ByteLoop.encLoop_eq_finish {s : State} {k : Nat} (h : ByteLoop s) (hk : s.enc.ipos + k = s.inLen) :
    ∃ u, encLoop k s = .next (setRunState .done (finishStream u)) ∧ ByteLoop u ∧ EncoderWrites s u ∧
      u.enc.ipos = u.inLen := by
  induction k generalizing s with
  | zero => exact ⟨s, h.execEncFinish_of_end hk, h, .refl s, hk⟩
  | succ k ih =>
    obtain ⟨t, hs, ht, hw, hpos⟩ := h.step_byte (by omega)
    have hlen : t.inLen = s.inLen := by rw [hw.frame]
    obtain ⟨u, hu, hl, hw', hend⟩ := ih ht (by omega)
    refine ⟨u, ?_, hl, hw.trans hw', hend⟩
    rw [encLoop, ← step_lzw_encode h.busy h.phase h.mode, hs]
    exact hu

/-- The last codes complete at least one byte of the output (R96). -/
theorem ByteLoop.outLen_lt_finishStream {s : State} (h : ByteLoop s) (hwf : Memory.wf s.outBuf) :
    s.outLen < (finishStream s).outLen := by
  obtain ⟨n, -, hbits⟩ := outBits_finishStream h.regs h.running hwf
  have hlen := congrArg List.length hbits
  have hcnt : (finishStream s).bw.cnt.toNat = 0 := by rw [finishStream_bw h.regs]; rfl
  have hwidth := (Width_bits_bounds (Wd s.enc.nac.toNat)).1
  simp only [List.length_append, outBits_length, codeBits_length, hcnt] at hlen
  omega

/-- The last codes leave the cursor. -/
theorem ByteLoop.finishStream_ipos {s : State} (h : ByteLoop s) : (finishStream s).enc.ipos = s.enc.ipos := by
  rw [finishStream_enc h.regs h.running]
  split <;> rfl

/-- A BUSY encode with all of `x` delivered is in its byte loop (R128). -/
theorem ByteLoop.of_delivered {s : State} {x : List Byte} (hb : s.stat.state = .busy) (hm : s.cfg.mode = .encode)
    (hr : EncRegs s) (hn : EncRunning s) (hx : x.length = s.inLen) : ByteLoop { s with x := x, phase := .lzw } where
  busy := hb
  mode := hm
  phase := rfl
  regs := hr.withMatch rfl rfl
  running := hn.of_eq rfl rfl
  delivered := hx

/-- The bytes that the predictor delivers to the encoder: the differences of `IN`, or `IN` itself (R119, R123). -/
def predBytes (s : State) : List Byte :=
  match s.cfg.pred with
  | .none => inBytes s
  | .horizontal => (List.range s.inLen).map (diffAt s.cfg.roww (memRead s.inBuf))

theorem predBytes_of_none {s : State} (hp : s.cfg.pred = .none) : predBytes s = inBytes s := by
  rw [predBytes, hp]

theorem predBytes_of_horizontal {s : State} (hp : s.cfg.pred = .horizontal) :
    predBytes s = (List.range s.inLen).map (diffAt s.cfg.roww (memRead s.inBuf)) := by
  rw [predBytes, hp]

theorem predBytes_length (s : State) : (predBytes s).length = s.inLen := by
  unfold predBytes
  split <;> simp [inBytes]

/-- The predictor's part of ENCODE with a legal configuration (R128). -/
theorem LegalConfig.forwardPass {s : State} (hl : LegalConfig s) (hm : s.cfg.mode = .encode) :
    forwardPass s = .next { s with x := predBytes s, phase := .lzw } := by
  cases hp : s.cfg.pred with
  | none =>
    simp only [Machine.forwardPass, hp, predIdentity_encode hm, predBytes_of_none hp]
    rfl
  | horizontal =>
    obtain ⟨-, -, hpred⟩ := hl
    obtain ⟨hw, hrows, -⟩ := hpred hp
    simp only [Machine.forwardPass, hp, predBytes_of_horizontal hp]
    exact exec_hdFwd_eq_diffAt (Nat.pos_of_ne_zero hw) (hrows hm)

/-- What a BUSY encode has of the running invariant whatever its phase (R128). -/
theorem Inv.encRunning {s : State} (h : Inv s) (hb : s.stat.state = .busy) (hm : s.cfg.mode = .encode) :
    EncRunning s := by
  obtain ⟨hrun, -⟩ := h.encode hb hm
  exact hrun

/-- Settles O26: the predictor's pass delivers `x`, the byte loop goes on from `E.IPOS` to the finish. -/
theorem encodeCommandEndsDone : Obligations.EncodeCommandEndsDone := by
  intro s h hb hm
  have hf := (h.config hb).forwardPass hm
  have hloop := ByteLoop.of_delivered hb hm h.enc (h.encRunning hb hm) (predBytes_length s)
  obtain ⟨u, hu, hlu, hw, hend⟩ := hloop.encLoop_eq_finish (Nat.add_sub_cancel' hloop.running.ipos_le)
  have hgrows := hlu.outLen_lt_finishStream (hw.wf h.out_wf)
  have hall := hw.trans (finishStream_encoderWrites u)
  obtain ⟨herr, herrpos⟩ := h.no_error hb
  have hin : u.inLen = s.inLen := by rw [hw.frame]
  refine ⟨_, (execEncode_of_forwardPass hb hm hf).trans hu, ?_⟩
  rw [hall.setRunState_frame]
  refine ⟨?stat, ?ipos, Nat.lt_of_le_of_lt hw.grows hgrows, hall.kept, ⟨rfl, rfl, rfl, rfl, rfl⟩, ⟨rfl, rfl⟩, rfl, rfl⟩
  case stat => rw [← herr, ← herrpos]
  case ipos => exact hlu.finishStream_ipos.trans (hend.trans hin)

end Sys2Proof.Machine
end

section
/-! PROOFS. The streams of the two passes (R80, R103): what the encoder has written stays at the head of its stream, and the
decoder reads the code whose bits come next. -/

namespace Sys2Proof.Machine

/-! ## The encoder's stream grows at its end -/

theorem outBits_prefix_emit (c : Code) {s : State} (h : Memory.wf s.outBuf) : outBits s <+: outBits (emit c s) := by
  rw [outBits_emit c h]
  exact List.prefix_append _ _

theorem outBits_prefix_emitHeld {s : State} (h : Memory.wf s.outBuf) : outBits s <+: outBits (emitHeld s) := by
  rw [outBits_emitHeld h]
  exact List.prefix_append _ _

theorem outBits_prefix_finishStream {s : State} (h : Memory.wf s.outBuf) : outBits s <+: outBits (finishStream s) := by
  have hheld := WritesStream.wf (emitHeld_encoderWrites s) h
  obtain ⟨n, -, hpad⟩ := outBits_flushBits_le (emit_wf (BitVec.ofNat 12 Config.eoi) hheld)
  rw [finishStream_eq, hpad]
  exact ((outBits_prefix_emitHeld h).trans (outBits_prefix_emit _ hheld)).trans (List.prefix_append _ _)

/-- The stream is not in the status record. -/
theorem outBits_setRunState (r : RunState) (s : State) : outBits (setRunState r s) = outBits s := rfl

/-- No encoder step takes back a bit (R45, R80). -/
theorem runEnc_outBits_prefix {o : EncOp} {s t : State} (hs : runEnc o s = .next t) (h : Memory.wf s.outBuf) :
    outBits s <+: outBits t := by
  cases o with
  | first =>
    obtain ⟨-, -, b, -, rfl⟩ := execEncFirst_next hs
    exact List.prefix_rfl
  | hit =>
    obtain ⟨-, -, b, k, -, -, rfl⟩ := execEncHit_next hs
    exact List.prefix_rfl
  | miss =>
    rw [outBits_of_execEncMiss hs h]
    exact List.prefix_append _ _
  | missFull =>
    obtain ⟨-, -, -, -, b, -, -, rfl⟩ := execEncMissFull_next hs
    have hwf := WritesStream.wf (insertEntry_encoderWrites s.enc.cur b _) (emit_wf s.enc.cur h)
    have hclr := outBits_prefix_emit (BitVec.ofNat 12 Config.clear) hwf
    rw [outBits_insertEntry] at hclr
    rw [advanceMatch, encReset, outBits_setEnc, outBits_setEnc]
    exact (outBits_prefix_emit s.enc.cur h).trans hclr
  | finish =>
    obtain ⟨-, -, rfl⟩ := execEncFinish_next hs
    rw [outBits_setRunState]
    exact outBits_prefix_finishStream h

theorem runEnc_out_wf {o : EncOp} {s t : State} (hs : runEnc o s = .next t) (h : Memory.wf s.outBuf) :
    Memory.wf t.outBuf := by
  obtain ⟨u, hw, hu⟩ := runEnc_next hs
  have hwf := WritesStream.wf hw h
  obtain rfl | rfl := hu <;> exact hwf

/-- The byte loop takes back no bit. -/
theorem encLoop_outBits_prefix {k : Nat} {s t : State} (ht : encLoop k s = .next t) (h : Memory.wf s.outBuf) :
    outBits s <+: outBits t := by
  induction k generalizing s with
  | zero => exact runEnc_outBits_prefix (o := .finish) ht h
  | succ k ih =>
    rw [encLoop] at ht
    split at ht
    · next u hu => exact (runEnc_outBits_prefix hu h).trans (ih ht (runEnc_out_wf hu h))
    · cases ht
    · cases ht

/-! ## The decoder's fetch -/

/-- The bits of `IN` (R48). -/
def inBits (s : State) : List Bool :=
  streamBits (memRead s.inBuf) 0 (8 * s.inLen)

theorem inBits_length (s : State) : (inBits s).length = 8 * s.inLen := streamBits_length _ _ _

/-- The state after a fetch that reads the code `c` (R103). -/
def fetched (c : Code) (s : State) : State :=
  { s with dec := { s.dec with start := s.brPos }, brPos := s.brPos + (decWidth s).bits, ret := .code c }

/-- The code whose bits stand at the cursor is the one fetched. -/
theorem decFetch_of_inBits {s : State} {c : Code} {before : List Bool} (hpos : s.brPos = before.length)
    (hc : c.toNat < 2 ^ (decWidth s).bits) (hin : before ++ codeBits (decWidth s).bits c.toNat <+: inBits s) :
    decFetch s = .ok (c, fetched c s) := by
  obtain ⟨after, hin⟩ := hin
  have hlen := congrArg List.length hin
  simp only [List.length_append, codeBits_length, inBits_length, ← hpos] at hlen
  have hcode := streamBits_of_append hin.symm
  rw [codeBits_length, ← hpos] at hcode
  obtain ⟨c', hc', hf⟩ := decFetch_of_enough (s := s) (by omega)
  rw [codeAt, hcode, bitsVal_codeBits hc, BitVec.ofNat_toNat, BitVec.setWidth_eq] at hc'
  rw [hf, hc']
  rfl

/-- A decoder step on a code fetched is the arm of its class (R104). -/
theorem decStep_of_decFetch {s : State} {c : Code} (hf : decFetch s = .ok (c, fetched c s)) :
    decStep s = runClass (classify s.dec.nac.toNat s.dec.prevv c.toNat) c (fetched c s) := by
  rw [decStep, hf]

/-! ## The code loop with fetches enough -/

/-- What the code loop answers from a state, given fetches enough for the bits left (R115). -/
def DecLoopAnswers (s : State) (o : Host.Outcome State Fault Refusal) : Prop :=
  ∀ n, 8 * s.inLen < s.brPos + 9 * n → s.brPos ≤ 8 * s.inLen → decLoop n s = o

/-- A step that ends the pass is what the loop answers. -/
theorem DecLoopAnswers.of_last {s t : State} (hs : decStep s = .next t) (ht : decRunning t = false) :
    DecLoopAnswers s (.next t) := by
  intro n hn hpos
  cases n with
  | zero => omega
  | succ n => simp [decLoop, hs, ht]

/-- A step past a code of 9 bits or more leaves fetches enough. -/
theorem DecLoopAnswers.of_step {s t : State} {o : Host.Outcome State Fault Refusal} (hs : decStep s = .next t)
    (ht : decRunning t = true) (hlen : t.inLen = s.inLen) (hpos : s.brPos + 9 ≤ t.brPos)
    (hle : t.brPos ≤ 8 * t.inLen) (h : DecLoopAnswers t o) : DecLoopAnswers s o := by
  intro n hn hpos'
  cases n with
  | zero => omega
  | succ n => simpa only [decLoop, hs, ht, if_true] using h n (by omega) hle

end Sys2Proof.Machine
end

section
/-! PROOFS. A decode that follows an encode (R116): the decoder reads the codes the encoder wrote, one code behind it in its
table, and its output is the bytes the encoder took. -/

namespace Sys2Proof.Machine

/-! ## A data code in a decode under way -/

/-- A decode under way in the code loop, begun from the state `c`: the part of its invariant that no encoder register is in. -/
structure Decoding (c d : State) : Prop where
  host : SameHost c d
  busy : d.stat.state = .busy
  phase : d.phase = .lzw
  regs : DecRegs d
  out_wf : Memory.wf d.outBuf

theorem Decoding.decRunning {c d : State} (h : Decoding c d) : decRunning d = true := by
  simp [Machine.decRunning, h.busy, h.phase]

theorem Decoding.inBits_eq {c d : State} (h : Decoding c d) : inBits d = inBits c := by
  obtain ⟨-, -, hlen, hbuf, -⟩ := h.host
  rw [inBits, inBits, hlen, hbuf]

theorem Decoding.fetched {c d : State} (k : Code) (h : Decoding c d) : Decoding c (fetched k d) where
  host := h.host.trans ⟨rfl, rfl, rfl, rfl, rfl⟩
  busy := h.busy
  phase := h.phase
  regs := h.regs.withStart rfl
  out_wf := h.out_wf

/-- The decoder step on the code whose bits come next. -/
theorem Decoding.decStep_of_inBits {c d : State} {k : Code} {before : List Bool} (h : Decoding c d)
    (hpos : d.brPos = before.length) (hk : k.toNat < 2 ^ (decWidth d).bits)
    (hin : before ++ codeBits (decWidth d).bits k.toNat <+: inBits c) :
    decStep d = runClass (classify d.dec.nac.toNat d.dec.prevv k.toNat) k (Machine.fetched k d) :=
  decStep_of_decFetch (decFetch_of_inBits hpos hk (h.inBits_eq ▸ hin))

/-- A learned code with an entry is one from 258 on. -/
theorem DecRegs.le_of_tableFind {d : State} {c : Code} {seq : List Byte} (h : DecRegs d)
    (hc : tableFind d.dec.table c = some seq) : 258 ≤ c.toNat := by
  obtain ⟨e, he, -⟩ := Option.map_eq_some_iff.1 hc
  have hcode : e.code = c := by simpa using List.find?_some he
  exact hcode ▸ (h.code_bounds (List.mem_of_find?_eq_some he)).1

/-- A data code is of the class whose arm is `DATA` on its sequence (R104, R111 to R113). -/
theorem DataCode.runClass_eq {d : State} {c : Code} {seq : List Byte} (hc : DataCode d c seq) (h : DecRegs d) :
    runClass (classify d.dec.nac.toNat d.dec.prevv c.toNat) c d = dataTail c seq d := by
  rcases hc with hc | ⟨rfl, hv, b, bs, hprev, rfl⟩
  · by_cases hlit : c.toNat < Config.clear
    · have hrow : ClassRow d.dec.nac.toNat d.dec.prevv c.toNat .lit := Nat.le_of_lt_succ hlit
      have hbyte : literalCode (c.setWidth 8) = c := carriedCode_of_row (w := .w12) c.isLt hrow
      rw [tableSeq, if_pos hlit] at hc
      cases hc
      rw [classify_of_row h.nac_low hrow, runClass, litArm, hbyte]
    · have hfind : tableFind d.dec.table c = some seq := by rwa [tableSeq, if_neg hlit] at hc
      have hlow := h.le_of_tableFind hfind
      have hlt := h.lt_nac_of_tableSeq hc
      rw [classify_of_row h.nac_low (k := .dict) ⟨hlow, hlt⟩]
      exact dictArm_of_entry hlow hlt hc
  · rw [classify_of_row h.nac_low (k := .kwk) ⟨rfl, hv⟩]
    exact kwkArm_of_prev rfl hv hprev

theorem DataCode.ne_nil {d : State} {c : Code} {seq : List Byte} (hc : DataCode d c seq) (h : DecRegs d) :
    seq ≠ [] := by
  rcases hc with hc | ⟨-, -, b, bs, -, rfl⟩
  · exact h.ne_nil_of_tableSeq hc
  · simp

/-- `DATA` keeps the registers' invariant (R40, R105). -/
theorem DecRegs.dataTail {d t : State} {c : Code} {seq : List Byte} (h : DecRegs d) (hc : DataCode d c seq)
    (ht : dataTail c seq d = .next t) : DecRegs t := by
  have hdec : (outAppendAll seq d).dec = d.dec := by rw [outAppendAll_eq]
  have hout : DecRegs (outAppendAll seq d) := h.withStart hdec
  obtain ⟨-, -, rfl⟩ | ⟨-, -, rfl⟩ | ⟨hfull, -, ⟨hv, b, bs, rfl, rfl⟩ | ⟨hv, rfl⟩⟩ := dataTail_next ht
  · exact h.withStart rfl
  · exact h.withStart rfl
  · have hc' : DataCode (outAppendAll (b :: bs) d) c (b :: bs) := by rwa [DataCode, hdec]
    have hins := decRegs_insertTable hout b (by rwa [hdec]) (by rw [hdec]; exact fun hl => hfull ⟨hv, hl⟩)
    exact decRegs_setPrev hins (DataCode.tableSeq_inserted hout hc')
  · have hseq : tableSeq d.dec.table c = some seq :=
      hc.resolve_right fun ⟨_, hv', _⟩ => absurd (hv.symm.trans hv') (by decide)
    exact decRegs_setPrev hout (hdec ▸ hseq)

theorem dataTail_out_wf {d t : State} {c : Code} {seq : List Byte} (h : Memory.wf d.outBuf)
    (ht : dataTail c seq d = .next t) : Memory.wf t.outBuf := by
  have hwf := outAppendAll_wf seq d h
  obtain ⟨-, -, rfl⟩ | ⟨-, -, rfl⟩ | ⟨-, -, ⟨-, b, bs, rfl, rfl⟩ | ⟨-, rfl⟩⟩ := dataTail_next ht
  · exact raiseFault_wf _ _ d
  · exact raiseFault_wf _ _ d
  · exact hwf
  · exact hwf

/-- A decoder step on a data code with room (R103 to R105). -/
theorem Decoding.read_dataCode {c d : State} {k : Code} {seq : List Byte} {before : List Bool} (h : Decoding c d)
    (hk : DataCode d k seq) (hroom : DataRoom seq d) (hpos : d.brPos = before.length)
    (hfit : k.toNat < 2 ^ (decWidth d).bits) (hin : before ++ codeBits (decWidth d).bits k.toNat <+: inBits c) :
    ∃ t, decStep d = .next t ∧ DataDone k seq (Machine.fetched k d) t ∧ Decoding c t := by
  have hf := h.fetched k
  obtain ⟨t, ht, hdone⟩ := dataAppendsThenInserts k seq (Machine.fetched k d) hroom (hk.ne_nil h.regs) h.out_wf
  have ht : Machine.dataTail k seq (Machine.fetched k d) = .next t := ht
  obtain ⟨-, -, -, -, -, -, -, -, -, -, hhost, -, ⟨hstat, hphase⟩, -⟩ := id hdone
  refine ⟨t, ?_, hdone, hf.host.trans hhost, by rw [hstat]; exact hf.busy, hphase.trans hf.phase,
    hf.regs.dataTail hk ht, dataTail_out_wf hf.out_wf ht⟩
  rw [h.decStep_of_inBits hpos hfit hin, ← ht]
  exact DataCode.runClass_eq (d := Machine.fetched k d) hk hf.regs

/-! ## The decoder one code behind the encoder -/

/-- An entry of the encoder's dictionary is in the decoder's table: its code stands for the sequence of the code it extends and its byte
(R24, R30). -/
def Learned (t : List TableEntry) (e : DictEntry) : Prop :=
  ∃ q, tableSeq t e.pre = some q ∧ tableSeq t e.code = some (q ++ [e.byte])

/-- The decoder `d` has read the codes that the encoder `s` has written: its table has the entries below the mirror `E.DCNT`
(R89); the newest entry, which it lacks, is the previous code's sequence and the first byte of the match `m` that the encoder
holds; its output and `m` are the bytes taken. -/
structure Sync (c s d : State) (m : List Byte) : Prop extends Decoding c d where
  nac : d.dec.nac = s.enc.dcnt
  prevv : d.dec.prevv = s.enc.emitted
  learned : ∀ e ∈ s.enc.dict, e.code.toNat < d.dec.nac.toNat → Learned d.dec.table e
  newest : ∀ e ∈ s.enc.dict, e.code = d.dec.nac →
    tableSeq d.dec.table e.pre = some d.dec.prevseq ∧ m.head? = some e.byte
  held : s.enc.curv = true → DataCode d s.enc.cur m
  none_held : s.enc.curv = false → m = []
  output : outBytes d ++ m = s.x.take s.enc.ipos
  pos : d.brPos = (outBits s).length
  room : s.x.length ≤ c.cfg.explen

/-- The decoder has read the code of the match too, and lacks no entry: what `ENC.MISS`, `ENC.MISS_FULL` and `ENC.FINISH` write
first brings it here. -/
structure CaughtUp (c s d : State) : Prop extends Decoding c d where
  nac : d.dec.nac = s.enc.nac
  prevv : d.dec.prevv = true
  prev : tableSeq d.dec.table s.enc.cur = some d.dec.prevseq
  learned : ∀ e ∈ s.enc.dict, Learned d.dec.table e
  output : outBytes d = s.x.take s.enc.ipos
  pos : d.brPos = (outBits s ++ codeBits (encWidth s).bits s.enc.cur.toNat).length
  room : s.x.length ≤ c.cfg.explen

/-- The codes other than the one inserted stand for what they stood for. -/
theorem tableSeq_of_tableFind_eq {t t' : List TableEntry} {j n : Code}
    (h : ∀ k, k ≠ n → tableFind t' k = tableFind t k) (hj : j ≠ n) : tableSeq t' j = tableSeq t j := by
  rw [tableSeq, tableSeq, h j hj]

/-- The code an entry extends is a smaller code (R24). -/
theorem EncRegs.pre_lt_code {s : State} (h : EncRegs s) {e : DictEntry} (he : e ∈ s.enc.dict) :
    e.pre.toNat < e.code.toNat := by
  obtain ⟨hlow, -⟩ := h.code_bounds he
  obtain hp | ⟨-, hp⟩ := h.dict_prefix e he
  · omega
  · exact hp

/-- The bytes taken with the next one. -/
theorem take_succ_of_inputByte {s : State} {b : Byte} (hx : inputByte s = some b) :
    s.x.take (s.enc.ipos + 1) = s.x.take s.enc.ipos ++ [b] := by
  rw [List.take_add_one, show s.x[s.enc.ipos]? = some b from hx]
  rfl

section
variable {c s d : State} {m : List Byte} (h : Sync c s d m)
include h

/-- The match's sequence when its code is below the decoder's count. -/
theorem Sync.tableSeq_held (hc : s.enc.curv = true) (hlt : s.enc.cur.toNat < d.dec.nac.toNat) :
    tableSeq d.dec.table s.enc.cur = some m :=
  (h.held hc).resolve_right fun ⟨heq, _⟩ => by rw [heq] at hlt; exact Nat.lt_irrefl _ hlt

/-- A byte taken into the match: `ENC.FIRST` and `ENC.HIT` write nothing, so the decoder stays (R91, R92). -/
theorem Sync.withMatch {b : Byte} {v : Bool} {k : Code} (hx : inputByte s = some b) (hv : v = true)
    (hk : DataCode d k (m ++ [b])) :
    Sync c { s with enc := { s.enc with curv := v, cur := k, ipos := s.enc.ipos + 1 } } d (m ++ [b]) where
  toDecoding := h.toDecoding
  nac := h.nac
  prevv := h.prevv
  learned := h.learned
  newest e he hcode := by
    obtain ⟨hprev, hhead⟩ := h.newest e he hcode
    exact ⟨hprev, by rw [List.head?_append, hhead, Option.some_or]⟩
  held _ := hk
  none_held hv' := absurd (hv.symm.trans hv') (by decide)
  output := by
    rw [← List.append_assoc, h.output]
    exact (take_succ_of_inputByte hx).symm
  pos := h.pos
  room := h.room

section
variable (hl : ByteLoop s)
include hl

/-- A match has room in the decoder's table and output (R106, R107). -/
theorem Sync.dataRoom : DataRoom m d := by
  obtain ⟨-, hcfg, -⟩ := h.host
  have hlen := congrArg List.length h.output
  rw [List.length_append, outBytes_length, List.length_take] at hlen
  have hroom := h.room
  refine ⟨h.regs.nac_low, h.regs.nac_high, fun ⟨hv, hn⟩ => ?_, by rw [hcfg]; omega⟩
  rw [h.prevv] at hv
  rw [h.nac] at hn
  have := hl.running.emitted hv
  have := hl.regs.nac_high
  omega

/-- An entry's code is at most the decoder's count, and is only once a code has been read in the session. -/
theorem Sync.entry_bounds {e : DictEntry} (he : e ∈ s.enc.dict) :
    e.code.toNat ≤ d.dec.nac.toNat ∧ d.dec.prevv = true := by
  obtain ⟨hlow, hlt⟩ := hl.regs.code_bounds he
  rw [h.nac, h.prevv]
  cases hem : s.enc.emitted with
  | true =>
    have := hl.running.emitted hem
    exact ⟨by omega, rfl⟩
  | false =>
    have := hl.running.not_emitted hem
    omega

/-- The code of a hit stands for the match and the byte, or is the one the decoder will insert next (R92, R113). -/
theorem Sync.dataCode_hit {b : Byte} {k : Code} (hc : s.enc.curv = true)
    (hk : dictFind s.enc.dict s.enc.cur b = some k) : DataCode d k (m ++ [b]) := by
  have he := mem_of_dictFind hk
  have hpre : s.enc.cur.toNat < k.toNat := hl.regs.pre_lt_code he
  obtain ⟨hle, hv⟩ := h.entry_bounds hl he
  have hle : k.toNat ≤ d.dec.nac.toNat := hle
  have hcur := h.tableSeq_held hc (by omega)
  rcases Nat.lt_or_eq_of_le hle with hlt | heq
  · obtain ⟨q, hq, hkq⟩ := h.learned _ he hlt
    cases hcur.symm.trans hq
    exact .inl hkq
  · obtain rfl := BitVec.eq_of_toNat_eq heq
    obtain ⟨hprev, hhead⟩ := h.newest _ he rfl
    cases hcur.symm.trans hprev
    obtain ⟨bs, hbs⟩ := List.head?_eq_some_iff.1 hhead
    exact .inr ⟨rfl, hv, b, bs, hbs, by rw [hbs]⟩

/-- The entry inserted after a match's first byte is known is the encoder's newest (R114). -/
theorem Sync.learned_inserted {t : List TableEntry} {e : DictEntry} (he : e ∈ s.enc.dict)
    (hentry : tableFind t d.dec.nac = some (d.dec.prevseq ++ m.take 1))
    (hother : ∀ k, k ≠ d.dec.nac → tableFind t k = tableFind d.dec.table k) : Learned t e := by
  have hpre := hl.regs.pre_lt_code he
  obtain ⟨hle, -⟩ := h.entry_bounds hl he
  have kept : ∀ j : Code, j.toNat < d.dec.nac.toNat → tableSeq t j = tableSeq d.dec.table j := fun j hj =>
    tableSeq_of_tableFind_eq hother fun heq => by rw [heq] at hj; exact Nat.lt_irrefl _ hj
  rcases Nat.lt_or_eq_of_le hle with hlt | heq
  · obtain ⟨q, hq, hcode⟩ := h.learned e he hlt
    exact ⟨q, (kept _ (by omega)).trans hq, (kept _ hlt).trans hcode⟩
  · have hcode := BitVec.eq_of_toNat_eq heq
    obtain ⟨hprev, hhead⟩ := h.newest e he hcode
    obtain ⟨bs, rfl⟩ := List.head?_eq_some_iff.1 hhead
    refine ⟨d.dec.prevseq, (kept _ (by omega)).trans hprev, ?_⟩
    rw [hcode, tableSeq_of_learned h.regs.nac_low]
    exact hentry

/-- A data code read brings the decoder's count to the encoder's (R89, R114). -/
theorem Sync.nac_caughtUp {n : Code} (hkept : d.dec.prevv = false → n = d.dec.nac)
    (hins : d.dec.prevv = true → n.toNat = d.dec.nac.toNat + 1) : n = s.enc.nac := by
  apply BitVec.eq_of_toNat_eq
  rw [h.prevv, h.nac] at hkept hins
  cases hem : s.enc.emitted with
  | true => rw [hins hem, hl.running.emitted hem]
  | false =>
    obtain ⟨hdcnt, hnac⟩ := hl.running.not_emitted hem
    rw [hkept hem, hdcnt, hnac]

/-- The decoder reads the code of the match (R111 to R114). -/
theorem Sync.read_held (hc : s.enc.curv = true)
    (hin : outBits s ++ codeBits (encWidth s).bits s.enc.cur.toNat <+: inBits c) :
    ∃ t, decStep d = .next t ∧ CaughtUp c s t := by
  have hwidth : decWidth d = encWidth s := by rw [decWidth, encWidth, h.nac]
  have hfit := codeFits_seqCode hl.regs hl.running (hl.running.cur_code hc)
  rw [codeFits, decide_eq_true_iff, ← hwidth] at hfit
  rw [← hwidth] at hin
  obtain ⟨t, ht, ⟨hbytes, -, -, hprev, hseq, hv, -, hpos, hkept, hins, -⟩, hdec⟩ :=
    h.read_dataCode (h.held hc) (h.dataRoom hl) h.pos hfit hin
  refine ⟨t, ht, hdec, ?nac, hv, ?prev, fun e he => ?learned, ?output, ?pos, h.room⟩
  case nac => exact h.nac_caughtUp hl (fun hv => (hkept hv).2.1) fun hv => (hins hv).2.2.1
  case prev => rw [← hprev]; exact hdec.regs.prev_seq hv
  case learned =>
    obtain ⟨hle, hvd⟩ := h.entry_bounds hl he
    obtain ⟨hentry, hother, -⟩ := hins hvd
    exact h.learned_inserted hl he hentry hother
  case output => rw [hbytes, ← h.output]; rfl
  case pos => rw [hpos, List.length_append, ← h.pos, codeBits_length, ← hwidth]; rfl

end

end

end Sys2Proof.Machine
end

section
/-! PROOFS. An encoder step against the decoder steps on the codes it writes, and the code loop on the whole stream (R116). -/

namespace Sys2Proof.Machine

/-! ## The control codes -/

section
variable {c d : State} {before : List Bool} (h : Decoding c d) (hpos : d.brPos = before.length)
include h hpos

/-- A decoder step on the code that comes next runs the arm of the class whose row holds (R64, R104). -/
theorem Decoding.decStep_of_row {k : Code} {cl : CodeClass} (hrow : ClassRow d.dec.nac.toNat d.dec.prevv k.toNat cl)
    (hfit : k.toNat < 2 ^ (decWidth d).bits) (hin : before ++ codeBits (decWidth d).bits k.toNat <+: inBits c) :
    decStep d = runClass cl k (Machine.fetched k d) := by
  rw [h.decStep_of_inBits hpos hfit hin, classify_of_row h.regs.nac_low hrow]

/-- `CLR` resets the decoder (R108). -/
theorem Decoding.read_clear (hin : before ++ codeBits (decWidth d).bits 256 <+: inBits c) :
    decStep d = .next (decReset (Machine.fetched 256 d)) :=
  h.decStep_of_row hpos (k := 256) (cl := .clr) rfl (carriedCode_lt (decWidth d) 0 .clr) hin

/-- A step past a code that is in the stream leaves fetches enough. -/
theorem Decoding.answers_of_step {t : State} {w : Width} {v : Nat} {o : Host.Outcome State Fault Refusal}
    (ht : Decoding c t) (hs : decStep d = .next t) (hpos' : t.brPos = (before ++ codeBits w.bits v).length)
    (hin : before ++ codeBits w.bits v <+: inBits c) (ho : DecLoopAnswers t o) : DecLoopAnswers d o := by
  have hle := hin.length_le
  have hw := (Width_bits_bounds w).1
  rw [← h.inBits_eq, inBits_length] at hle
  rw [List.length_append, codeBits_length] at hle hpos'
  obtain ⟨-, -, hlen, -⟩ := h.host
  obtain ⟨-, -, hlen', -⟩ := ht.host
  have hsame : t.inLen = d.inLen := hlen'.trans hlen.symm
  exact .of_step hs ht.decRunning hsame (by omega) (by omega) ho

/-- `EOI` ends the pass (R109, R115). -/
theorem Decoding.answers_eoi (hin : before ++ codeBits (decWidth d).bits 257 <+: inBits c) :
    DecLoopAnswers d (eoiArm (Machine.fetched 257 d)) := by
  have hs := h.decStep_of_row hpos (k := 257) (cl := .eoi) rfl (carriedCode_lt (decWidth d) 0 .eoi) hin
  obtain ⟨t, ht, hend⟩ : ∃ t, eoiArm (Machine.fetched 257 d) = .next t ∧ Machine.decRunning t = false := by
    unfold eoiArm
    split
    · exact ⟨_, rfl, by simp [Machine.decRunning]⟩
    · exact ⟨_, rfl, by simp [Machine.decRunning, setRunState]⟩
  rw [ht]
  exact .of_last (hs.trans ht) hend

end

/-! ## After the match's code -/

section
variable {c s d t : State} {b : Byte} (h : CaughtUp c s d) (hx : inputByte s = some b)
  (hw : EncoderWrites s t) (hc : s.enc.curv = true)
include h hx hw hc

/-- `ENC.MISS` learns the candidate, which the decoder lacks as yet (R93). -/
theorem CaughtUp.sync_miss (hl : ByteLoop s)
    (he : t.enc = { s.enc with
      dict := s.enc.dict ++ [{ pre := s.enc.cur, byte := b, code := s.enc.nac }], nac := s.enc.nac + 1,
      dcnt := s.enc.nac, emitted := true, width := Wd s.enc.nac.toNat, cur := literalCode b,
      ipos := s.enc.ipos + 1 })
    (hbits : outBits t = outBits s ++ codeBits (encWidth s).bits s.enc.cur.toNat) : Sync c t d [b] where
  toDecoding := h.toDecoding
  nac := by rw [he]; exact h.nac
  prevv := by rw [he]; exact h.prevv
  learned e hmem hlt := by
    rw [he] at hmem
    rcases List.mem_append.1 hmem with hmem | hmem
    · exact h.learned e hmem
    · rw [List.mem_singleton.1 hmem, h.nac] at hlt
      exact absurd hlt (Nat.lt_irrefl _)
  newest e hmem hcode := by
    rw [he] at hmem
    rcases List.mem_append.1 hmem with hmem | hmem
    · have hlt := (hl.regs.code_bounds hmem).2
      rw [hcode, h.nac] at hlt
      exact absurd hlt (Nat.lt_irrefl _)
    · rw [List.mem_singleton.1 hmem]
      exact ⟨h.prev, rfl⟩
  held _ := by rw [he]; exact .inl (tableSeq_literalCode _ b)
  none_held hv := by rw [he] at hv; exact absurd (hc.symm.trans hv) (by decide)
  output := by
    rw [he, hw.frame, h.output]
    exact (take_succ_of_inputByte hx).symm
  pos := by rw [hbits]; exact h.pos
  room := by rw [hw.frame]; exact h.room

/-- `ENC.MISS_FULL` writes a `CLR` too, and both begin a session (R94, R108). -/
theorem CaughtUp.sync_missFull
    (he : t.enc = { s.enc with
      dict := [], nac := 258, dcnt := 258, emitted := false, width := .w9, cur := literalCode b,
      ipos := s.enc.ipos + 1 })
    (hbits : outBits t =
      outBits s ++ codeBits (encWidth s).bits s.enc.cur.toNat ++ codeBits (decWidth d).bits 256) :
    Sync c t (decReset (Machine.fetched 256 d)) [b] where
  toDecoding :=
    { h.toDecoding.fetched 256 with
      host := (h.toDecoding.fetched 256).host.trans ⟨rfl, rfl, rfl, rfl, rfl⟩
      regs := .of_session_start rfl rfl rfl rfl }
  nac := by rw [he]; rfl
  prevv := by rw [he]; rfl
  learned e hmem := by rw [he] at hmem; cases hmem
  newest e hmem := by rw [he] at hmem; cases hmem
  held _ := by rw [he]; exact .inl (tableSeq_literalCode _ b)
  none_held hv := by rw [he] at hv; exact absurd (hc.symm.trans hv) (by decide)
  output := by
    rw [he, hw.frame]
    exact (congrArg (· ++ [b]) h.output).trans (take_succ_of_inputByte hx).symm
  pos := by
    rw [hbits, List.length_append, ← h.pos, codeBits_length]
    rfl
  room := by rw [hw.frame]; exact h.room

end

/-! ## One encoder step -/

/-- A byte step of the encoder against the decoder: none of its steps, one on the match's code, or two with the `CLR`; what the
code loop answers after them it answers before them. -/
theorem Sync.byteStep {c s d t : State} {m : List Byte} (h : Sync c s d m) (hl : ByteLoop s)
    (hwf : Memory.wf s.outBuf) (hi : s.enc.ipos < s.inLen) (ht : runEnc (encSelect s) s = .next t)
    (hin : outBits t <+: inBits c) :
    ∃ d' m', Sync c t d' m' ∧ ∀ o, DecLoopAnswers d' o → DecLoopAnswers d o := by
  generalize encSelect s = op at ht
  cases op with
  | first =>
    obtain ⟨-, hc, b, hx, rfl⟩ := execEncFirst_next ht
    exact ⟨d, m ++ [b], h.withMatch hx rfl (by rw [h.none_held hc]; exact .inl (tableSeq_literalCode _ b)),
      fun _ => id⟩
  | hit =>
    obtain ⟨-, hc, b, k, hx, hk, rfl⟩ := execEncHit_next ht
    exact ⟨d, m ++ [b], h.withMatch hx hc (h.dataCode_hit hl hc hk), fun _ => id⟩
  | miss =>
    obtain ⟨-, hc, hn, -, b, hx, hk, -⟩ := execEncMiss_next ht
    have hbits := outBits_of_execEncMiss ht hwf
    obtain ⟨t', ht', hw, he⟩ := execEncMiss_of_miss hi hx hl.regs hl.running hc hk hn
    cases ht'.symm.trans ht
    rw [hbits] at hin
    obtain ⟨d', hd', hcaught⟩ := h.read_held hl hc hin
    exact ⟨d', [b], hcaught.sync_miss hx hw hc hl he hbits, fun _ =>
      h.answers_of_step h.pos hcaught.toDecoding hd' hcaught.pos hin⟩
  | missFull =>
    obtain ⟨-, hc, hn, -, b, hx, hk, -⟩ := execEncMissFull_next ht
    have hbits := outBits_of_execEncMissFull ht hl.regs hl.running hwf
    obtain ⟨t', ht', hw, he⟩ := execEncMissFull_of_full hi hx hl.regs hl.running hc hk hn
    cases ht'.symm.trans ht
    rw [hbits] at hin
    have hin' := (List.prefix_append _ _).trans hin
    obtain ⟨d', hd', hcaught⟩ := h.read_held hl hc hin'
    have hwidth : decWidth d' = .w12 := by rw [decWidth, hcaught.nac, hn]; rfl
    have hsync := hcaught.sync_missFull hx hw hc he (by rw [hbits, hwidth]; rfl)
    have hclr := hcaught.read_clear hcaught.pos (by rw [hwidth]; exact hin)
    refine ⟨_, [b], hsync, fun o ho => ?_⟩
    refine h.answers_of_step h.pos hcaught.toDecoding hd' hcaught.pos hin' ?_
    exact hcaught.answers_of_step hcaught.pos (w := .w12) hsync.toDecoding hclr (by rw [hsync.pos, hbits]; rfl) hin ho
  | finish =>
    obtain ⟨hend, -⟩ := execEncFinish_next ht
    exact absurd hend (Nat.ne_of_lt hi)

/-- `ENC.FINISH` against the decoder: what is held, then `EOI` (R96, R109). -/
theorem Sync.finish {c s d : State} {m : List Byte} (h : Sync c s d m) (hl : ByteLoop s) (hwf : Memory.wf s.outBuf)
    (hi : s.enc.ipos = s.inLen) (hin : outBits (finishStream s) <+: inBits c) :
    ∃ e, Decoding c e ∧ outBytes e = s.x ∧ DecLoopAnswers d (eoiArm e) := by
  obtain ⟨n, -, hbits⟩ := outBits_finishStream hl.regs hl.running hwf
  rw [hbits] at hin
  have hin := (List.prefix_append _ _).trans hin
  have hall : s.x.take s.enc.ipos = s.x := List.take_of_length_le (by rw [hl.delivered, hi])
  cases hc : s.enc.curv with
  | true =>
    rw [hc, if_pos rfl] at hin
    have hin' := (List.prefix_append _ _).trans hin
    obtain ⟨d', hd', hcaught⟩ := h.read_held hl hc hin'
    have hwidth : decWidth d' = Wd s.enc.nac.toNat := by rw [decWidth, hcaught.nac]
    refine ⟨fetched 257 d', hcaught.toDecoding.fetched 257, hcaught.output.trans hall, ?_⟩
    exact h.answers_of_step h.pos hcaught.toDecoding hd' hcaught.pos hin'
      (hcaught.answers_eoi hcaught.pos (by rw [hwidth]; exact hin))
  | false =>
    rw [hc, if_neg (by decide), List.append_nil] at hin
    obtain ⟨-, hem⟩ := hl.running.fresh hc
    obtain ⟨hdcnt, hnac⟩ := hl.running.not_emitted hem
    have hwidth : decWidth d = Wd s.enc.nac.toNat := by rw [decWidth, h.nac, hdcnt, hnac]
    have hout := h.output
    rw [h.none_held hc, List.append_nil, hall] at hout
    exact ⟨fetched 257 d, h.toDecoding.fetched 257, hout, h.answers_eoi h.pos (by rw [hwidth]; exact hin)⟩

/-- The byte loop against the code loop: the decoder that reads the encoder's whole stream comes to `EOI` with the encoder's
input as its output (R116). -/
theorem Sync.encLoop {c s d t : State} {m : List Byte} {k : Nat} (h : Sync c s d m) (hl : ByteLoop s)
    (hwf : Memory.wf s.outBuf) (hk : s.enc.ipos + k = s.inLen) (ht : encLoop k s = .next t)
    (hin : outBits t <+: inBits c) : ∃ e, Decoding c e ∧ outBytes e = s.x ∧ DecLoopAnswers d (eoiArm e) := by
  induction k generalizing s d m with
  | zero =>
    rw [Machine.encLoop, hl.execEncFinish_of_end hk] at ht
    cases ht
    rw [outBits_setRunState] at hin
    exact h.finish hl hwf hk hin
  | succ k ih =>
    have hi : s.enc.ipos < s.inLen := by omega
    obtain ⟨u, hu, hlu, hw, hpos⟩ := hl.step_byte hi
    rw [step_lzw_encode hl.busy hl.phase hl.mode] at hu
    rw [Machine.encLoop, hu] at ht
    have hwfu := WritesStream.wf hw hwf
    obtain ⟨d', m', hsync, hback⟩ := h.byteStep hl hwf hi hu ((encLoop_outBits_prefix ht hwfu).trans hin)
    have hlen : u.inLen = s.inLen := by rw [hw.frame]
    have hx : u.x = s.x := by rw [hw.frame]
    obtain ⟨e, he, hout, hans⟩ := ih hsync hlu hwfu (by omega) ht
    exact ⟨e, he, hout.trans hx, hback _ hans⟩

end Sys2Proof.Machine
end

section
/-! PROOFS. A DECODE of what an ENCODE wrote gives the encoder's input back (R116, R136). -/

namespace Sys2Proof.Machine

/-! ## The ENCODE -/

/-- The predictor's bytes are those of the host's registers and buffer. -/
theorem predBytes_of_sameHost {s t : State} (h : SameHost s t) : predBytes t = predBytes s := by
  obtain ⟨-, hcfg, hlen, hbuf, -⟩ := h
  simp only [predBytes, inBytes, hcfg, hlen, hbuf]

/-- Where the byte loop of an encode begins (R128, R155). -/
def encEntry (s : State) : State :=
  startedEncode s (predBytes s) .lzw

theorem byteLoop_encEntry {s : State} (hm : s.cfg.mode = .encode) : ByteLoop (encEntry s) := by
  have h := (encStarted_encBegin hm).deliver (predBytes_length s)
  rw [encBegin_clearStatus] at h
  exact h

/-- No bit is written before the byte loop. -/
theorem outBits_encEntry (s : State) : outBits (encEntry s) = [] := rfl

/-- ENCODE of a started encode is the byte loop on the predictor's bytes, whatever `x` START prepared (R128). -/
theorem execEncode_startedEncode {s : State} (x : List Byte) (p : Phase) (hm : s.cfg.mode = .encode)
    (hl : LegalConfig s) : execEncode (startedEncode s x p) = encLoop s.inLen (encEntry s) := by
  have hh : SameHost s (startedEncode s x p) := ⟨rfl, rfl, rfl, rfl, rfl⟩
  have hf := (hl.of_sameHost hh).forwardPass hm
  rw [predBytes_of_sameHost hh] at hf
  exact execEncode_of_forwardPass (s := startedEncode s x p) rfl hm hf

/-- ENCODE right after START (R127, R128). -/
theorem execEncode_after_start {s a : State} (hb : s.stat.state ≠ .busy) (hm : s.cfg.mode = .encode)
    (hl : LegalConfig s) (ha : execStart s = .next a) : execEncode a = encLoop s.inLen (encEntry s) := by
  cases hp : s.cfg.pred with
  | none =>
    cases ha.symm.trans (execStart_encode_none hb hl hm hp)
    exact execEncode_startedEncode _ _ hm hl
  | horizontal =>
    cases ha.symm.trans (execStart_encode_horizontal hb hl hm hp)
    exact execEncode_startedEncode _ _ hm hl

/-- The output of an ENCODE as bits: the whole of its stream, no bit pending (R81). -/
theorem outBits_of_flushed {s : State} (h : s.bw = { acc := 0, cnt := 0 }) :
    outBits s = streamBits (memRead s.outBuf) 0 (8 * s.outLen) := by
  rw [outBits, h]
  exact List.append_nil _

theorem ByteLoop.encLoop_bw {s t : State} {k : Nat} (h : ByteLoop s) (hk : s.enc.ipos + k = s.inLen)
    (ht : encLoop k s = .next t) : t.bw = { acc := 0, cnt := 0 } := by
  obtain ⟨u, hu, hlu, -⟩ := h.encLoop_eq_finish hk
  cases ht.symm.trans hu
  rw [setRunState_eq]
  exact finishStream_bw hlu.regs

/-! ## The DECODE -/

/-- Where the code loop of a decode begins, register by register (R130, R155). -/
def decEntry (c : State) : State :=
  { c with
    dec :=
      { nac := 258, width := .w9, table := [], prevv := false, prev := Config.freeCode c.free,
        prevseq := Config.freeBytes c.free, start := c.dec.start }
    brPos := 0, phase := .lzw, free := c.free + 1 }

theorem decBegin_setPhase (c : State) : (decBegin c).setPhase .lzw = decEntry c := rfl

theorem decoding_entry {c : State} (hb : c.stat.state = .busy) (hwf : Memory.wf c.outBuf) :
    Decoding c (decEntry c) :=
  ⟨⟨rfl, rfl, rfl, rfl, rfl⟩, hb, rfl, .of_session_start rfl rfl rfl rfl, hwf⟩

/-- At the entry of both passes nothing is written, read or learned. -/
theorem sync_entry {s c : State} (hb : c.stat.state = .busy) (hwf : Memory.wf c.outBuf) (ho : c.outLen = 0)
    (hcap : s.inLen ≤ c.cfg.explen) : Sync c (encEntry s) (decEntry c) [] where
  toDecoding := decoding_entry hb hwf
  nac := rfl
  prevv := rfl
  learned _ he := by cases he
  newest _ he := by cases he
  held := nofun
  none_held _ := rfl
  output := by
    show outBytes c ++ [] = []
    rw [outBytes, ho]
    rfl
  pos := by rw [outBits_encEntry]; rfl
  room := (predBytes_length s).trans_le hcap

/-- The inverse pass gives back the bytes that the forward pass differenced (R124). -/
theorem outBytes_invAll {s u : State} (hl : LegalConfig s) (hm : s.cfg.mode = .encode)
    (hp : s.cfg.pred = .horizontal) (hroww : u.cfg.roww = s.cfg.roww) (hwf : Memory.wf u.outBuf)
    (hbytes : outBytes u = predBytes s) : outBytes (invAll u) = inBytes s := by
  obtain ⟨-, -, hpred⟩ := hl
  obtain ⟨hw, hrows, -⟩ := hpred hp
  have hw := Nat.pos_of_ne_zero hw
  have hlen := congrArg List.length hbytes
  rw [outBytes_length, predBytes_length] at hlen
  rw [predBytes_of_horizontal hp] at hbytes
  exact inverseUndoesForward s _ u _ hw (hrows hm) (exec_hdFwd_eq_diffAt hw (hrows hm)) hroww hlen hwf hbytes
    (if_pos (hroww ▸ hw))

/-- With no inverse pass to come the predictor's bytes are the input (R123): the predictor is off, or there is no byte. -/
theorem predBytes_of_no_inverse {s : State} (h : ¬ (s.cfg.pred = .horizontal ∧ 0 < s.inLen)) :
    predBytes s = inBytes s := by
  cases hp : s.cfg.pred with
  | none => exact predBytes_of_none hp
  | horizontal =>
    have hlen : s.inLen = 0 := Nat.eq_zero_of_not_pos fun hpos => h ⟨hp, hpos⟩
    have hnil : predBytes s = [] := List.eq_nil_of_length_eq_zero ((predBytes_length s).trans hlen)
    rw [hnil, inBytes, hlen]
    rfl

/-- `EOI` with the predictor's bytes as the output, then the completion of R131: DONE with the encoder's input. -/
theorem exists_decodeFinish {s e : State} (hl : LegalConfig s) (hm : s.cfg.mode = .encode)
    (hpred : e.cfg.pred = s.cfg.pred) (hroww : e.cfg.roww = s.cfg.roww) (hp : e.phase = .lzw)
    (hwf : Memory.wf e.outBuf) (hbytes : outBytes e = predBytes s) :
    ∃ f g, eoiArm e = .next f ∧ decodeFinish f = .next g ∧ g.stat.state = .done ∧ outBytes g = inBytes s := by
  have hlen := congrArg List.length hbytes
  rw [outBytes_length, predBytes_length] at hlen
  by_cases hinv : e.cfg.pred = .horizontal ∧ 0 < e.outLen
  · have ⟨hh, _⟩ := hinv
    have hw : 0 < e.cfg.roww := by
      obtain ⟨-, -, hgeom⟩ := hl
      exact hroww ▸ Nat.pos_of_ne_zero (hgeom (hpred ▸ hh)).1
    refine ⟨_, _, if_pos hinv, if_pos hw, rfl, ?_⟩
    exact outBytes_invAll (u := e.setPhase (.inv 0)) hl hm (hpred ▸ hh) hroww hwf hbytes
  · refine ⟨setRunState .done e, setRunState .done e, if_neg hinv, ?_, rfl, hbytes.trans ?_⟩
    · rw [decodeFinish, show (setRunState .done e).phase = .lzw from hp]
    · rw [hpred, hlen] at hinv
      exact predBytes_of_no_inverse hinv

/-- A legal ENCODE's settings, turned to decode its output, are legal (R127). -/
theorem LegalConfig.to_decode {s c : State} (hl : LegalConfig s) (hsm : s.cfg.mode = .encode)
    (hcm : c.cfg.mode = .decode) (hpred : c.cfg.pred = s.cfg.pred) (hroww : c.cfg.roww = s.cfg.roww)
    (hexp : c.cfg.explen = s.inLen) (hmax : c.maxInLen = s.maxInLen) (hlen : c.inLen ≤ s.maxInLen) :
    LegalConfig c := by
  obtain ⟨hin, -, hgeom⟩ := hl
  rw [LegalConfig, hmax, hexp, hpred, hroww]
  refine ⟨hlen, fun _ => hin, fun hp => ?_⟩
  obtain ⟨hw, hrows, -⟩ := hgeom hp
  exact ⟨hw, fun hm => absurd (hm.symm.trans hcm) (by decide), fun _ => hrows hsm⟩

/-- DECODE once the code loop and the completion are known (R130, R131). -/
theorem execDecode_of_decLoop {d f g : State} (hb : d.stat.state = .busy) (hm : d.cfg.mode = .decode)
    (hf : decLoop (maxFetches d) (decEntry d) = .next f) (hg : decodeFinish f = .next g) :
    execDecode d = .next g := by
  rw [execDecode, if_pos ⟨hm, hb⟩, decBegin_setPhase, hf]
  exact hg

/-- A started decode whose input is the stream of the encode of `s` ends in DONE with the input of `s` (R116). -/
theorem execDecode_of_encLoop {s b d : State} (hsm : s.cfg.mode = .encode) (hsl : LegalConfig s)
    (hswf : Memory.wf s.outBuf) (hb : encLoop s.inLen (encEntry s) = .next b) (hdb : d.stat.state = .busy)
    (hdm : d.cfg.mode = .decode) (hpred : d.cfg.pred = s.cfg.pred) (hroww : d.cfg.roww = s.cfg.roww)
    (hexp : s.inLen ≤ d.cfg.explen) (hdwf : Memory.wf d.outBuf) (ho : d.outLen = 0) (hin : inBits d = outBits b) :
    ∃ g, execDecode d = .next g ∧ g.stat.state = .done ∧ outBytes g = inBytes s := by
  obtain ⟨e, he, hout, hans⟩ := (sync_entry (s := s) hdb hdwf ho hexp).encLoop (byteLoop_encEntry hsm) hswf
    (Nat.zero_add _) hb (by rw [hin])
  obtain ⟨-, hcfg, -⟩ := he.host
  obtain ⟨f, g, hf, hg, hdone, hbytes⟩ :=
    exists_decodeFinish hsl hsm (hcfg ▸ hpred) (hcfg ▸ hroww) he.phase he.out_wf hout
  have henough : 8 * d.inLen < 0 + 9 * maxFetches d := by unfold maxFetches; omega
  have hloop := hans (maxFetches d) henough (Nat.zero_le _)
  exact ⟨g, execDecode_of_decLoop hdb hdm (hloop.trans hf) hg, hdone, hbytes⟩

/-- Settles O57: the decode's input is the whole stream of the encode, no bit pending. -/
theorem decodeUndoesEncode : Obligations.DecodeUndoesEncode := by
  intro s a b c hsb hsm hsl hswf ha hb hcb hcm hpred hroww hexp hmax hcwf hclen hfits hin
  have hloop : encLoop s.inLen (encEntry s) = .next b := (execEncode_after_start hsb hsm hsl ha).symm.trans hb
  have hbw := (byteLoop_encEntry hsm).encLoop_bw (Nat.zero_add _) hloop
  have hbits : inBits c = outBits b := by
    rw [outBits_of_flushed hbw, inBits, hclen]
    exact streamBits_congr hin
  have hcl := hsl.to_decode hsm hcm hpred hroww hexp hmax (hclen ▸ hfits)
  obtain ⟨d, hd, hdb, ho, hcfg, hdin, hdout⟩ : ∃ d, execStart c = .next d ∧ d.stat.state = .busy ∧ d.outLen = 0 ∧
      d.cfg = c.cfg ∧ inBits d = inBits c ∧ d.outBuf = c.outBuf :=
    ⟨_, execStart_decode hcb hcl hcm, rfl, rfl, rfl, rfl, rfl⟩
  rw [← hcfg] at hcm hpred hroww hexp
  rw [← hdout] at hcwf
  obtain ⟨g, hg, hdone, hbytes⟩ :=
    execDecode_of_encLoop hsm hsl hswf hloop hdb hcm hpred hroww hexp.ge hcwf ho (hdin.trans hbits)
  exact ⟨d, g, hd, hg, hdone, by rw [hostResult_of_done hdone, hbytes]⟩

end Sys2Proof.Machine
end

section
/-! PROOFS. Two blocks that show the host the same (R134): what they share, and that the encoder's and the decoder's steps keep
it. -/

namespace Sys2Proof.Machine

/-! ## What the host sees -/

/-- Two blocks that show the host the same: the configuration, the input, the status and the output; their other registers, their
bytes past the two lengths and their free values may differ. No host action is to come. -/
structure Shown (s s' : State) : Prop where
  cfg : s'.cfg = s.cfg
  input : inBytes s' = inBytes s
  host : s.host = [] ∧ s'.host = []
  stat : s'.stat = s.stat
  output : outBytes s' = outBytes s
  out_wf : Memory.wf s.outBuf ∧ Memory.wf s'.outBuf

theorem inBytes_length (s : State) : (inBytes s).length = s.inLen := by
  simp [inBytes]

section
variable {s s' : State} (h : Shown s s')
include h

theorem Shown.inLen : s'.inLen = s.inLen := by
  rw [← inBytes_length s', h.input, inBytes_length]

theorem Shown.outLen : s'.outLen = s.outLen := by
  rw [← outBytes_length s', h.output, outBytes_length]

/-- The bytes of `IN` are the same up to `IN_LEN`. -/
theorem Shown.memRead_in {i : Nat} (hi : i < s.inLen) : memRead s'.inBuf i = memRead s.inBuf i := by
  have hi' : i < s'.inLen := h.inLen.symm ▸ hi
  rw [← inBytes_getD hi, ← inBytes_getD hi', h.input]

/-- The bytes of `OUT` are the same up to `OUT_LEN`. -/
theorem Shown.memRead_out {a : Nat} (ha : a < s.outLen) : memRead s'.outBuf a = memRead s.outBuf a := by
  have ha' : a < s'.outLen := h.outLen.symm ▸ ha
  have heq := congrArg (·[a]?) h.output
  simpa only [outBytes_getElem? ha, outBytes_getElem? ha', Option.some.injEq] using heq

/-- The host's read is the same (R132). -/
theorem Shown.hostResult : hostResult s' = hostResult s := by
  rw [Machine.hostResult, Machine.hostResult, h.stat, h.output]

theorem Shown.setRunState (r : RunState) : Shown (setRunState r s) (setRunState r s') where
  cfg := h.cfg
  input := h.input
  host := h.host
  stat := by rw [setRunState_eq, setRunState_eq, h.stat]
  output := h.output
  out_wf := h.out_wf

/-- Which part of an invocation comes next is not shown. -/
theorem Shown.setPhase (p p' : Phase) : Shown (s.setPhase p) (s'.setPhase p') :=
  ⟨h.cfg, h.input, h.host, h.stat, h.output, h.out_wf⟩

/-- A fault shows its kind and position, and no output (R139). -/
theorem Shown.raiseFault (k : ErrKind) {p p' : Nat} (hp : p' = p) : Shown (raiseFault k p s) (raiseFault k p' s') where
  cfg := h.cfg
  input := h.input
  host := h.host
  stat := by rw [hp]; rfl
  output := rfl
  out_wf := ⟨raiseFault_wf k p s, raiseFault_wf k p' s'⟩

/-- The same sequence appended (R105). -/
theorem Shown.outAppendAll (seq : List Byte) : Shown (outAppendAll seq s) (outAppendAll seq s') := by
  obtain ⟨hwf, hwf'⟩ := h.out_wf
  have hout := outBytes_outAppendAll seq s hwf
  have hout' := outBytes_outAppendAll seq s' hwf'
  refine ⟨?_, ?_, ?_, ?_, ?_, outAppendAll_wf seq s hwf, outAppendAll_wf seq s' hwf'⟩
  case refine_5 => rw [hout, hout', h.output]
  all_goals rw [outAppendAll_eq, outAppendAll_eq]
  · exact h.cfg
  · exact h.input
  · exact h.host
  · exact h.stat

end

/-! ## The encoder -/

/-- Two packers with the same stream. -/
structure SameStream (s s' : State) : Prop where
  bw : s'.bw = s.bw
  output : outBytes s' = outBytes s
  out_wf : Memory.wf s.outBuf ∧ Memory.wf s'.outBuf

/-- A byte that leaves the packer. -/
theorem SameStream.outAppend {s s' : State} (h : SameStream s s') (b : Byte) (w : Bw) :
    SameStream ((outAppend b s).setBw w) ((outAppend b s').setBw w) := by
  obtain ⟨hwf, hwf'⟩ := h.out_wf
  have hout : outBytes (Machine.outAppend b s) = outBytes s ++ [b] := outBytes_outAppendAll [b] s hwf
  have hout' : outBytes (Machine.outAppend b s') = outBytes s' ++ [b] := outBytes_outAppendAll [b] s' hwf'
  exact ⟨rfl, hout'.trans (h.output ▸ hout.symm), memWrite_wf _ _ hwf, memWrite_wf _ _ hwf'⟩

theorem SameStream.writeBit {s s' : State} (h : SameStream s s') (b : Bool) :
    SameStream (writeBit s b) (writeBit s' b) := by
  unfold Machine.writeBit
  rw [h.bw]
  split
  · exact h.outAppend _ _
  · exact ⟨rfl, h.output, h.out_wf⟩

theorem SameStream.writeCodeBits {s s' : State} (h : SameStream s s') (v : Code) (w : Width) :
    SameStream (writeCodeBits v w s) (writeCodeBits v w s') := by
  unfold Machine.writeCodeBits
  generalize codeBits w.bits v.toNat = bs
  induction bs generalizing s s' with
  | nil => exact h
  | cons b bs ih => exact ih (h.writeBit b)

theorem SameStream.flushBits {s s' : State} (h : SameStream s s') : SameStream (flushBits s) (flushBits s') := by
  unfold Machine.flushBits
  rw [h.bw]
  split
  · exact h.outAppend _ _
  · exact h

/-- The mirror is no part of the stream. -/
theorem SameStream.advanceMirror {s s' : State} (h : SameStream s s') (c : Code) :
    SameStream (advanceMirror c s) (advanceMirror c s') := by
  obtain ⟨n, em, hs, -⟩ := advanceMirror_cases c s
  obtain ⟨n', em', hs', -⟩ := advanceMirror_cases c s'
  rw [hs, hs']
  exact ⟨h.bw, h.output, h.out_wf⟩

/-- The same code emitted at the same width (R89). -/
theorem SameStream.emit {s s' : State} (h : SameStream s s') (c : Code) (hw : encWidth s' = encWidth s) :
    SameStream (emit c s) (emit c s') := by
  rw [Machine.emit, Machine.emit, hw]
  exact (h.writeCodeBits c _).advanceMirror c

/-- Learning an entry is no part of the stream (R88). -/
theorem SameStream.insertEntry {s s' : State} (h : SameStream s s') (p : Code) (b : Byte) :
    SameStream (insertEntry p b s) (insertEntry p b s') := by
  obtain ⟨-, hs⟩ | ⟨-, hs⟩ := insertEntry_cases p b s <;> obtain ⟨-, hs'⟩ | ⟨-, hs'⟩ := insertEntry_cases p b s' <;>
    rw [hs, hs'] <;> exact ⟨h.bw, h.output, h.out_wf⟩

/-! The encoder's registers after an operation depend on those before it alone. -/

theorem advanceMirror_enc_congr {s s' : State} (h : s'.enc = s.enc) (c : Code) :
    (advanceMirror c s').enc = (advanceMirror c s).enc := by
  simp only [advanceMirror, h]
  split
  · rfl
  · split <;> rfl

theorem writeCodeBits_enc (v : Code) (w : Width) (s : State) : (writeCodeBits v w s).enc = s.enc := by
  rw [(writeCodeBits_writes v w s).frame]

theorem emit_enc_congr {s s' : State} (h : s'.enc = s.enc) (c : Code) : (emit c s').enc = (emit c s).enc :=
  advanceMirror_enc_congr (by rw [writeCodeBits_enc, writeCodeBits_enc, h]) c

theorem insertEntry_enc_congr {s s' : State} (h : s'.enc = s.enc) (p : Code) (b : Byte) :
    (insertEntry p b s').enc = (insertEntry p b s).enc := by
  unfold insertEntry dictFull
  rw [h]
  split_ifs
  · exact h
  · rfl

theorem encWidth_congr {s s' : State} (h : s'.enc = s.enc) : encWidth s' = encWidth s := by
  rw [encWidth, encWidth, h]

/-- Two encoders with the same match and the same stream to write; where no match is held `E.CUR` may differ (R156). -/
structure EncAlike (s s' : State) : Prop extends SameStream s s' where
  x : s'.x = s.x
  regs : ∃ k, s'.enc = { s.enc with cur := k } ∧ (s.enc.curv = true → k = s.enc.cur)

theorem EncAlike.enc_of_match {s s' : State} (h : EncAlike s s') (hc : s.enc.curv = true) : s'.enc = s.enc := by
  obtain ⟨k, he, hk⟩ := h.regs
  rw [he, hk hc]

theorem EncAlike.inputByte {s s' : State} (h : EncAlike s s') : inputByte s' = inputByte s := by
  obtain ⟨k, he, -⟩ := h.regs
  rw [Machine.inputByte, Machine.inputByte, h.x, he]

/-! ## The decoder -/

/-- The same registers but for those that are unspecified after `D.reset` until the next data code (R102), and for the latch. -/
def SameTable (d d' : Dec) : Prop :=
  ∃ p q n, d' = { d with prev := p, prevseq := q, start := n } ∧ (d.prevv = true → q = d.prevseq)

/-- Two decoders with the same table at the same code. -/
structure DecAlike (s s' : State) : Prop where
  pos : s'.brPos = s.brPos
  regs : SameTable s.dec s'.dec

/-! ## Two blocks alike -/

/-- Two running blocks that will take the same steps. -/
structure Going (s s' : State) : Prop where
  phase : s'.phase = s.phase
  rows : ∀ r, s.phase = .fwd r → s.cfg.mode = .encode ∧ r * s.cfg.roww < s.inLen
  encode : s.cfg.mode = .encode → EncAlike s s'
  decode : s.cfg.mode = .decode → DecAlike s s'

/-- Two blocks that show the host the same and, while BUSY, will go on to. -/
structure Alike (s s' : State) : Prop extends Shown s s' where
  going : s.stat.state = .busy → Going s s'

/-- A running encode goes on with its encoder alike. -/
theorem EncAlike.going {s s' : State} (h : EncAlike s s') (hm : s.cfg.mode = .encode) (hp : s'.phase = s.phase)
    (hr : ∀ r, s.phase = .fwd r → r * s.cfg.roww < s.inLen) : Going s s' :=
  ⟨hp, fun r hf => ⟨hm, hr r hf⟩, fun _ => h, fun hm' => absurd (hm.symm.trans hm') (by decide)⟩

/-- A running decode goes on with its decoder alike. -/
theorem DecAlike.going {s s' : State} (h : DecAlike s s') (hm : s.cfg.mode = .decode) (hp : s'.phase = s.phase)
    (hf : ∀ r, s.phase ≠ .fwd r) : Going s s' :=
  ⟨hp, fun r hr => absurd hr (hf r), fun hm' => absurd (hm.symm.trans hm') (by decide), fun _ => h⟩

/-- A block that is not BUSY only shows. -/
theorem Shown.alike {s s' : State} (h : Shown s s') (hb : s.stat.state ≠ .busy) : Alike s s' :=
  ⟨h, fun hb' => absurd hb' hb⟩

section
variable {s s' t t' : State} (h : Shown s s') (hw : EncoderWrites s t) (hw' : EncoderWrites s' t')
include h hw hw'

theorem Shown.of_encoderWrites (ht : SameStream t t') : Shown t t' := by
  have hf := hw.frame
  have hf' := hw'.frame
  refine ⟨?_, ?_, ?_, ?_, ht.output, ht.out_wf⟩ <;> rw [hf, hf']
  · exact h.cfg
  · exact h.input
  · exact h.host
  · exact h.stat

/-- An encoder step that leaves the byte loop running in both blocks. -/
theorem EncAlike.alike_of_encoderWrites (ha : EncAlike s s') (hp : s.phase = .lzw) (hp' : s'.phase = .lzw)
    (hm : s.cfg.mode = .encode) (ht : SameStream t t')
    (he : t'.enc = t.enc) : Alike t t' where
  toShown := h.of_encoderWrites hw hw' ht
  going _ := by
    have hx : t'.x = t.x := by rw [hw.frame, hw'.frame]; exact ha.x
    have hpt : t.phase = .lzw := by rw [hw.frame]; exact hp
    have hpt' : t'.phase = .lzw := by rw [hw'.frame]; exact hp'
    exact EncAlike.going ⟨ht, hx, t.enc.cur, by rw [he], fun _ => rfl⟩ (by rw [hw.frame]; exact hm)
      (hpt'.trans hpt.symm) fun r hr => by cases hpt.symm.trans hr

end

/-! ## The encoder's steps -/

/-- `ENC.MISS` where it is selected and its code fits (R93). -/
theorem execEncMiss_of_fits {s : State} {b : Byte} (hi : s.enc.ipos < s.inLen) (hx : inputByte s = some b)
    (hc : s.enc.curv = true) (hk : dictFind s.enc.dict s.enc.cur b = none) (hl : s.enc.nac.toNat < 4094)
    (hf : codeFits s.enc.cur (encWidth s) = true) :
    execEncMiss s = .next (advanceMatch (literalCode b) (insertEntry s.enc.cur b (emit s.enc.cur s))) := by
  rw [execEncMiss, byteStep_of_byte hi hx, hc, hk]
  exact (if_pos hl).trans (if_pos hf)

/-- `ENC.MISS_FULL` where it is selected and its code fits (R94). -/
theorem execEncMissFull_of_fits {s : State} {b : Byte} (hi : s.enc.ipos < s.inLen) (hx : inputByte s = some b)
    (hc : s.enc.curv = true) (hk : dictFind s.enc.dict s.enc.cur b = none) (hl : s.enc.nac.toNat = 4094)
    (hf : codeFits s.enc.cur (encWidth s) = true) :
    execEncMissFull s =
      .next (advanceMatch (literalCode b)
        (encReset (emit (BitVec.ofNat 12 Config.clear) (insertEntry s.enc.cur b (emit s.enc.cur s))))) := by
  rw [execEncMissFull, byteStep_of_byte hi hx, hc, hk]
  exact (if_pos (dictFull_iff.2 hl)).trans (if_pos hf)

/-- `ENC.FINISH` at the end of the input with a match that fits (R96). -/
theorem execEncFinish_of_fits {s : State} (hi : s.enc.ipos = s.inLen)
    (hf : s.enc.curv = true → codeFits s.enc.cur (encWidth s) = true) :
    execEncFinish s = .next (setRunState .done (finishStream s)) := by
  rw [execEncFinish, if_pos hi, if_neg]
  cases hc : s.enc.curv with
  | false => simp
  | true => simp [hf hc]

theorem advanceMatch_enc_congr {s s' : State} (h : s'.enc = s.enc) (k : Code) :
    (advanceMatch k s').enc = (advanceMatch k s).enc := by
  simp only [advanceMatch, State.setEnc_enc, h]

theorem encReset_enc_congr {s s' : State} (h : s'.enc = s.enc) : (encReset s').enc = (encReset s).enc := by
  simp only [encReset, State.setEnc_enc, h]

theorem SameStream.setEnc {s s' : State} (h : SameStream s s') (e e' : Enc) :
    SameStream (s.setEnc e) (s'.setEnc e') :=
  ⟨h.bw, h.output, h.out_wf⟩

/-- The width in force does not depend on the match. -/
theorem EncAlike.encWidth {s s' : State} (h : EncAlike s s') : encWidth s' = encWidth s := by
  obtain ⟨k, he, -⟩ := h.regs
  rw [Machine.encWidth, Machine.encWidth, he]

/-- The last codes are the same (R96). -/
theorem EncAlike.finishStream {s s' : State} (h : EncAlike s s') : SameStream (finishStream s) (finishStream s') := by
  rw [finishStream_eq, finishStream_eq]
  cases hc : s.enc.curv with
  | true =>
    have he := h.enc_of_match hc
    rw [emitHeld_of_match hc, emitHeld_of_match (by rw [he]; exact hc), he]
    exact ((h.emit _ h.encWidth).emit _ (encWidth_congr (emit_enc_congr he _))).flushBits
  | false =>
    obtain ⟨k, he, -⟩ := h.regs
    rw [emitHeld_of_none hc, emitHeld_of_none (by rw [he]; exact hc)]
    exact (h.emit _ h.encWidth).flushBits

section
variable {s s' t : State} (h : EncAlike s s') (hv : Shown s s') (hp : s.phase = .lzw) (hp' : s'.phase = .lzw)
  (hm : s.cfg.mode = .encode)
include h hv hp hp' hm

theorem EncAlike.execEncFirst (ht : execEncFirst s = .next t) :
    ∃ t', execEncFirst s' = .next t' ∧ Alike t t' := by
  obtain ⟨hi, hc, b, hx, rfl⟩ := execEncFirst_next ht
  obtain ⟨k, he, -⟩ := h.regs
  have hi' : s'.enc.ipos < s'.inLen := by rw [he, hv.inLen]; exact hi
  refine ⟨_, execEncFirst_of_first hi' (h.inputByte.trans hx) (by rw [he]; exact hc), ?_⟩
  exact h.alike_of_encoderWrites hv ((EncoderWrites.refl s).setEnc _) ((EncoderWrites.refl s').setEnc _) hp hp' hm
    ⟨h.bw, h.output, h.out_wf⟩ (by rw [he])

theorem EncAlike.execEncHit (ht : execEncHit s = .next t) : ∃ t', execEncHit s' = .next t' ∧ Alike t t' := by
  obtain ⟨hi, hc, b, k, hx, hk, rfl⟩ := execEncHit_next ht
  have he := h.enc_of_match hc
  refine ⟨_, execEncHit_of_hit (by rw [he, hv.inLen]; exact hi) (h.inputByte.trans hx) (by rw [he]; exact hc)
    (by rw [he]; exact hk), ?_⟩
  exact h.alike_of_encoderWrites hv ((EncoderWrites.refl s).setEnc _) ((EncoderWrites.refl s').setEnc _) hp hp' hm
    ⟨h.bw, h.output, h.out_wf⟩ (by rw [he])

theorem EncAlike.execEncMiss (ht : execEncMiss s = .next t) : ∃ t', execEncMiss s' = .next t' ∧ Alike t t' := by
  obtain ⟨hi, hc, hl, hf, b, hx, hk, rfl⟩ := execEncMiss_next ht
  have he := h.enc_of_match hc
  refine ⟨_, execEncMiss_of_fits (by rw [he, hv.inLen]; exact hi) (h.inputByte.trans hx) (by rw [he]; exact hc)
    (by rw [he]; exact hk) (by rw [he]; exact hl) (by rw [he, h.encWidth]; exact hf), ?_⟩
  have writes (u : State) := (emit_encoderWrites u.enc.cur u).trans (insertEntry_encoderWrites u.enc.cur b _)
  refine h.alike_of_encoderWrites hv ((writes s).setEnc _) ((writes s').setEnc _) hp hp' hm ?_ ?_ <;> rw [he]
  · exact ((h.emit _ h.encWidth).insertEntry _ b).setEnc _ _
  · exact advanceMatch_enc_congr (insertEntry_enc_congr (emit_enc_congr he _) _ b) _

theorem EncAlike.execEncMissFull (ht : execEncMissFull s = .next t) :
    ∃ t', execEncMissFull s' = .next t' ∧ Alike t t' := by
  obtain ⟨hi, hc, hl, hf, b, hx, hk, rfl⟩ := execEncMissFull_next ht
  have he := h.enc_of_match hc
  refine ⟨_, execEncMissFull_of_fits (by rw [he, hv.inLen]; exact hi) (h.inputByte.trans hx) (by rw [he]; exact hc)
    (by rw [he]; exact hk) (by rw [he]; exact hl) (by rw [he, h.encWidth]; exact hf), ?_⟩
  have writes (u : State) := ((emit_encoderWrites u.enc.cur u).trans (insertEntry_encoderWrites u.enc.cur b _)).trans
    (emit_encoderWrites (BitVec.ofNat 12 Config.clear) _)
  have hins := insertEntry_enc_congr (emit_enc_congr he s.enc.cur) s.enc.cur b
  refine h.alike_of_encoderWrites hv (((writes s).setEnc _).setEnc _) (((writes s').setEnc _).setEnc _) hp hp' hm ?_ ?_ <;>
    rw [he]
  · exact ((((h.emit _ h.encWidth).insertEntry _ b).emit _ (encWidth_congr hins)).setEnc _ _).setEnc _ _
  · exact advanceMatch_enc_congr (encReset_enc_congr (emit_enc_congr hins _)) _

end

theorem EncAlike.execEncFinish {s s' t : State} (h : EncAlike s s') (hv : Shown s s')
    (ht : execEncFinish s = .next t) : ∃ t', execEncFinish s' = .next t' ∧ Alike t t' := by
  obtain ⟨hi, hf, rfl⟩ := execEncFinish_next ht
  obtain ⟨k, he, hk⟩ := h.regs
  refine ⟨_, execEncFinish_of_fits (by rw [he, hv.inLen]; exact hi) fun hc => ?_, ?_⟩
  · have hc : s.enc.curv = true := by rwa [he] at hc
    rw [h.enc_of_match hc, h.encWidth]
    exact hf hc
  · have hshown := hv.of_encoderWrites (finishStream_encoderWrites s) (finishStream_encoderWrites s') h.finishStream
    exact (hshown.setRunState .done).alike nofun

end Sys2Proof.Machine
end

section
/-! PROOFS. Every step keeps two blocks alike (R134): the decoder's steps and the rows of the predictor. -/

namespace Sys2Proof.Machine

/-! ## The decoder's fetch -/

/-- The decoder's registers and latches are not shown. -/
theorem Shown.setDec {s s' : State} (h : Shown s s') (d d' : Dec) : Shown (s.setDec d) (s'.setDec d') :=
  ⟨h.cfg, h.input, h.host, h.stat, h.output, h.out_wf⟩

theorem Shown.fetched {s s' : State} (h : Shown s s') (c : Code) : Shown (fetched c s) (fetched c s') :=
  ⟨h.cfg, h.input, h.host, h.stat, h.output, h.out_wf⟩

section
variable {s s' : State} (h : DecAlike s s') (hv : Shown s s')
include h

theorem DecAlike.decWidth : decWidth s' = decWidth s := by
  obtain ⟨p, q, n, he, -⟩ := h.regs
  rw [Machine.decWidth, Machine.decWidth, he]

/-- The two decoders after the fetch, with the same latch `start`. -/
theorem DecAlike.fetched (c : Code) :
    DecAlike (fetched c s) (fetched c s') ∧ (Machine.fetched c s').dec.start = (Machine.fetched c s).dec.start := by
  obtain ⟨p, q, n, he, hq⟩ := h.regs
  refine ⟨⟨?_, p, q, s'.brPos, ?_, hq⟩, h.pos⟩
  · show s'.brPos + (Machine.decWidth s').bits = s.brPos + (Machine.decWidth s).bits
    rw [h.pos, h.decWidth]
  · show { s'.dec with start := s'.brPos } = _
    rw [he]
    rfl

include hv

/-- The same end of the stream is found at the same code (R103). -/
theorem DecAlike.decFetch_error {t : State} (hf : decFetch s = .error t) :
    ∃ t', decFetch s' = .error t' ∧ Alike t t' := by
  obtain ⟨hshort, hf'⟩ | ⟨-, c, -, hf'⟩ := decFetch_cases s <;> rw [hf'] at hf <;> cases hf
  refine ⟨_, decFetch_of_short (by rw [hv.inLen, h.pos, h.decWidth]; exact hshort), ?_⟩
  have hstart := hv.setDec { s.dec with start := s.brPos } { s'.dec with start := s'.brPos }
  exact (hstart.raiseFault .unexpectedEndOfStream h.pos).alike nofun

/-- The same code is fetched (R103). -/
theorem DecAlike.decFetch_ok {c : Code} {u : State} (hf : decFetch s = .ok (c, u)) :
    u = Machine.fetched c s ∧ decFetch s' = .ok (c, Machine.fetched c s') := by
  obtain ⟨-, hf'⟩ | ⟨hlen, c', hc, hf'⟩ := decFetch_cases s <;> rw [hf'] at hf <;> cases hf
  have hlen' : (Machine.decWidth s').bits ≤ 8 * s'.inLen - s'.brPos := by
    rw [h.decWidth, hv.inLen, h.pos]; exact hlen
  obtain ⟨c'', hc'', hf''⟩ := decFetch_of_enough hlen'
  have hwidth := (Width_bits_bounds (Machine.decWidth s)).1
  have hwidth' := (Width_bits_bounds (Machine.decWidth s')).1
  have hsame : c'' = c := by
    rw [hc'', hc, ← codeAt_inBytes (s := s') (by omega), ← codeAt_inBytes (s := s) (by omega), hv.input, h.pos,
      h.decWidth]
  exact ⟨rfl, by rw [hf'', hsame]; rfl⟩

end

/-! ## The class arms -/

section
variable {s s' t : State} (h : DecAlike s s') (hstart : s'.dec.start = s.dec.start) (hv : Shown s s')
  (hp : s.phase = .lzw) (hp' : s'.phase = .lzw) (hm : s.cfg.mode = .decode)
include h hv hp hp' hm

/-- A decoder step that leaves the code loop running in both blocks: a sequence appended, the registers kept alike. -/
theorem DecAlike.alike_of_append (seq : List Byte) {d d' : Dec} (hd : SameTable d d') :
    Alike ((outAppendAll seq s).setDec d) ((outAppendAll seq s').setDec d') where
  toShown := (hv.outAppendAll seq).setDec d d'
  going _ := by
    rw [outAppendAll_eq, outAppendAll_eq]
    exact DecAlike.going ⟨h.pos, hd⟩ hm (hp'.trans hp.symm) fun r hr => by cases hp.symm.trans hr

include hstart

/-- `DATA` of the same sequence (R105). -/
theorem DecAlike.dataTail {c : Code} {seq : List Byte} (ht : dataTail c seq s = .next t) :
    ∃ t', dataTail c seq s' = .next t' ∧ Alike t t' := by
  obtain ⟨p, q, n, he, hq⟩ := h.regs
  have hprevv : s'.dec.prevv = s.dec.prevv := by rw [he]
  have hnac : s'.dec.nac = s.dec.nac := by rw [he]
  have hdec (u : State) : (outAppendAll seq u).dec = u.dec := by rw [outAppendAll_eq]
  obtain ⟨hpv, hn, rfl⟩ | ⟨hfull, hover, rfl⟩ | ⟨hfull, hroom, ⟨hpv, b, bs, rfl, rfl⟩ | ⟨hpv, rfl⟩⟩ := dataTail_next ht
  · exact ⟨_, dataTail_of_overflow (hprevv.trans hpv) (by rw [hnac, hn]),
      (hv.raiseFault _ hstart).alike nofun⟩
  · exact ⟨_, dataTail_of_overrun (by rwa [hprevv, hnac]) (by rwa [hv.cfg, hv.outLen]),
      (hv.raiseFault _ hstart).alike nofun⟩
  · refine ⟨_, dataTail_of_insert (by rwa [hprevv, hnac]) (by rwa [hv.cfg, hv.outLen]) (hprevv.trans hpv), ?_⟩
    refine h.alike_of_append hv hp hp' hm _ ⟨c, b :: bs, n, ?_, fun _ => rfl⟩
    simp only [insertTable, State.setDec_dec, hdec, he, hq hpv]
  · refine ⟨_, dataTail_of_no_prev (by rwa [hv.cfg, hv.outLen]) (hprevv.trans hpv), ?_⟩
    refine h.alike_of_append hv hp hp' hm _ ⟨c, seq, n, ?_, fun _ => rfl⟩
    simp only [hdec, he]

/-- The arm of the same code (R104). -/
theorem DecAlike.runClass {k : CodeClass} {c : Code} (ht : runClass k c s = .next t) :
    ∃ t', runClass k c s' = .next t' ∧ Alike t t' := by
  obtain ⟨p, q, n, he, hq⟩ := h.regs
  cases k with
  | clr =>
    cases ht
    refine ⟨decReset s', rfl, ⟨hv.cfg, hv.input, hv.host, hv.stat, hv.output, hv.out_wf⟩, fun _ => ?_⟩
    exact DecAlike.going ⟨h.pos, _, _, s'.dec.start, rfl, nofun⟩ hm (hp'.trans hp.symm) fun r hr => by
      cases hp.symm.trans hr
  | eoi =>
    obtain ⟨hpred, ho, rfl⟩ | ⟨hn, rfl⟩ := eoiArm_next ht
    · refine ⟨s'.setPhase (.inv 0), if_pos ⟨hv.cfg ▸ hpred, hv.outLen.symm ▸ ho⟩, hv.setPhase _ _, fun _ => ?_⟩
      exact DecAlike.going ⟨h.pos, h.regs⟩ hm rfl nofun
    · exact ⟨Machine.setRunState .done s', if_neg (by rwa [hv.cfg, hv.outLen]), (hv.setRunState .done).alike nofun⟩
  | inv =>
    obtain ⟨hc, rfl⟩ := invArm_next ht
    exact ⟨raiseFault .invalidCodeError s'.dec.start s', if_pos (by rw [he]; exact hc),
      (hv.raiseFault _ hstart).alike nofun⟩
  | lit => exact h.dataTail hstart hv hp hp' hm ht
  | dict =>
    obtain ⟨hlow, hlt, seq, hseq, ht⟩ := dictArm_next ht
    obtain ⟨t', ht', ha⟩ := h.dataTail hstart hv hp hp' hm ht
    exact ⟨t', (dictArm_of_entry hlow (by rw [he]; exact hlt) (by rw [he]; exact hseq)).trans ht', ha⟩
  | kwk =>
    obtain ⟨hc, hpv, b, bs, hprev, ht⟩ := kwkArm_next ht
    obtain ⟨t', ht', ha⟩ := h.dataTail hstart hv hp hp' hm ht
    exact ⟨t', (kwkArm_of_prev (by rw [he]; exact hc) (by rw [he]; exact hpv)
      (by rw [he]; exact (hq hpv).trans hprev)).trans ht', ha⟩

end

end Sys2Proof.Machine
end

section
/-! PROOFS. An invocation does not depend on what came before it (R134): the rows, the step, the run from START. -/

namespace Sys2Proof.Machine

/-! ## The rows -/

/-- A row reads its own bytes alone. -/
theorem rowBytes_congr {m m' : Memory} {a n : Nat} (h : ∀ i, a ≤ i → i < a + n → memRead m' i = memRead m i) :
    rowBytes m' a n = rowBytes m a n :=
  List.map_congr_left fun i hi => h _ (Nat.le_add_right a i) (Nat.add_lt_add_left (List.mem_range.1 hi) a)

/-- A row that begins inside whole rows ends inside them (R119). -/
theorem row_end_le {r w n : Nat} (hm : n % w = 0) (hlt : r * w < n) : (r + 1) * w ≤ n := by
  obtain ⟨k, rfl⟩ := Nat.dvd_of_mod_eq_zero hm
  rw [Nat.mul_comm w k] at hlt ⊢
  exact Nat.mul_le_mul_right w (Nat.lt_of_mul_lt_mul_right hlt)

/-- Buffers that agree at an address agree there after the same bytes are written to both. -/
theorem memRead_memWriteList_congr {m m' : Memory} (hwf : Memory.wf m) (hwf' : Memory.wf m') (a : Nat) (bs : List Byte)
    {i : Nat} (h : memRead m' i = memRead m i) :
    memRead (memWriteList m' a bs) i = memRead (memWriteList m a bs) i := by
  by_cases hi : a ≤ i ∧ i < a + bs.length
  · obtain ⟨j, rfl⟩ := Nat.exists_eq_add_of_le hi.1
    have hj : j < bs.length := by omega
    rw [memRead_memWriteList_inside a bs hwf hj, memRead_memWriteList_inside a bs hwf' hj]
  · rw [memRead_memWriteList_outside _ _ _ (by omega), memRead_memWriteList_outside _ _ _ (by omega), h]

section
variable {s s' t : State} {r : Nat} (h : Alike s s') (hb : s.stat.state = .busy)
include h

/-- The same row summed shows the same output (R122). -/
theorem Alike.invRow (r : Nat) : Shown (invRow r s) (invRow r s') := by
  obtain ⟨hwf, hwf'⟩ := h.out_wf
  have hrow : rowBytes s'.outBuf (r * s.cfg.roww) (min s.cfg.roww (s.outLen - r * s.cfg.roww)) =
      rowBytes s.outBuf (r * s.cfg.roww) (min s.cfg.roww (s.outLen - r * s.cfg.roww)) :=
    rowBytes_congr fun i hlow hi => h.memRead_out (by omega)
  refine ⟨h.cfg, h.input, h.host, h.stat, ?_, memWriteList_wf _ _ hwf, memWriteList_wf _ _ hwf'⟩
  simp only [Machine.invRow, h.cfg, h.outLen, hrow, outBytes, State.setOut_outLen, State.setOut_outBuf]
  exact List.map_congr_left fun i hi =>
    memRead_memWriteList_congr hwf hwf' _ _ (h.memRead_out (List.mem_range.1 hi))

/-- The same row differenced (R119). -/
theorem Alike.fwdRow_x (hlt : r * s.cfg.roww < s.inLen) (hmod : s.inLen % s.cfg.roww = 0) (hx : s'.x = s.x) :
    (fwdRow r s').x = (fwdRow r s).x := by
  have hend := row_end_le hmod hlt
  rw [Nat.succ_mul] at hend
  have hrow : rowBytes s'.inBuf (r * s.cfg.roww) s.cfg.roww = rowBytes s.inBuf (r * s.cfg.roww) s.cfg.roww :=
    rowBytes_congr fun i _ hi => h.memRead_in (by omega)
  simp only [fwdRow, h.cfg, hx, hrow, State.setX_x]

include hb

theorem Alike.invStep (ht : invStep r s = .next t) : ∃ t', invStep r s' = .next t' ∧ Alike t t' := by
  have hrow := h.invRow r
  have hg := h.going hb
  obtain ⟨hw, ⟨hlt, rfl⟩ | ⟨hle, rfl⟩⟩ := invStep_next ht
  · refine ⟨(Machine.invRow r s').setPhase (.inv (r + 1)), ?_, hrow.setPhase _ _, fun _ => ?_⟩
    · rw [Machine.invStep, h.cfg, h.outLen, if_pos hw, if_pos hlt]
    · exact ⟨rfl, nofun, fun hm => ⟨⟨(hg.encode hm).bw, hrow.output, hrow.out_wf⟩, (hg.encode hm).x, (hg.encode hm).regs⟩,
        fun hm => ⟨(hg.decode hm).pos, (hg.decode hm).regs⟩⟩
  · refine ⟨setRunState .done ((Machine.invRow r s').setPhase .lzw), ?_, ((hrow.setPhase _ _).setRunState _).alike nofun⟩
    rw [Machine.invStep, h.cfg, h.outLen, if_pos hw, if_neg (Nat.not_lt.2 hle)]

theorem Alike.fwdStep (hp : s.phase = .fwd r) (ht : fwdStep r s = .next t) :
    ∃ t', fwdStep r s' = .next t' ∧ Alike t t' := by
  have hg := h.going hb
  obtain ⟨hm, hlt⟩ := hg.rows r hp
  have ha := hg.encode hm
  obtain ⟨hgeom, rfl⟩ := fwdStep_next ht
  obtain ⟨-, hmod⟩ : 0 < s.cfg.roww ∧ s.inLen % s.cfg.roww = 0 := by simpa [fwdGeometry] using hgeom
  have hgeom' : fwdGeometry s' = true := by rwa [fwdGeometry, h.cfg, h.inLen]
  refine ⟨_, if_pos hgeom', ⟨h.cfg, h.input, h.host, h.stat, h.output, h.out_wf⟩, fun _ => ?_⟩
  refine EncAlike.going ⟨⟨ha.bw, h.output, h.out_wf⟩, h.fwdRow_x hlt hmod ha.x, ha.regs⟩ hm ?_ fun r' hr => ?_
  · rw [h.cfg, h.inLen]; rfl
  · rw [State.setPhase_phase] at hr
    split at hr
    · next hnext => cases hr; exact hnext
    · cases hr

/-! ## The step -/

/-- The selected operation of a running encode (R95). -/
theorem Alike.step_encode (hp : s.phase = .lzw) (hm : s.cfg.mode = .encode) (ht : runEnc (encSelect s) s = .next t) :
    ∃ t', Machine.step s' = .next t' ∧ Alike t t' := by
  have hg := h.going hb
  have ha := hg.encode hm
  have hp' := hg.phase.trans hp
  have answers : ∃ t', runEnc (encSelect s) s' = .next t' ∧ Alike t t' := by
    generalize encSelect s = op at ht
    cases op with
    | first => exact ha.execEncFirst h.toShown hp hp' hm ht
    | hit => exact ha.execEncHit h.toShown hp hp' hm ht
    | miss => exact ha.execEncMiss h.toShown hp hp' hm ht
    | missFull => exact ha.execEncMissFull h.toShown hp hp' hm ht
    | finish => exact ha.execEncFinish h.toShown ht
  obtain ⟨t', ht', hat⟩ := answers
  refine ⟨t', ?_, hat⟩
  rw [step_lzw_encode (by rw [h.stat]; exact hb) hp' (by rw [h.cfg]; exact hm), ← eq_encSelect_of_next ht', ht']

/-- The code of a running decode (R103, R104). -/
theorem Alike.step_decode (hp : s.phase = .lzw) (hm : s.cfg.mode = .decode) (ht : Machine.step s = .next t) :
    ∃ t', Machine.step s' = .next t' ∧ Alike t t' := by
  have hg := h.going hb
  have ha := hg.decode hm
  have hb' : s'.stat.state = .busy := by rw [h.stat]; exact hb
  have hp' := hg.phase.trans hp
  have hm' : s'.cfg.mode = .decode := by rw [h.cfg]; exact hm
  rcases hf : decFetch s with u | ⟨c, u⟩
  · obtain ⟨u', hf', hau⟩ := ha.decFetch_error h.toShown hf
    have hstep : Machine.step s = .next u := by simp only [Machine.step, hb, busyStep, hp, hm, hf]
    cases hstep.symm.trans ht
    exact ⟨u', by simp only [Machine.step, hb', busyStep, hp', hm', hf'], hau⟩
  · obtain ⟨rfl, hf'⟩ := ha.decFetch_ok h.toShown hf
    obtain ⟨hau, hstart⟩ := ha.fetched c
    obtain ⟨p, q, n, he, -⟩ := ha.regs
    rw [step_of_decFetch hb hp hm hf] at ht
    obtain ⟨t', ht', hat⟩ := hau.runClass hstart (h.toShown.fetched c) hp hp' hm ht
    exact ⟨t', by rw [step_of_decFetch hb' hp' hm' hf', ha.decWidth, he]; exact ht', hat⟩

end

/-- Blocks alike take the same step. -/
theorem Alike.step {s s' t : State} (h : Alike s s') (ht : step s = .next t) :
    ∃ t', Machine.step s' = .next t' ∧ Alike t t' := by
  obtain ⟨hhost, hhost'⟩ := h.host
  by_cases hb : s.stat.state = .busy
  case neg =>
    have hb' : s'.stat.state ≠ .busy := by rwa [h.stat]
    rw [step_of_not_busy hb, hostStep, hhost] at ht
    cases ht
    exact ⟨s', by rw [step_of_not_busy hb', hostStep, hhost'], h⟩
  have hb' : s'.stat.state = .busy := by rwa [h.stat]
  have hphase := (h.going hb).phase
  cases hp : s.phase with
  | fwd r =>
    rw [step_fwd hb hp] at ht
    rw [step_fwd hb' (hphase.trans hp)]
    exact h.fwdStep hb hp ht
  | inv r =>
    rw [step_inv hb hp] at ht
    rw [step_inv hb' (hphase.trans hp)]
    exact h.invStep hb ht
  | lzw =>
    cases hm : s.cfg.mode with
    | encode => exact h.step_encode hb hp hm (step_lzw_encode hb hp hm ▸ ht)
    | decode => exact h.step_decode hb hp hm ht

/-- Blocks alike run alike. -/
theorem Alike.runs {n : Nat} {s s' t : State} (h : Alike s s') (ht : Runs n s t) :
    ∃ t', Runs n s' t' ∧ Alike t t' := by
  induction n generalizing s s' with
  | zero => cases ht; exact ⟨s', rfl, h⟩
  | succ n ih =>
    simp only [Runs, Host.Core.run] at ht
    split at ht
    · next u hu =>
      obtain ⟨u', hu', ha⟩ := h.step hu
      obtain ⟨t', ht', hat⟩ := ih ha ht
      exact ⟨t', .head hu' ht', hat⟩
    · cases ht
    · cases ht

/-! ## From START -/

section
variable {s s' : State} (hcfg : s'.cfg = s.cfg) (hin : inBytes s' = inBytes s)
  (hwf : Memory.wf s.outBuf ∧ Memory.wf s'.outBuf) (hh : s.host = [] ∧ s'.host = [])
include hcfg hin hwf hh

/-- A started encode shows BUSY and no output (R127, R155). -/
theorem shown_startedEncode (x x' : List Byte) (p p' : Phase) : Shown (startedEncode s x p) (startedEncode s' x' p') :=
  ⟨hcfg, hin, hh, rfl, rfl, hwf⟩

/-- A started decode shows BUSY and no output (R127, R155). -/
theorem shown_startedDecode : Shown (startedDecode s) (startedDecode s') :=
  ⟨hcfg, hin, hh, rfl, rfl, hwf⟩

/-- Started encodes are alike (R155, R156): `E.CUR` alone is unspecified, and no match is held. -/
theorem alike_startedEncode {x : List Byte} {p : Phase} (hm : s.cfg.mode = .encode)
    (hp : ∀ r, p = .fwd r → r * s.cfg.roww < s.inLen) : Alike (startedEncode s x p) (startedEncode s' x p) :=
  ⟨shown_startedEncode hcfg hin hwf hh x x p p,
    fun _ => EncAlike.going ⟨⟨rfl, rfl, hwf⟩, rfl, Config.freeCode s'.free, rfl, nofun⟩ hm rfl hp⟩

/-- Started decodes are alike (R155): with no previous code `D.PREV` and `D.PREVSEQ` are unspecified. -/
theorem alike_startedDecode (hm : s.cfg.mode = .decode) : Alike (startedDecode s) (startedDecode s') :=
  ⟨shown_startedDecode hcfg hin hwf hh,
    fun _ => DecAlike.going ⟨rfl, _, _, s'.dec.start, rfl, nofun⟩ hm rfl nofun⟩

/-- The invocation reset shows BUSY and no output (R127, R155). -/
theorem shown_invocationReset :
    Shown (invocationReset (clearStatus s)) (invocationReset (clearStatus s')) := by
  cases hm : s.cfg.mode with
  | encode =>
    rw [invocationReset_encode hm, invocationReset_encode (hcfg ▸ hm), encBegin_clearStatus, encBegin_clearStatus]
    exact shown_startedEncode hcfg hin hwf hh ..
  | decode =>
    rw [invocationReset_decode hm, invocationReset_decode (hcfg ▸ hm), decBegin_clearStatus, decBegin_clearStatus]
    exact (shown_startedDecode hcfg hin hwf hh).setPhase ..

/-- Blocks with the same configuration and input are alike once started. -/
theorem alike_execStart {a a' : State} (hmax : s'.maxInLen = s.maxInLen) (ha : execStart s = .next a)
    (ha' : execStart s' = .next a') (hb : s.stat.state ≠ .busy) (hb' : s'.stat.state ≠ .busy) : Alike a a' := by
  have hlen : s'.inLen = s.inLen := by rw [← inBytes_length s', hin, inBytes_length]
  have hlegal : LegalConfig s' ↔ LegalConfig s := by rw [LegalConfig, LegalConfig, hmax, hcfg, hlen]
  by_cases hl : LegalConfig s
  · have hl' := hlegal.2 hl
    cases hm : s.cfg.mode with
    | encode =>
      cases hp : s.cfg.pred with
      | none =>
        cases ha.symm.trans (execStart_encode_none hb hl hm hp)
        cases ha'.symm.trans (execStart_encode_none hb' hl' (hcfg ▸ hm) (hcfg ▸ hp))
        rw [hin]
        exact alike_startedEncode hcfg hin hwf hh hm nofun
      | horizontal =>
        cases ha.symm.trans (execStart_encode_horizontal hb hl hm hp)
        cases ha'.symm.trans (execStart_encode_horizontal hb' hl' (hcfg ▸ hm) (hcfg ▸ hp))
        rw [hlen]
        refine alike_startedEncode hcfg hin hwf hh hm fun r hr => ?_
        split at hr
        · cases hr
        · next h0 =>
          cases hr
          rw [Nat.zero_mul]
          exact Nat.pos_of_ne_zero h0
    | decode =>
      cases ha.symm.trans (execStart_decode hb hl hm)
      cases ha'.symm.trans (execStart_decode hb' hl' (hcfg ▸ hm))
      exact alike_startedDecode hcfg hin hwf hh hm
  · rw [execStart_of_illegal hb hl] at ha
    rw [execStart_of_illegal hb' (mt hlegal.1 hl)] at ha'
    cases ha
    cases ha'
    exact ((shown_invocationReset hcfg hin hwf hh).raiseFault _ rfl).alike nofun

end

/-- Settles O51: what START leaves is alike, every step keeps it, and blocks alike show the host the same. -/
theorem resultsDoNotDependOnHistory : Obligations.ResultsDoNotDependOnHistory := by
  intro s s' a a' b n hb hb' hh hh' hwf hwf' hmax hcfg hlen hmem ha ha' hrun
  have hin : inBytes s' = inBytes s := by
    rw [inBytes, inBytes, hlen]
    exact List.map_congr_left fun i hi => hmem i (List.mem_range.1 hi)
  obtain ⟨b', hrun', hab⟩ := (alike_execStart hcfg hin ⟨hwf, hwf'⟩ ⟨hh, hh'⟩ hmax ha ha' hb hb').runs hrun
  exact ⟨b', hrun', hab.stat, hab.hostResult⟩

end Sys2Proof.Machine
end

section
/-! PROOFS. The exceptions (R140, R142, R144): what a fault of a decoder step records, and the idle block (R153). -/

namespace Sys2Proof.Machine

/-! ## The faults of a decoder step -/

/-- `DATA` of a running block ends in ERROR by one of its two faults only, taken at `start` (R106, R107). -/
theorem dataTail_fault {c : Code} {seq : List Byte} {s t : State} (h : dataTail c seq s = .next t)
    (hb : s.stat.state = .busy) (ht : t.stat.state = .error) :
    ∃ k, (k = .dictionaryOverflowWithoutClear ∨ k = .outputOverrun) ∧ t = raiseFault k s.dec.start s := by
  obtain ⟨-, -, rfl⟩ | ⟨-, -, rfl⟩ | ⟨-, -, ⟨-, b, bs, -, rfl⟩ | ⟨-, rfl⟩⟩ := dataTail_next h
  · exact ⟨_, .inl rfl, rfl⟩
  · exact ⟨_, .inr rfl, rfl⟩
  all_goals
    rw [outAppendAll_eq] at ht
    cases hb.symm.trans ht

/-- A class arm of a running block ends in ERROR by one of three faults only, taken at `start` (R106, R107, R110). -/
theorem runClass_fault {k : CodeClass} {c : Code} {s t : State} (h : runClass k c s = .next t)
    (hb : s.stat.state = .busy) (ht : t.stat.state = .error) :
    ∃ e, (e = .invalidCodeError ∨ e = .dictionaryOverflowWithoutClear ∨ e = .outputOverrun) ∧
      t = raiseFault e s.dec.start s := by
  obtain rfl | ⟨-, -, rfl⟩ | rfl | rfl | ⟨c', seq, -, h⟩ := runClass_next h
  · cases hb.symm.trans ht
  · cases hb.symm.trans ht
  · cases ht
  · exact ⟨_, .inl rfl, rfl⟩
  · obtain ⟨e, he, rfl⟩ := dataTail_fault h hb ht
    exact ⟨e, .inr he, rfl⟩

/-- A step of a BUSY decode that reads no code is the fault of its fetch (R103). -/
theorem step_of_decFetch_error {s u : State} (hb : s.stat.state = .busy) (hp : s.phase = .lzw)
    (hm : s.cfg.mode = .decode) (hf : decFetch s = .error u) : step s = .next u := by
  simp only [step, hb, busyStep, hp, hm, hf]

/-- Settles O41: a fetch with too few bits left faults at `BR.POS`; a fetch that reads a code latches `BR.POS` as `start`, where
the arms take their faults, none of them the end of the stream. -/
theorem decoderFaultsArePrecise : Obligations.DecoderFaultsArePrecise := by
  intro s t hb hp hm h ht
  obtain ⟨hshort, hf⟩ | ⟨henough, c, -, hf⟩ := decFetch_cases s
  · cases (step_of_decFetch_error hb hp hm hf).symm.trans h
    exact ⟨rfl, rfl, .inl rfl, iff_of_true rfl hshort⟩
  · rw [step_of_decFetch hb hp hm hf] at h
    obtain ⟨e, he, rfl⟩ := runClass_fault h hb ht
    have hend : e ≠ .unexpectedEndOfStream := by rintro rfl; simp at he
    exact ⟨rfl, rfl, .inr he, iff_of_false hend (Nat.not_lt.2 henough)⟩

/-! ## The idle block -/

/-- Settles O8: a step of a block that is not BUSY takes a host action, and there is none. -/
theorem idleBlockKeepsItsState : Obligations.IdleBlockKeepsItsState := fun s hb hh => by
  rw [step_of_not_busy hb, hostStep, hh]

end Sys2Proof.Machine
end

section
/-! PROOFS. Power-on (R154): the host's registers in the state after reset. -/

namespace Sys2Proof.Machine

/-- Settles O52: `State.reset` writes out R154's value for each of the four, `STAT`, `OUT_LEN`, `CFG` and `IN_LEN` in turn. -/
theorem resetIsThePowerOnState : Obligations.ResetIsThePowerOnState := ⟨rfl, rfl, rfl, rfl⟩

end Sys2Proof.Machine
end
